-- ==== Sys2Proof/Config.lean ====
section
/-! DEFINITION. The constants of the block (00_scope.md R7) and its open parameters (R9). -/

namespace Sys2Proof

/-- `BYTE_WIDTH` (R7). -/
abbrev Config.byteWidth : Nat := 8

/-- `CODE_WIDTH` (R7). -/
abbrev Config.codeWidth : Nat := 16

/-- `ALPHABET`: the number of fixed one-byte entries (R7). -/
abbrev Config.alphabet : Nat := 256

/-- `CLEAR`: the reset code and the reserved slot (R7). -/
abbrev Config.clear : Nat := 256

/-- `FIRST_FREE`: the first index a new entry takes after a build (R7). -/
abbrev Config.firstFree : Nat := 257

/-- `BASE_LEN`: the dictionary length right after a build (R7). -/
abbrev Config.baseLen : Nat := 257

/-- `CAPACITY`: the maximum dictionary length (R7). -/
abbrev Config.capacity : Nat := 65536

/-- The parameters the sources leave open (R9), as arguments of the model; `none` is unbounded.
`posWidth` changes no step: R9 and D26 ask that it be wide enough for every position that occurs
(DESIGN CHOICE, log entry 9). -/
structure Params where
  maxInUnits  : Option Nat
  maxOutUnits : Option Nat
  posWidth    : Option Nat
deriving DecidableEq, Repr

/-- R9: "Their defaults are unbounded." -/
def Params.unbounded : Params := ⟨none, none, none⟩

end Sys2Proof
end

