-- ==== Sys2Proof/Word.lean ====
section
/-! DEFINITION. The two value types of the block (10_state.md R21). Everything is unsigned (00_scope.md R10). -/

namespace Sys2Proof

/-- `Byte`: an unsigned 8-bit value (R21). -/
abbrev Byte := BitVec 8

/-- `Code`: an unsigned 16-bit value (R21). -/
abbrev Code := BitVec 16

end Sys2Proof
end

