-- ==== Sys2Proof/Syntax.lean ====
section
/-! DEFINITION. The instructions: one constructor per row of spec/opcode_table.json (00_scope.md R2).
The command words (format CMD8) come first, then the reserved command words, then the code words (format CODE16). -/

namespace Sys2Proof

/-- The two instruction formats (30_encoding.md R70). -/
inductive Format where
  | cmd8
  | code16
deriving DecidableEq, Repr

/-- One constructor per row of the opcode table.
A reserved-bit row matches every command word with that bit set, so the rows overlap; each constructor here
stands for the words in which that bit is the lowest of bits [7:3] set (DESIGN CHOICE, log entry 12), and
carries the bits the row leaves open: OP, and the bits above. -/
inductive Instr where
  /-- OP 1 (R208). -/
  | compress
  /-- OP 2 (R209). -/
  | decompress
  /-- OP 3 (R210). -/
  | encode
  /-- OP 4 (R211). -/
  | decode
  /-- OP 5 (R212). -/
  | pack
  /-- OP 6 (R213). -/
  | unpack
  /-- OP 0, reserved (R82). -/
  | reservedOp0
  /-- OP 7, reserved (R82). -/
  | reservedOp7
  /-- Bit 3 set; `upper` is CMD8[7:4] (R82). -/
  | reservedBit3 (op : BitVec 3) (upper : BitVec 4)
  /-- Bit 4 set, bit 3 clear; `upper` is CMD8[7:5] (R82). -/
  | reservedBit4 (op : BitVec 3) (upper : BitVec 3)
  /-- Bit 5 set, bits [4:3] clear; `upper` is CMD8[7:6] (R82). -/
  | reservedBit5 (op : BitVec 3) (upper : BitVec 2)
  /-- Bit 6 set, bits [5:3] clear; `upper` is CMD8[7] (R82). -/
  | reservedBit6 (op : BitVec 3) (upper : BitVec 1)
  /-- Bit 7 set, bits [6:3] clear (R82). -/
  | reservedBit7 (op : BitVec 3)
  /-- A literal code, 0x0000 to 0x00FF (R72). -/
  | lit (b : Byte)
  /-- The code 0x0100 (R72). -/
  | clear
  /-- A reference code, 0x0101 to 0xFFFF (R72); the bound is a check of WellFormed. -/
  | ref (c : Code)
deriving DecidableEq, Repr

/-- Which format an instruction's word has (R70). -/
def Instr.format : Instr → Format
  | .compress | .decompress | .encode | .decode | .pack | .unpack
  | .reservedOp0 | .reservedOp7
  | .reservedBit3 _ _ | .reservedBit4 _ _ | .reservedBit5 _ _ | .reservedBit6 _ _ | .reservedBit7 _ => .cmd8
  | .lit _ | .clear | .ref _ => .code16

end Sys2Proof
end

