-- ==== Sys2Proof/WellFormed.lean ====
section
/-! DEFINITION. The one check on an instruction that its fields' widths do not make by themselves. -/

namespace Sys2Proof

/-- A reference code names an index from `FIRST_FREE` up: smaller values are LIT or CLEAR (30_encoding.md R72).
Every other instruction is well-formed by the widths of its fields. -/
def Instr.wellFormed : Instr → Bool
  | .ref c => decide (Config.firstFree ≤ c.toNat)
  | .compress | .decompress | .encode | .decode | .pack | .unpack
  | .reservedOp0 | .reservedOp7
  | .reservedBit3 _ _ | .reservedBit4 _ _ | .reservedBit5 _ _ | .reservedBit6 _ _ | .reservedBit7 _
  | .lit _ | .clear => true

/-- An instruction the encoding of spec/ can express. -/
abbrev WellFormed (i : Instr) : Prop := i.wellFormed = true

end Sys2Proof
end

