-- ==== Sys2Proof/Decode.lean ====
section
/-! DEFINITION. The decoder, total on any bytes, and the encoder, both from 30_encoding.md R71, R72, R76 to R79 and R82;
with them the bit-field and byte-order helpers they use. -/

namespace Sys2Proof

/-! ### Bit fields and byte order -/

/-- `c[15:8]`, the byte that stands first (R76). -/
def hiByte (c : Code) : Byte := c.extractLsb' 8 8

/-- `c[7:0]`, the byte that stands second (R76). -/
def loByte (c : Code) : Byte := c.extractLsb' 0 8

/-- `zext_16(hi) * 256 + zext_16(lo)` (R77). -/
def joinBytes (hi lo : Byte) : Code := hi.zeroExtend 16 * 256#16 + lo.zeroExtend 16

/-- `zext_16(b)`: the literal code of a byte (00_scope.md R11). -/
def litCode (b : Byte) : Code := b.zeroExtend 16

/-- The code CLEAR (R72). -/
def clearCode : Code := 0x0100#16

/-- CMD8[2:0] (R78). -/
def opField (v : Byte) : BitVec 3 := v.extractLsb' 0 3

/-- CMD8[7:3] (R78). -/
def reservedField (v : Byte) : BitVec 5 := v.extractLsb' 3 5

/-! ### The operation codes (R79) -/

def opCompress : BitVec 3 := 1#3
def opDecompress : BitVec 3 := 2#3
def opEncode : BitVec 3 := 3#3
def opDecode : BitVec 3 := 4#3
def opPack : BitVec 3 := 5#3
def opUnpack : BitVec 3 := 6#3

/-! ### The decoder -/

/-- The instruction of a command word. Every word has one (R79, R82): a word with a reserved bit set is told by
the lowest such bit (log entry 12), and the rest by OP. -/
def decodeCmd (v : Byte) : Instr :=
  if v.getLsbD 3 then .reservedBit3 (opField v) (v.extractLsb' 4 4)
  else if v.getLsbD 4 then .reservedBit4 (opField v) (v.extractLsb' 5 3)
  else if v.getLsbD 5 then .reservedBit5 (opField v) (v.extractLsb' 6 2)
  else if v.getLsbD 6 then .reservedBit6 (opField v) (v.extractLsb' 7 1)
  else if v.getLsbD 7 then .reservedBit7 (opField v)
  else if opField v = opCompress then .compress
  else if opField v = opDecompress then .decompress
  else if opField v = opEncode then .encode
  else if opField v = opDecode then .decode
  else if opField v = opPack then .pack
  else if opField v = opUnpack then .unpack
  else if opField v = 0#3 then .reservedOp0
  else .reservedOp7

/-- The class of a code word, by its value alone: LIT first, then CLEAR, and REF is what is left (R72). -/
def decodeCode (c : Code) : Instr :=
  if c &&& 0xFF00#16 = 0x0000#16 then .lit (loByte c)
  else if c = clearCode then .clear
  else .ref c

/-- Why no instruction can be read from a list of bytes. -/
inductive DecodeError where
  /-- There is no byte at all. -/
  | noBytes
  /-- One byte of a code is there and its second is not (42_bit_packer.md R155 refuses such a buffer). -/
  | halfCode
deriving DecidableEq, Repr

/-- The decoder on bytes: the instruction at the head and the bytes after it. A CMD8 word is one byte (R78), a code
the two bytes of the PACKED format (R76). -/
def decode (f : Format) (bytes : List Byte) : Except DecodeError (Instr × List Byte) :=
  match f, bytes with
  | .cmd8, v :: rest => .ok (decodeCmd v, rest)
  | .code16, hi :: lo :: rest => .ok (decodeCode (joinBytes hi lo), rest)
  | .code16, [_] => .error .halfCode
  | _, [] => .error .noBytes

/-! ### The encoder -/

/-- The command word of an instruction of format CMD8; 0 for the code words, which have none. -/
def encodeCmd : Instr → Byte
  | .compress => 0#5 ++ opCompress
  | .decompress => 0#5 ++ opDecompress
  | .encode => 0#5 ++ opEncode
  | .decode => 0#5 ++ opDecode
  | .pack => 0#5 ++ opPack
  | .unpack => 0#5 ++ opUnpack
  | .reservedOp0 => 0#5 ++ 0#3
  | .reservedOp7 => 0#5 ++ 7#3
  | .reservedBit3 op upper => (upper ++ 1#1) ++ op
  | .reservedBit4 op upper => (upper ++ 2#2) ++ op
  | .reservedBit5 op upper => (upper ++ 4#3) ++ op
  | .reservedBit6 op upper => (upper ++ 8#4) ++ op
  | .reservedBit7 op => 16#5 ++ op
  | .lit _ | .clear | .ref _ => 0#8

/-- The code word of an instruction of format CODE16; 0 for the commands, which have none. -/
def encodeCode : Instr → Code
  | .lit b => litCode b
  | .clear => clearCode
  | .ref c => c
  | .compress | .decompress | .encode | .decode | .pack | .unpack
  | .reservedOp0 | .reservedOp7
  | .reservedBit3 _ _ | .reservedBit4 _ _ | .reservedBit5 _ _ | .reservedBit6 _ _ | .reservedBit7 _ => 0#16

/-- The bytes of an instruction, in the order they stand (R76, R78). -/
def encode (i : Instr) : List Byte :=
  match i.format with
  | .cmd8 => [encodeCmd i]
  | .code16 => [hiByte (encodeCode i), loByte (encodeCode i)]

/-! ### The opcode table's numbering -/

/-- The instruction the decoder reads from a word numbered as spec/opcode_table.json numbers it: a row of at most 8 bits
is a CMD8 word, a longer one a CODE16 word, stored high byte first (R56). -/
def decodeTableWord (nbits w : Nat) : Option Instr :=
  let r := if nbits ≤ 8 then decode .cmd8 [BitVec.ofNat 8 w]
           else decode .code16 [hiByte (BitVec.ofNat 16 w), loByte (BitVec.ofNat 16 w)]
  match r with
  | .ok (i, _) => some i
  | .error _ => none

end Sys2Proof
end

