-- ==== Sys2Proof/Machine/State.lean ====
section
/-! DEFINITION. The state of the block (10_state.md), the reasons a step of the model can stop, and the state after a
block reset (R41). Plain data throughout. -/

namespace Sys2Proof.Machine

/-! ### Value types -/

/-- `Str`: a non-empty byte string (R21), so its `head` always exists (00_scope.md R13). -/
structure Str where
  head : Byte
  tail : List Byte
deriving DecidableEq, Repr

/-- What a dictionary slot holds (R22). -/
inductive Entry where
  | data (s : Str)
  | reserved
  | absent
deriving DecidableEq, Repr

/-- A dictionary `Index -> Entry` as a sparse list: indices strictly rising, no Absent entry listed, an unlisted slot
is Absent (R23; 40_dictionary_builder.md R109 leaves the structure open; log entry 18). -/
abbrev Slots := List (Nat × Entry)

/-- The reverse index `Str -> Option Index`, one pair per key, in the order the keys came (R28; log entry 18). -/
abbrev RevIndex := List (Str × Nat)

/-- The match register (R25). -/
inductive Match where
  | empty
  | building (s : Str)
deriving DecidableEq, Repr

/-- A payload: a byte buffer or a code stream (30_encoding.md R79, R80). -/
inductive Payload where
  | bytes (b : List Byte)
  | codes (c : List Code)
deriving DecidableEq, Repr

/-- The two kinds of payload (30_encoding.md R79). -/
inductive Kind where
  | bytes
  | codes
deriving DecidableEq, Repr

/-! ### The units (R20) -/

/-- The encoder unit ENC (R26). -/
structure Enc where
  /-- ENC.D, the dictionary. -/
  D : Slots
  /-- ENC.L, the next free index. -/
  L : Nat
  /-- ENC.R, the reverse index. -/
  R : RevIndex
  /-- ENC.W, the match register. -/
  W : Match
deriving DecidableEq, Repr

/-- The decoder unit DEC (R30). -/
structure Dec where
  /-- DEC.D, the dictionary. -/
  D : Slots
  /-- DEC.L, the next free index. -/
  L : Nat
  /-- DEC.W, the match register. -/
  W : Match
deriving DecidableEq, Repr

/-- STATUS.STATE (R34). -/
inductive CmdState where
  | idle
  | busy
  | done
  | fault
deriving DecidableEq, Repr

/-- The names STATUS.CAUSE can take (60_exceptions.md R231). -/
inductive Cause where
  | none
  | malformedCode
  | misalignedStream
  | badCommand
  | limitExceeded
deriving DecidableEq, Repr

/-- CTL.PHASE (R32). -/
inductive Phase where
  | none
  | encode
  | pack
  | unpack
  | decode
deriving DecidableEq, Repr

/-- CTL.SRC (R32). -/
inductive Source where
  | input
  | mid
deriving DecidableEq, Repr

/-- CTL.SNK (R32). -/
inductive Sink where
  | mid
  | out
deriving DecidableEq, Repr

/-- The control unit CTL (R31 to R37). Positions and lengths are natural numbers (R10; log entry 9). -/
structure Ctl where
  state     : CmdState
  op        : BitVec 3
  cause     : Cause
  subcause  : BitVec 4
  faultPos  : Nat
  faultCode : Code
  faultLen  : BitVec 17
  outLen    : Nat
  /-- CTL.IN. -/
  input     : Payload
  /-- CTL.MID. -/
  mid       : List Code
  /-- CTL.OUT. -/
  out       : Payload
  pos       : Nat
  phase     : Phase
  src       : Source
  snk       : Sink
deriving DecidableEq, Repr

/-! ### The host's side (44_entry_points.md R218), the model's own (log entry 2) -/

/-- One turn: the host acts, or lets the engine take one step. -/
inductive HostAct where
  /-- The engine's turn. -/
  | run
  /-- The host writes a register; a write of register 0 offers a command with its payload (R200). -/
  | write (reg : Nat) (value : Byte) (payload : Payload)
  /-- The host reads a register (R218, poll). -/
  | read (reg : Nat)
  /-- The host asserts the block reset (70_reset_and_hazards.md R260). -/
  | blockReset
deriving DecidableEq, Repr

/-- The whole machine. `config`, `offered` and `host` are the model's own fields (log entries 9, 3 and 2). -/
structure State where
  /-- The open parameters of 00_scope.md R9; no step changes them. -/
  config  : Params
  ctl     : Ctl
  enc     : Enc
  dec     : Dec
  /-- The payload that travels with the command word now on register 0. -/
  offered : Payload
  /-- The turns still to come, first one first; when there is none, the engine runs. -/
  host    : List HostAct
deriving DecidableEq, Repr

/-! ### Why a step of the model can stop -/

/-- The stuck states. Each is a situation the spec gives no transition, or one a precondition of the spec rules out;
the block's own command faults are NEXT states (60_exceptions.md R238). All are safe: the machine stops where the
spec gives no effect. -/
inductive Fault where
  /-- A command offered while BUSY (44_entry_points.md R202). Raised by every command instruction. Safe (log entry 4). -/
  | commandWhileBusy
  /-- A command offered with a payload of the wrong kind, which 44_entry_points.md R203 says cannot be expressed. Raised by
  the six commands. Safe (log entry 3). -/
  | payloadKind
  /-- InNext where the source has no unit of the phase's kind at CTL.POS (44_entry_points.md R206's precondition). Raised by the
  engine's steps. Safe (log entry 17). -/
  | sourceUnit
  /-- OutWrite of a unit whose kind the sink does not hold (10_state.md R32). Raised by the engine's steps and the code
  instructions. Safe (log entry 17). -/
  | sinkKind
  /-- MISS, OVERFLOW or FLUSH with no code for the match: 10_state.md R29 and 41_encoder.md R125 rule it out. Raised by the encoder. Safe (log entry 17). -/
  | matchCode
  /-- DictRead of a slot that holds no Data: 40_dictionary_builder.md R103 rules it out. Raised by LIT and REF. Safe (log entry 17). -/
  | dictSlot
  /-- BUSY with CTL.PHASE = NONE, which no rule leaves behind (44_entry_points.md R204). Raised by the engine. Safe (log entry 17). -/
  | busyWithoutPhase
deriving DecidableEq, Repr

/-- The refusals. -/
inductive Refusal where
  /-- An instruction that has no meaning yet, by its mnemonic; only exec's own arms raise it, and none does. Safe. -/
  | notModelled (mnemonic : String)
deriving DecidableEq, Repr

/-! ### Reset -/

/-- The one-byte string `[b]`. -/
def Str.single (b : Byte) : Str := ⟨b, []⟩

/-- The 257 entries a Build leaves (40_dictionary_builder.md R100). -/
def baseSlots : Slots :=
  (List.range 256).map (fun i => (i, Entry.data (Str.single (BitVec.ofNat 8 i)))) ++ [(256, Entry.reserved)]

/-- The 256 one-byte keys a Build leaves (40_dictionary_builder.md R100). -/
def baseRev : RevIndex :=
  (List.range 256).map (fun i => (Str.single (BitVec.ofNat 8 i), i))

/-- CTL after a block reset (R41); `src`, `snk` and the payloads' kinds are DESIGN CHOICE (log entry 6). -/
def Ctl.reset : Ctl where
  state := .idle
  op := 0#3
  cause := .none
  subcause := 0#4
  faultPos := 0
  faultCode := 0#16
  faultLen := 0#17
  outLen := 0
  input := .bytes []
  mid := []
  out := .bytes []
  pos := 0
  phase := .none
  src := .input
  snk := .out

/-- ENC after a block reset: R41 leaves it unspecified; the baseline of Build is a DESIGN CHOICE (log entry 5). -/
def Enc.reset : Enc := ⟨baseSlots, Config.baseLen, baseRev, .empty⟩

/-- DEC after a block reset: R41 leaves it unspecified; the baseline of Build is a DESIGN CHOICE (log entry 5). -/
def Dec.reset : Dec := ⟨baseSlots, Config.baseLen, .empty⟩

/-- The machine right after a block reset (R41, 70_reset_and_hazards.md R260), with unbounded parameters and no host
action to come. -/
def State.reset : State where
  config := Params.unbounded
  ctl := Ctl.reset
  enc := Enc.reset
  dec := Dec.reset
  offered := .bytes []
  host := []

end Sys2Proof.Machine
end

