-- ==== Sys2Proof/Machine/Ops.lean ====
section
/-! DEFINITION. The shared operations: sequencing inside one step, the dictionary primitives of
40_dictionary_builder.md, taking a command fault (60_exceptions.md R238), and the two ways out of FAULT (R242). -/

namespace Sys2Proof.Machine

/-! ### Sequencing inside one step -/

/-- How a part of a step ends. -/
inductive Eff where
  /-- The rule goes on. -/
  | go (s : State)
  /-- `raise Fault` was performed: the rest of the step does not run (R238). -/
  | raised (s : State)
  /-- The model has no transition. -/
  | stuck (r : Fault)
deriving DecidableEq, Repr

/-- Run the rest of the rule, unless the step has ended. -/
def Eff.andThen (e : Eff) (k : State → Eff) : Eff :=
  match e with
  | .go s => k s
  | .raised s => .raised s
  | .stuck r => .stuck r

/-- A finished step: a command fault is a next state (R238). -/
def Eff.toOutcome (e : Eff) : Host.Outcome State Fault Refusal :=
  match e with
  | .go s => .next s
  | .raised s => .next s
  | .stuck r => .fault r

/-! ### Whole-field updates -/

def State.setCtl (s : State) (c : Ctl) : State := { s with ctl := c }
def State.setEnc (s : State) (e : Enc) : State := { s with enc := e }
def State.setDec (s : State) (d : Dec) : State := { s with dec := d }
def State.setHost (s : State) (h : List HostAct) : State := { s with host := h }
def State.setOffered (s : State) (p : Payload) : State := { s with offered := p }

/-! ### Updates of CTL's stream fields -/

def ctlSetPos (n : Nat) (c : Ctl) : Ctl := { c with pos := n }
def ctlSetOut (x : Payload) (c : Ctl) : Ctl := { c with out := x }
def ctlSetMid (x : List Code) (c : Ctl) : Ctl := { c with mid := x }

/-! ### Strings -/

/-- `s ++ [b]` (00_scope.md R13). -/
def strSnoc (s : Str) (b : Byte) : Str := ⟨s.head, s.tail ++ [b]⟩

/-- The bytes of a string, in order. -/
def strBytes (s : Str) : List Byte := s.head :: s.tail

/-! ### The dictionary's slots -/

/-- Slot `i`; an unlisted slot is Absent (10_state.md R24). -/
def slotRead (m : Slots) (i : Nat) : Entry :=
  match m with
  | [] => .absent
  | (j, e) :: t => if j = i then e else slotRead t i

/-- `U.D[i] <- e`, keeping the canonical form: Absent removes the entry. -/
def slotWrite (m : Slots) (i : Nat) (e : Entry) : Slots :=
  match m with
  | [] => if e = .absent then [] else [(i, e)]
  | (j, x) :: t =>
    if i < j then (if e = .absent then (j, x) :: t else (i, e) :: (j, x) :: t)
    else if i = j then (if e = .absent then t else (i, e) :: t)
    else (j, x) :: slotWrite t i e

/-- The canonical form: indices strictly rising, no Absent entry listed (log entry 18). -/
def slotsWf (m : Slots) : Bool :=
  match m with
  | [] => true
  | (i, e) :: t =>
    (e != .absent) && (match t with | [] => true | (j, _) :: _ => decide (i < j)) && slotsWf t

/-- The slots after a Build: 0 to 255 their own byte, 256 Reserved, the rest Absent (R100). -/
def slotBuild : Slots := baseSlots

/-! ### The reverse index -/

/-- `RevLookup(s)` (R105). -/
def revLookup (m : RevIndex) (s : Str) : Option Nat :=
  match m with
  | [] => none
  | (k, i) :: t => if k = s then some i else revLookup t s

/-- `ENC.R(s) <- some(i)` (R104). -/
def revPut (m : RevIndex) (s : Str) (i : Nat) : RevIndex :=
  match m with
  | [] => [(s, i)]
  | (k, j) :: t => if k = s then (k, i) :: t else (k, j) :: revPut t s i

/-- The keys after a Build: the 256 one-byte strings, each its own index (R100). -/
def revBuild : RevIndex := baseRev

/-! ### The dictionary primitives -/

/-- `Build(ENC)`: it does not write the match register (R100). -/
def encBuild (e : Enc) : Enc := { e with D := slotBuild, L := Config.baseLen, R := revBuild }

/-- `Build(DEC)`: it does not write the match register (R100). -/
def decBuild (d : Dec) : Dec := { d with D := slotBuild, L := Config.baseLen }

/-- `DictAppend(ENC, s)` (R104). -/
def encAppend (s : Str) (e : Enc) : Enc :=
  { e with D := slotWrite e.D e.L (.data s), R := revPut e.R s e.L, L := e.L + 1 }

/-- `DictAppend(DEC, s)` (R104). -/
def decAppend (s : Str) (d : Dec) : Dec :=
  { d with D := slotWrite d.D d.L (.data s), L := d.L + 1 }

/-! ### Taking a command fault (60_exceptions.md R238) -/

/-- No unit, of the kind given. -/
def emptyPayload (k : Kind) : Payload :=
  match k with
  | .bytes => .bytes []
  | .codes => .codes []

/-- The kind of a payload. -/
def payloadKind (p : Payload) : Kind :=
  match p with
  | .bytes _ => .bytes
  | .codes _ => .codes

/-- How many units a payload has. -/
def payloadLength (p : Payload) : Nat :=
  match p with
  | .bytes b => b.length
  | .codes c => c.length

/-- CTL after `raise Fault(cause, sub, pos, code, len)`: the record is written, the output discarded, the phase ended
(R238). The fields R238 does not name keep their values (log entry 19). -/
def ctlFault (cause : Cause) (sub : BitVec 4) (pos : Nat) (code : Code) (len : Nat) (c : Ctl) : Ctl :=
  { c with
    cause := cause
    subcause := sub
    faultPos := pos
    faultCode := code
    faultLen := BitVec.ofNat 17 len
    out := emptyPayload (payloadKind c.out)
    outLen := 0
    phase := .none
    state := .fault }

/-- `raise Fault(cause, sub, pos, code, len)` (R238). ENC, DEC and CTL.MID are unspecified from here on (10_state.md
R40); the model leaves them as they are, which R40 allows (log entry 7). -/
def raise (cause : Cause) (sub : BitVec 4) (pos : Nat) (code : Code) (len : Nat) (s : State) : Eff :=
  .raised (s.setCtl (ctlFault cause sub pos code len s.ctl))

/-! ### The ways out of FAULT: there is no return from it (R242) -/

/-- CTL after the assignments every acceptance makes before its checks (44_entry_points.md R201): the old result and
fault record go, the payload is captured, STATE becomes BUSY. `outKind` is the kind of the command's output payload. -/
def ctlAccept (op : BitVec 3) (outKind : Kind) (payload : Payload) (c : Ctl) : Ctl :=
  { c with
    op := op
    cause := .none
    subcause := 0#4
    faultPos := 0
    faultCode := 0#16
    faultLen := 0#17
    outLen := 0
    input := payload
    mid := []
    out := emptyPayload outKind
    state := .busy }

/-- `BlockReset()` (70_reset_and_hazards.md R260). The parameters are the machine's, not its state's, and the host's
turns still to come stay; ENC and DEC, unspecified here, take the values of State.reset (log entry 8). -/
def blockReset (s : State) : State :=
  { State.reset with config := s.config, host := s.host }

end Sys2Proof.Machine
end

