-- ==== Sys2Proof/Machine/Flags.lean ====
section
/-! DEFINITION. The status word. The block has no condition flags; its status fields are STATE, CAUSE and SUBCAUSE
(10_state.md R38), read together with OP as STATUS16 (R33). -/

namespace Sys2Proof.Machine

/-- STATUS[1:0] (R34). -/
def stateBits (s : CmdState) : BitVec 2 :=
  match s with
  | .idle => 0#2
  | .busy => 1#2
  | .done => 2#2
  | .fault => 3#2

/-- STATUS[7:4] (60_exceptions.md R231). -/
def causeBits (c : Cause) : BitVec 4 :=
  match c with
  | .none => 0#4
  | .malformedCode => 1#4
  | .misalignedStream => 2#4
  | .badCommand => 3#4
  | .limitExceeded => 4#4

/-- STATUS16: bit 15 and bits [3:2] read 0 (R33; 93_implementation_defined.md I10). -/
def statusWord (c : Ctl) : BitVec 16 :=
  ((((0#1 ++ c.op) ++ c.subcause) ++ causeBits c.cause) ++ 0#2) ++ stateBits c.state

/-- The CAUSE and SUBCAUSE pairs of 60_exceptions.md R231's table. -/
def causeListed (c : Cause) (sub : BitVec 4) : Bool :=
  match c with
  | .none => sub == 0#4
  | .malformedCode => sub == 1#4 || sub == 2#4 || sub == 3#4
  | .misalignedStream => sub == 0#4
  | .badCommand => sub == 0#4
  | .limitExceeded => sub == 1#4 || sub == 2#4

end Sys2Proof.Machine
end

