-- ==== Sys2Proof/Machine/Operands.lean ====
section
/-! DEFINITION. How a step reaches its operands: the stream primitives AtEnd, InNext and OutWrite (44_entry_points.md R206,
R207), the register file the host sees (10_state.md R33), and the response (R217). -/

namespace Sys2Proof.Machine

/-! ### Bounds -/

/-- `n > limit`, where an unbounded parameter is never passed (00_scope.md R9, 60_exceptions.md R236). -/
def exceeds (n : Nat) (limit : Option Nat) : Bool :=
  match limit with
  | none => false
  | some m => decide (m < n)

/-! ### Reading the phase's source (R206) -/

/-- `CTL.SRC`: CTL.IN or CTL.MID (10_state.md R32). -/
def sourcePayload (c : Ctl) : Payload :=
  match c.src with
  | .input => c.input
  | .mid => .codes c.mid

/-- `AtEnd()`. -/
def atEnd (c : Ctl) : Bool := decide (c.pos = payloadLength (sourcePayload c))

/-- The byte at position `p` of a payload of bytes. -/
def byteAt (p : Nat) (x : Payload) : Option Byte :=
  match x with
  | .bytes l => l[p]?
  | .codes _ => none

/-- The code at position `p` of a payload of codes. -/
def codeAt (p : Nat) (x : Payload) : Option Code :=
  match x with
  | .bytes _ => none
  | .codes l => l[p]?

/-- `CTL.POS <- CTL.POS + 1`. -/
def advance (s : State) : State := s.setCtl (ctlSetPos (s.ctl.pos + 1) s.ctl)

/-- `InNext()` for a phase that reads bytes; none where its precondition fails. -/
def inByte (s : State) : Option (Byte × State) :=
  match byteAt s.ctl.pos (sourcePayload s.ctl) with
  | none => none
  | some b => some (b, advance s)

/-- `InNext()` for a phase that reads codes; none where its precondition fails. -/
def inCode (s : State) : Option (Code × State) :=
  match codeAt s.ctl.pos (sourcePayload s.ctl) with
  | none => none
  | some c => some (c, advance s)

/-! ### Writing the phase's sink (R207) -/

/-- `OutWrite(b)` for a byte. CTL.MID holds codes only (10_state.md R32). -/
def outByte (b : Byte) (s : State) : Eff :=
  match s.ctl.snk with
  | .mid => .stuck .sinkKind
  | .out =>
    match s.ctl.out with
    | .codes _ => .stuck .sinkKind
    | .bytes l =>
      if exceeds (l.length + 1) s.config.maxOutUnits then raise .limitExceeded 2#4 l.length 0#16 0 s
      else .go (s.setCtl (ctlSetOut (.bytes (l ++ [b])) s.ctl))

/-- `OutWrite(c)` for a code. Writes to CTL.MID are not limited (60_exceptions.md R236). -/
def outCode (c : Code) (s : State) : Eff :=
  match s.ctl.snk with
  | .mid => .go (s.setCtl (ctlSetMid (s.ctl.mid ++ [c]) s.ctl))
  | .out =>
    match s.ctl.out with
    | .bytes _ => .stuck .sinkKind
    | .codes l =>
      if exceeds (l.length + 1) s.config.maxOutUnits then raise .limitExceeded 2#4 l.length 0#16 0 s
      else .go (s.setCtl (ctlSetOut (.codes (l ++ [c])) s.ctl))

/-- `OutWrite` of each byte in order, within one step (43_decoder.md). -/
def outBytes (bs : List Byte) (s : State) : Eff :=
  match bs with
  | [] => .go s
  | b :: rest => (outByte b s).andThen (outBytes rest)

/-- `OutWrite` of each code in order, within one step. -/
def outCodes (cs : List Code) (s : State) : Eff :=
  match cs with
  | [] => .go s
  | c :: rest => (outCode c s).andThen (outCodes rest)

/-! ### The host's reads -/

/-- What the host reads from a register: CMD reads as 0, and so does every number from 6 up (10_state.md R33). -/
def readReg (n : Nat) (s : State) : Nat :=
  match n with
  | 1 => (statusWord s.ctl).toNat
  | 2 => s.ctl.outLen
  | 3 => s.ctl.faultPos
  | 4 => s.ctl.faultCode.toNat
  | 5 => s.ctl.faultLen.toNat
  | _ => 0

/-- The payload of the response: CTL.OUT after DONE, none otherwise (44_entry_points.md R217, 20_memory.md R63). -/
def response (s : State) : Option Payload :=
  match s.ctl.state with
  | .done => some s.ctl.out
  | .idle | .busy | .fault => none

end Sys2Proof.Machine
end

