-- ==== Sys2Proof/Machine/Decoder.lean ====
section
/-! DEFINITION. The decoder (43_decoder.md): what one code does to the unit DEC and which bytes it emits, and the meanings
of the code instructions LIT, CLEAR and REF. Each runs on the state after DecStep's InNext (R171). -/

namespace Sys2Proof.Machine

/-- How one code ends at the unit DEC. -/
inductive DecRes where
  /-- The bytes written, in order, and the unit after. -/
  | emits (out : List Byte) (d : Dec)
  /-- MALFORMED_CODE with this subcause (60_exceptions.md R231). -/
  | malformed (sub : BitVec 4)
  /-- The model has no transition. -/
  | stuck (r : Fault)
deriving DecidableEq, Repr

/-- `DecStart`'s effect on DEC, and CLEAR's: a fresh generation and an empty match (R170, R172). -/
def decFresh (d : Dec) : Dec := { decBuild d with W := .empty }

/-- CLEAR (R172). -/
def decClear (d : Dec) : DecRes := .emits [] (decFresh d)

/-- START (R173). -/
def decStartCode (b : Byte) (d : Dec) : DecRes := .emits [b] { d with W := .building (Str.single b) }

/-- DIRECT (R177). -/
def decDirect (c : Code) (w : Str) (d : Dec) : DecRes :=
  match slotRead d.D c.toNat with
  | .data e => .emits (strBytes e) { decAppend (strSnoc w e.head) d with W := .building e }
  | .reserved => .stuck .dictSlot
  | .absent => .stuck .dictSlot

/-- WELCH: the entry is `w` followed by its own first byte (R178). -/
def decWelch (w : Str) (d : Dec) : DecRes :=
  .emits (strBytes (strSnoc w w.head))
    { decAppend (strSnoc w (strSnoc w w.head).head) d with W := .building (strSnoc w w.head) }

/-- The Building half of the dispatch, in R171's order: BEYOND_NEXT_FREE (R176), TABLE_FULL (R175), DIRECT, WELCH. -/
def decBuilding (c : Code) (w : Str) (d : Dec) : DecRes :=
  if d.L < c.toNat then .malformed 1#4
  else if d.L = Config.capacity then .malformed 3#4
  else if c.toNat < d.L then decDirect c w d
  else decWelch w d

/-- A literal code at the unit DEC: START or the Building half (R173, R177). -/
def decLit (b : Byte) (d : Dec) : DecRes :=
  match d.W with
  | .empty => decStartCode b d
  | .building w => decBuilding (litCode b) w d

/-- A reference code at the unit DEC: REF_WHILE_EMPTY or the Building half (R174, R176 to R178). -/
def decRef (c : Code) (d : Dec) : DecRes :=
  match d.W with
  | .empty => .malformed 2#4
  | .building w => decBuilding c w d

/-- The whole dispatch of `DecStep`, as R171 orders it. -/
def decDispatch (c : Code) (d : Dec) : DecRes :=
  if c = clearCode then decClear d
  else
    match d.W with
    | .empty => if c.toNat < Config.alphabet then decStartCode (loByte c) d else .malformed 2#4
    | .building w => decBuilding c w d

/-- Join one code's effect to the streams: write its bytes and then the unit, or raise MALFORMED_CODE at the code's
own position, `CTL.POS - 1` (43_decoder.md, 60_exceptions.md R239). -/
def decApply (c : Code) (r : DecRes) (s : State) : Eff :=
  match r with
  | .emits out d => (outBytes out s).andThen (fun s1 => .go (s1.setDec d))
  | .malformed sub => raise .malformedCode sub (s.ctl.pos - 1) c s.dec.L s
  | .stuck r => .stuck r

/-! ### The meanings -/

/-- LIT (R173, R175 to R177). -/
def execLit (b : Byte) (s : State) : Host.Outcome State Fault Refusal :=
  (decApply (litCode b) (decLit b s.dec) s).toOutcome

/-- CLEAR (R172). -/
def execClear (s : State) : Host.Outcome State Fault Refusal :=
  (decApply clearCode (decClear s.dec) s).toOutcome

/-- REF (30_encoding.md R73, 43_decoder.md R174 to R178). -/
def execRef (c : Code) (s : State) : Host.Outcome State Fault Refusal :=
  (decApply c (decRef c s.dec) s).toOutcome

end Sys2Proof.Machine
end

