-- ==== Sys2Proof/Machine/Encoder.lean ====
section
/-! DEFINITION. The greedy longest-match encoder (41_encoder.md): what one scan step does to the unit ENC and which codes
it emits, and the step that joins the two to the streams. -/

namespace Sys2Proof.Machine

/-- `EncStart`'s effect on ENC: a fresh generation and an empty match (R120). -/
def encStart (e : Enc) : Enc := { encBuild e with W := .empty }

/-- The candidate: `w` followed by `k` (R121). -/
def candidate (w : Match) (k : Byte) : Str :=
  match w with
  | .empty => Str.single k
  | .building s => strSnoc s k

/-- The code of the current match, as RevLookup gives it (R123, R124, R126); none where 10_state.md R29 or R125 fails. -/
def matchCode (e : Enc) : Option Code :=
  match e.W with
  | .empty => none
  | .building w =>
    match revLookup e.R w with
    | none => none
    | some i => some (BitVec.ofNat 16 i)

/-- EXTEND (R122). -/
def encExtend (cand : Str) (e : Enc) : Enc := { e with W := .building cand }

/-- MISS's effect on ENC (R123). -/
def encMiss (cand : Str) (k : Byte) (e : Enc) : Enc :=
  { encAppend cand e with W := .building (Str.single k) }

/-- OVERFLOW's effect on ENC (R124). -/
def encOverflow (e : Enc) : Enc := { encBuild e with W := .empty }

/-- One scan step on byte `k`: the codes emitted, in order, and the unit after it (R121 to R124). -/
def encUnit (k : Byte) (e : Enc) : Option (List Code × Enc) :=
  match revLookup e.R (candidate e.W k) with
  | some _ => some ([], encExtend (candidate e.W k) e)
  | none =>
    match matchCode e with
    | none => none
    | some c =>
      if e.L + 1 = Config.capacity then some ([c, litCode k, clearCode], encOverflow e)
      else some ([c], encMiss (candidate e.W k) k e)

/-- FLUSH: the codes emitted at end of input (R126). -/
def flushCodes (e : Enc) : Option (List Code) :=
  match e.W with
  | .empty => some []
  | .building _ =>
    match matchCode e with
    | none => none
    | some c => some [c]

/-- `EncStep()` (R121). -/
def encStep (s : State) : Eff :=
  match inByte s with
  | none => .stuck .sourceUnit
  | some (k, s1) =>
    match encUnit k s1.enc with
    | none => .stuck .matchCode
    | some (cs, e) => (outCodes cs s1).andThen (fun s2 => .go (s2.setEnc e))

/-- `EncFlush()` (R126). -/
def encFlush (s : State) : Eff :=
  match flushCodes s.enc with
  | none => .stuck .matchCode
  | some cs => outCodes cs s

end Sys2Proof.Machine
end

