-- ==== Sys2Proof/Machine/Packer.lean ====
section
/-! DEFINITION. The fixed-width bit packer and unpacker, in their step forms (42_bit_packer.md R151, R155, R156). -/

namespace Sys2Proof.Machine

/-- `PackStep()`: the high byte first (R151). -/
def packStep (s : State) : Eff :=
  match inCode s with
  | none => .stuck .sourceUnit
  | some (c, s1) => (outByte (hiByte c) s1).andThen (outByte (loByte c))

/-- `UnpackStart()`: the position goes to 0, and a source of odd length is refused (R155). -/
def unpackStart (s : State) : Eff :=
  let s1 := s.setCtl (ctlSetPos 0 s.ctl)
  if payloadLength (sourcePayload s.ctl) % 2 = 1 then
    raise .misalignedStream 0#4 (payloadLength (sourcePayload s.ctl)) 0#16 0 s1
  else .go s1

/-- `UnpackStep()` (R156). -/
def unpackStep (s : State) : Eff :=
  match inByte s with
  | none => .stuck .sourceUnit
  | some (hi, s1) =>
    match inByte s1 with
    | none => .stuck .sourceUnit
    | some (lo, s2) => outCode (joinBytes hi lo) s2

end Sys2Proof.Machine
end

