-- ==== Sys2Proof/Machine/Commands.lean ====
section
/-! DEFINITION. The command interface (44_entry_points.md): phase starts (R204), completion (R215), acceptance (R201), and the
meanings of the command instructions. A command instruction is its acceptance with the start of its first phase; the
engine's steps (Engine.lean) run the phases. -/

namespace Sys2Proof.Machine

/-! ### Phases -/

/-- `StartPhase(P)`'s own assignments (R204). -/
def enterPhase (p : Phase) (src : Source) (snk : Sink) (s : State) : State :=
  s.setCtl { s.ctl with phase := p, src := src, snk := snk }

/-- `CTL.POS <- 0`. -/
def rewind (s : State) : State := s.setCtl (ctlSetPos 0 s.ctl)

/-- `StartPhase(ENCODE)` with EncStart (R204, 41_encoder.md R120). -/
def startEncode (snk : Sink) (s : State) : Eff :=
  .go ((rewind (enterPhase .encode .input snk s)).setEnc (encStart s.enc))

/-- `StartPhase(PACK)` (R204). -/
def startPack (src : Source) (s : State) : Eff :=
  .go (rewind (enterPhase .pack src .out s))

/-- `StartPhase(UNPACK)` with UnpackStart (R204, 42_bit_packer.md R155). -/
def startUnpack (snk : Sink) (s : State) : Eff :=
  unpackStart (enterPhase .unpack .input snk s)

/-- `StartPhase(DECODE)` with DecStart (R204, 43_decoder.md R170). -/
def startDecode (src : Source) (s : State) : Eff :=
  .go ((rewind (enterPhase .decode src .out s)).setDec (decFresh s.dec))

/-- `Complete()` (R215). -/
def complete (s : State) : State :=
  s.setCtl { s.ctl with phase := .none, outLen := payloadLength s.ctl.out, state := .done }

/-- What follows the end of a phase: COMPRESS goes from ENCODE to PACK (R208), DECOMPRESS from UNPACK to DECODE (R209),
and every other phase is its command's last. -/
def phaseEnd (s : State) : Eff :=
  if s.ctl.op = opCompress ∧ s.ctl.phase = .encode then startPack .mid s
  else if s.ctl.op = opDecompress ∧ s.ctl.phase = .unpack then startDecode .mid s
  else .go (complete s)

/-! ### Acceptance -/

/-- `Accept` for a defined command (R201): the payload has the command's kind (R203), the old result goes, an input over
the bound is refused, and the first phase starts. -/
def accept (op : BitVec 3) (inKind outKind : Kind) (start : State → Eff) (s : State) : Eff :=
  if s.ctl.state = .busy then .stuck .commandWhileBusy
  else if payloadKind s.offered ≠ inKind then .stuck .payloadKind
  else
    let s1 := s.setCtl (ctlAccept op outKind s.offered s.ctl)
    if exceeds (payloadLength s.offered) s.config.maxInUnits then
      raise .limitExceeded 1#4 (payloadLength s.offered) 0#16 0 s1
    else start s1

/-- `Accept` for a reserved command word, with a payload of any kind (R201, 30_encoding.md R82). -/
def acceptReserved (op : BitVec 3) (s : State) : Eff :=
  if s.ctl.state = .busy then .stuck .commandWhileBusy
  else raise .badCommand 0#4 0 0#16 0 (s.setCtl (ctlAccept op .bytes s.offered s.ctl))

/-! ### The meanings of the six commands -/

/-- COMPRESS (R208). -/
def execCompress (s : State) : Host.Outcome State Fault Refusal :=
  (accept opCompress .bytes .bytes (startEncode .mid) s).toOutcome

/-- DECOMPRESS (R209). -/
def execDecompress (s : State) : Host.Outcome State Fault Refusal :=
  (accept opDecompress .bytes .bytes (startUnpack .mid) s).toOutcome

/-- ENCODE (R210). -/
def execEncode (s : State) : Host.Outcome State Fault Refusal :=
  (accept opEncode .bytes .codes (startEncode .out) s).toOutcome

/-- DECODE (R211). -/
def execDecode (s : State) : Host.Outcome State Fault Refusal :=
  (accept opDecode .codes .bytes (startDecode .input) s).toOutcome

/-- PACK (R212). -/
def execPack (s : State) : Host.Outcome State Fault Refusal :=
  (accept opPack .codes .bytes (startPack .input) s).toOutcome

/-- UNPACK (R213). -/
def execUnpack (s : State) : Host.Outcome State Fault Refusal :=
  (accept opUnpack .bytes .codes (startUnpack .out) s).toOutcome

end Sys2Proof.Machine
end

