-- ==== Sys2Proof/Machine/Reserved.lean ====
section
/-! DEFINITION. The meanings of the reserved command words: each is accepted and ends at once in BAD_COMMAND, with
STATUS.OP showing the rejected CMD[2:0] (30_encoding.md R82, 60_exceptions.md R234). -/

namespace Sys2Proof.Machine

/-- OP = 0. -/
def execReservedOp0 (s : State) : Host.Outcome State Fault Refusal := (acceptReserved 0#3 s).toOutcome

/-- OP = 7. -/
def execReservedOp7 (s : State) : Host.Outcome State Fault Refusal := (acceptReserved 7#3 s).toOutcome

/-- Bit 3 set, whatever OP is. -/
def execReservedBit3 (op : BitVec 3) (s : State) : Host.Outcome State Fault Refusal := (acceptReserved op s).toOutcome

/-- Bit 4 set, whatever OP is. -/
def execReservedBit4 (op : BitVec 3) (s : State) : Host.Outcome State Fault Refusal := (acceptReserved op s).toOutcome

/-- Bit 5 set, whatever OP is. -/
def execReservedBit5 (op : BitVec 3) (s : State) : Host.Outcome State Fault Refusal := (acceptReserved op s).toOutcome

/-- Bit 6 set, whatever OP is. -/
def execReservedBit6 (op : BitVec 3) (s : State) : Host.Outcome State Fault Refusal := (acceptReserved op s).toOutcome

/-- Bit 7 set, whatever OP is. -/
def execReservedBit7 (op : BitVec 3) (s : State) : Host.Outcome State Fault Refusal := (acceptReserved op s).toOutcome

end Sys2Proof.Machine
end

