-- ==== Sys2Proof/Machine/Dispatch.lean ====
section
/-! DEFINITION. One arm per constructor of Instr. -/

namespace Sys2Proof.Machine

/-- The meaning of an instruction. A command instruction runs on a state whose `offered` is its payload; a code
instruction runs on the state after DecStep's InNext. -/
def exec (i : Instr) (s : State) : Host.Outcome State Fault Refusal :=
  match i with
  | .compress => Sys2Proof.Machine.execCompress s
  | .decompress => Sys2Proof.Machine.execDecompress s
  | .encode => Sys2Proof.Machine.execEncode s
  | .decode => Sys2Proof.Machine.execDecode s
  | .pack => Sys2Proof.Machine.execPack s
  | .unpack => Sys2Proof.Machine.execUnpack s
  | .reservedOp0 => Sys2Proof.Machine.execReservedOp0 s
  | .reservedOp7 => Sys2Proof.Machine.execReservedOp7 s
  | .reservedBit3 op _ => Sys2Proof.Machine.execReservedBit3 op s
  | .reservedBit4 op _ => Sys2Proof.Machine.execReservedBit4 op s
  | .reservedBit5 op _ => Sys2Proof.Machine.execReservedBit5 op s
  | .reservedBit6 op _ => Sys2Proof.Machine.execReservedBit6 op s
  | .reservedBit7 op => Sys2Proof.Machine.execReservedBit7 op s
  | .lit b => Sys2Proof.Machine.execLit b s
  | .clear => Sys2Proof.Machine.execClear s
  | .ref c => Sys2Proof.Machine.execRef c s

end Sys2Proof.Machine
end

