-- ==== Sys2Proof/Machine/Engine.lean ====
section
/-! DEFINITION. One turn of the engine (44_entry_points.md R204), and one turn of the host (R218). -/

namespace Sys2Proof.Machine

/-! ### The engine -/

/-- The ENCODE phase: EncStep, or at the end EncFlush and what follows the phase. -/
def runEncode (s : State) : Host.Outcome State Fault Refusal :=
  if atEnd s.ctl then ((encFlush s).andThen phaseEnd).toOutcome else (encStep s).toOutcome

/-- The PACK phase. -/
def runPack (s : State) : Host.Outcome State Fault Refusal :=
  if atEnd s.ctl then (phaseEnd s).toOutcome else (packStep s).toOutcome

/-- The UNPACK phase. -/
def runUnpack (s : State) : Host.Outcome State Fault Refusal :=
  if atEnd s.ctl then (phaseEnd s).toOutcome else (unpackStep s).toOutcome

/-- The DECODE phase: DecStep fetches one code, decodes it and runs its instruction (43_decoder.md R171). -/
def runDecode (s : State) : Host.Outcome State Fault Refusal :=
  if atEnd s.ctl then (phaseEnd s).toOutcome
  else
    match inCode s with
    | none => .fault .sourceUnit
    | some (c, s1) => exec (decodeCode c) s1

/-- One turn of the engine. Outside BUSY no step runs and nothing changes (60_exceptions.md R249; log entry 14). -/
def engine (s : State) : Host.Outcome State Fault Refusal :=
  match s.ctl.state with
  | .busy =>
    match s.ctl.phase with
    | .none => .fault .busyWithoutPhase
    | .encode => runEncode s
    | .pack => runPack s
    | .unpack => runUnpack s
    | .decode => runDecode s
  | .idle | .done | .fault => .next s

/-! ### The host -/

/-- The host writes a register. A write of register 0 offers a command (R200); every other register is read-only or
reserved, and a write to it changes nothing (10_state.md R33; log entry 13). -/
def hostWrite (reg : Nat) (value : Byte) (payload : Payload) (s : State) : Host.Outcome State Fault Refusal :=
  if reg = 0 then exec (decodeCmd value) (s.setOffered payload) else .next s

/-- One turn of the host. A read changes nothing (20_memory.md R62); `readReg` says what it returns. -/
def hostTurn (a : HostAct) (s : State) : Host.Outcome State Fault Refusal :=
  match a with
  | .run => engine s
  | .write reg value payload => hostWrite reg value payload s
  | .read _ => .next s
  | .blockReset => .next (blockReset s)

/-! ### Placing one instruction where the next step runs it -/

/-- The kind of payload a command word carries (30_encoding.md R79); a reserved word's is of any kind. -/
def inputKind (v : Byte) : Kind :=
  if opField v = opDecode ∨ opField v = opPack then .codes else .bytes

/-- The host offers the command word `v` next, with no payload units, to a block that is not BUSY. -/
def placeCommand (v : Byte) (s : State) : State :=
  { s with
    host := .write 0 v (emptyPayload (inputKind v)) :: s.host
    ctl := if s.ctl.state = .busy then { s.ctl with state := .idle } else s.ctl }

/-- The engine runs next, in the DECODE phase of a DECODE command whose stream is the one code `c`. DEC stays as it is. -/
def placeCode (c : Code) (s : State) : State :=
  { s with
    host := .run :: s.host
    ctl := { s.ctl with
      state := .busy
      op := opDecode
      phase := .decode
      input := .codes [c]
      src := .input
      snk := .out
      out := .bytes []
      pos := 0 } }

end Sys2Proof.Machine
end

