-- ==== Sys2Proof/Machine/Step.lean ====
section
/-! DEFINITION. One step of the machine: the next turn of State.host, or the engine's when there is none. -/

namespace Sys2Proof.Machine

/-- One step. -/
def step (s : State) : Host.Outcome State Fault Refusal :=
  match s.host with
  | [] => engine s
  | a :: rest => hostTurn a (s.setHost rest)

/-- `s` with one instruction word placed where the next step runs it (log entry 16): a word of at most 8 bits as the
command the host offers next, a longer one as the code the DECODE phase reads next. -/
def State.withFetchWord (s : State) (nbits w : Nat) : State :=
  if nbits ≤ 8 then placeCommand (BitVec.ofNat 8 w) s else placeCode (BitVec.ofNat 16 w) s

end Sys2Proof.Machine
end

