-- ==== Sys2Proof/Machine/Summary.lean ====
section
/-! DEFINITION. The functional summary of the six commands (44_entry_points.md R219): what a command's outcome is, as a
function of its command word and its payload. The packer and unpacker stand in their normative bit-string form
(42_bit_packer.md R150, R154), not in the step form the machine runs. No step calls these definitions. -/

namespace Sys2Proof.Machine

/-! ### Bit strings (00_scope.md R12) -/

/-- `bin_n(v)`, most significant bit first. -/
def binStr {n : Nat} (v : BitVec n) : List Bool := (List.range n).map (fun i => v.getMsbD i)

/-- `val(t)`. -/
def bitVal (t : List Bool) : Nat := t.foldl (fun a b => 2 * a + b.toNat) 0

/-- `t[i .. j)` (00_scope.md R13). -/
def bitSlice (t : List Bool) (i j : Nat) : List Bool := (t.drop i).take (j - i)

/-- `Pack(cs)`, the normative definition, its trailing remainder included (R150). -/
def packBits (cs : List Code) : List Byte :=
  let t := cs.flatMap binStr
  (List.range (t.length / 8)).map (fun j => BitVec.ofNat 8 (bitVal (bitSlice t (8 * j) (8 * j + 8)))) ++
    (if t.length % 8 ≠ 0 then [BitVec.ofNat 8 (bitVal (bitSlice t (8 * (t.length / 8)) t.length))] else [])

/-- `Unpack(B)` for a buffer of even length (R154). -/
def unpackBits (bs : List Byte) : List Code :=
  let t := bs.flatMap binStr
  (List.range (bs.length / 2)).map (fun j => BitVec.ofNat 16 (bitVal (bitSlice t (16 * j) (16 * j + 16))))

/-! ### The encoder and the decoder over a whole stream -/

/-- The codes a scan of `ks` emits from the unit `e`, FLUSH included (41_encoder.md R121 to R126). -/
def encodeFrom (e : Enc) (ks : List Byte) : Option (List Code) :=
  match ks with
  | [] => flushCodes e
  | k :: rest =>
    match encUnit k e with
    | none => none
    | some (cs, e1) => (encodeFrom e1 rest).map (fun out => cs ++ out)

/-- The fault record a host reads (10_state.md R36). -/
structure FaultRecord where
  cause : Cause
  sub   : BitVec 4
  pos   : Nat
  code  : Code
  len   : Nat
deriving DecidableEq, Repr

/-- The bytes a decode of `cs` writes from the unit `d`, the first code standing at position `p`, and the fault that
ends it, if one does (43_decoder.md R171 to R180); none where the model has no transition. -/
def decodeFrom (d : Dec) (p : Nat) (cs : List Code) : Option (List Byte × Option FaultRecord) :=
  match cs with
  | [] => some ([], none)
  | c :: rest =>
    match decDispatch c d with
    | .emits out d1 => (decodeFrom d1 (p + 1) rest).map (fun r => (out ++ r.1, r.2))
    | .malformed sub => some ([], some ⟨.malformedCode, sub, p, c, d.L⟩)
    | .stuck _ => none

/-- `Encode(S)`: a fresh generation, then the scan (R120). -/
def encodeAll (ks : List Byte) : Option (List Code) := encodeFrom Enc.reset ks

/-- `Decode(cs)`: a fresh generation, then the codes (R170). -/
def decodeAll (cs : List Code) : Option (List Byte × Option FaultRecord) := decodeFrom Dec.reset 0 cs

/-- DEC after it takes the codes `cs`, one DecStep each, from `d` (43_decoder.md R171); none where one of them faults. -/
def decAfter (d : Dec) (cs : List Code) : Option Dec :=
  match cs with
  | [] => some d
  | c :: rest =>
    match decDispatch c d with
    | .emits _ d1 => decAfter d1 rest
    | .malformed _ => none
    | .stuck _ => none

/-- The two units side by side: ENC after it scans the bytes `ks` from `e`, and DEC after it takes, from `d`, the codes that
scan has emitted (43_decoder.md R182, R183). -/
def unitsAfter (e : Enc) (d : Dec) (ks : List Byte) : Option (Enc × Dec) :=
  match ks with
  | [] => some (e, d)
  | k :: rest =>
    match encUnit k e with
    | none => none
    | some (cs, e1) =>
      match decAfter d cs with
      | none => none
      | some d1 => unitsAfter e1 d1 rest

/-! ### The summary -/

/-- How a command ends. -/
inductive CmdResult where
  | done (out : Payload)
  | faulted (r : FaultRecord)
deriving DecidableEq, Repr

/-- The end of a command whose last phase writes `out` and then meets `fault`: the bound on CTL.OUT is passed first when
`out` is longer than it (44_entry_points.md R207, 60_exceptions.md R240). -/
def finish (limit : Option Nat) (out : Payload) (fault : Option FaultRecord) : CmdResult :=
  match limit, fault with
  | none, none => .done out
  | none, some r => .faulted r
  | some m, f =>
    if m < payloadLength out then .faulted ⟨.limitExceeded, 2#4, m, 0#16, 0⟩
    else match f with
      | none => .done out
      | some r => .faulted r

/-- The refusal of a buffer of odd length (42_bit_packer.md R155). -/
def misaligned (n : Nat) : FaultRecord := ⟨.misalignedStream, 0#4, n, 0#16, 0⟩

/-- `Run(cmd, in)` (R219); none for a payload of the wrong kind, which cannot be expressed (R203). -/
def runSpec (p : Params) (v : Byte) (x : Payload) : Option CmdResult :=
  if reservedField v ≠ 0#5 ∨ opField v = 0#3 ∨ opField v = 7#3 then
    some (.faulted ⟨.badCommand, 0#4, 0, 0#16, 0⟩)
  else if payloadKind x ≠ inputKind v then none
  else if exceeds (payloadLength x) p.maxInUnits then
    some (.faulted ⟨.limitExceeded, 1#4, payloadLength x, 0#16, 0⟩)
  else
    match x with
    | .bytes b =>
      if opField v = opCompress then
        (encodeAll b).map (fun cs => finish p.maxOutUnits (.bytes (packBits cs)) none)
      else if opField v = opEncode then
        (encodeAll b).map (fun cs => finish p.maxOutUnits (.codes cs) none)
      else if b.length % 2 = 1 then some (.faulted (misaligned b.length))
      else if opField v = opUnpack then some (finish p.maxOutUnits (.codes (unpackBits b)) none)
      else (decodeAll (unpackBits b)).map (fun r => finish p.maxOutUnits (.bytes r.1) r.2)
    | .codes c =>
      if opField v = opPack then some (finish p.maxOutUnits (.bytes (packBits c)) none)
      else (decodeAll c).map (fun r => finish p.maxOutUnits (.bytes r.1) r.2)

/-- What the host learns once a command has ended: the response or the fault record (R217); none while it has not. -/
def resultOf (s : State) : Option CmdResult :=
  match s.ctl.state with
  | .done => some (.done s.ctl.out)
  | .fault => some (.faulted ⟨s.ctl.cause, s.ctl.subcause, s.ctl.faultPos, s.ctl.faultCode, s.ctl.faultLen.toNat⟩)
  | .idle | .busy => none

/-- The progress event the block may deliver after the step from `s` to `t`: an EncStep or a DecStep that went through, with
the phase and the position after it (44_entry_points.md R214). No step reads it, and whether it is delivered is open
(93_implementation_defined.md I3; log entry 11). -/
def progressEvent (s t : State) : Option (Phase × Nat) :=
  if s.ctl.state = .busy ∧ t.ctl.state = .busy ∧ t.ctl.phase = s.ctl.phase ∧
      (s.ctl.phase = .encode ∨ s.ctl.phase = .decode) ∧ t.ctl.pos = s.ctl.pos + 1 then
    some (t.ctl.phase, t.ctl.pos)
  else none

/-! ### Running -/

/-- The state with the host offering one command and nothing after it. -/
def offerOne (v : Byte) (x : Payload) (s : State) : State := s.setHost [.write 0 v x]

/-- `n` steps of the machine. -/
def runSteps (n : Nat) (s : State) : Host.Outcome State Fault Refusal := Sys2Proof.core.run n s

end Sys2Proof.Machine
end

