-- ==== Sys2Proof/Safety.lean ====
section
/-! DEFINITION. What a safe run is: the invariants of the spec between steps (10_state.md R24 to R30, R35 to R37, R43), and
the host's side of the contract (44_entry_points.md R218). -/

namespace Sys2Proof.Machine

/-- The generation invariant R24, with the canonical form of the list that holds the slots (log entry 18). -/
structure DictInv (D : Slots) (L : Nat) : Prop where
  canonical : slotsWf D = true
  literal : ∀ i, i < 256 → slotRead D i = .data (Str.single (BitVec.ofNat 8 i))
  clearSlot : slotRead D 256 = .reserved
  appended : ∀ i, 257 ≤ i → i < L → ∃ s, slotRead D i = .data s
  unused : ∀ i, L ≤ i → slotRead D i = .absent
  baseLe : Config.baseLen ≤ L
  leCapacity : L ≤ Config.capacity

/-- R43: every appended entry is an earlier Data entry with one byte more. -/
def PrefixClosed (D : Slots) (L : Nat) : Prop :=
  ∀ i, 257 ≤ i → i < L → ∃ j p b, j < i ∧ j ≠ 256 ∧ slotRead D j = .data p ∧ slotRead D i = .data (strSnoc p b)

/-- The invariant of ENC: R24, R27, R28, R29, R43. -/
structure EncInv (e : Enc) : Prop where
  dict : DictInv e.D e.L
  belowCapacity : e.L < Config.capacity
  inverse : ∀ s i, revLookup e.R s = some i ↔ i < e.L ∧ i ≠ 256 ∧ slotRead e.D i = .data s
  matchKnown : ∀ w, e.W = .building w → revLookup e.R w ≠ none
  prefixes : PrefixClosed e.D e.L

/-- The invariant of DEC: R24, R30, R43, and R174's remark that the match is Empty only in a fresh generation. -/
structure DecInv (d : Dec) : Prop where
  dict : DictInv d.D d.L
  matchStored : ∀ w, d.W = .building w → ∃ i, i < d.L ∧ slotRead d.D i = .data w
  emptyFresh : d.W = .empty → d.L = Config.baseLen
  prefixes : PrefixClosed d.D d.L

/-- The kind of a command's input payload, by OP (30_encoding.md R79). -/
def inKindOf (op : BitVec 3) : Kind := if op = opDecode ∨ op = opPack then .codes else .bytes

/-- The kind of a command's output payload, by OP (30_encoding.md R79). -/
def outKindOf (op : BitVec 3) : Kind := if op = opEncode ∨ op = opUnpack then .codes else .bytes

/-- Which phase a command can be in, and with which source and sink (44_entry_points.md R208 to R213). -/
def phaseLegal (op : BitVec 3) (p : Phase) (src : Source) (snk : Sink) : Bool :=
  (op == opCompress && p == .encode && src == .input && snk == .mid) ||
  (op == opCompress && p == .pack && src == .mid && snk == .out) ||
  (op == opDecompress && p == .unpack && src == .input && snk == .mid) ||
  (op == opDecompress && p == .decode && src == .mid && snk == .out) ||
  (op == opEncode && p == .encode && src == .input && snk == .out) ||
  (op == opDecode && p == .decode && src == .input && snk == .out) ||
  (op == opPack && p == .pack && src == .input && snk == .out) ||
  (op == opUnpack && p == .unpack && src == .input && snk == .out)

/-- The invariant of CTL while a command executes: its phase is one of its own (R208 to R213), its payloads have the kinds
of R32, and the position lies in the source (R31), at an even offset in an UNPACK phase (R155, R156). -/
structure BusyInv (c : Ctl) : Prop where
  legal : phaseLegal c.op c.phase c.src c.snk = true
  inKind : payloadKind c.input = inKindOf c.op
  outKind : payloadKind c.out = outKindOf c.op
  posLe : c.pos ≤ payloadLength (sourcePayload c)
  pairs : c.phase = .unpack → payloadLength (sourcePayload c) % 2 = 0 ∧ c.pos % 2 = 0

/-- The invariant of CTL's status fields: R35, R36, R37, R231, R238, R215. -/
structure StatusInv (c : Ctl) : Prop where
  phaseNone : c.state ≠ .busy → c.phase = .none
  listed : causeListed c.cause c.subcause = true
  noFault : c.state ≠ .fault →
    c.cause = .none ∧ c.subcause = 0#4 ∧ c.faultPos = 0 ∧ c.faultCode = 0#16 ∧ c.faultLen = 0#17
  isFault : c.state = .fault → c.cause ≠ .none ∧ payloadLength c.out = 0
  outLen : c.outLen = if c.state = .done then payloadLength c.out else 0
  faultLenRange : c.faultLen.toNat = 0 ∨ (257 ≤ c.faultLen.toNat ∧ c.faultLen.toNat ≤ 65536)
  doneKind : c.state = .done → payloadKind c.out = outKindOf c.op

/-- The machine's invariant between steps. -/
structure Inv (s : State) : Prop where
  enc : EncInv s.enc
  dec : DecInv s.dec
  busy : s.ctl.state = .busy → BusyInv s.ctl
  status : StatusInv s.ctl

/-- The host keeps its contract in the next turn (R202, R203, R218): it offers a command only when STATE is not BUSY, and
with a payload of the kind its OP gives. -/
def HostKeepsContract (s : State) : Prop :=
  ∀ v x rest, s.host = .write 0 v x :: rest →
    s.ctl.state ≠ .busy ∧
      (reservedField v = 0#5 → opField v ≠ 0#3 → opField v ≠ 7#3 → payloadKind x = inputKind v)

/-- The command's last step has been taken (R216, R249). -/
def Quiescent (s : State) : Prop := s.ctl.state ≠ .busy

/-- The engine's turn comes next in `s0`, and `s` is the state it starts from: no turn of the host is left, or the host's
next turn lets the engine run (44_entry_points.md R218; log entry 2). -/
abbrev EngineTurn (s0 s : State) : Prop := (s.host = [] ∧ s0 = s) ∨ s0 = s.setHost (.run :: s.host)

/-- Table agreement (43_decoder.md R183): every slot DEC holds from 257 up is the entry ENC appended at that index. ENC's
slots from 257 up are the entries appended since its last Build, so both tables are of one generation. -/
def TablesAgree (e : Enc) (d : Dec) : Prop :=
  ∀ i, 257 ≤ i → i < d.L → ∃ s, slotRead d.D i = .data s ∧ slotRead e.D i = .data s

/-- The lag law (43_decoder.md R182): before a generation's first code both units are fresh, and from then on DEC's table is
one entry behind ENC's. -/
def Lags (e : Enc) (d : Dec) : Prop := (d.W = .empty ∧ d.L = 257 ∧ e.L = 257) ∨ e.L = d.L + 1

/-- The round trip at the units (43_decoder.md R186): the input encodes, and its codes decode to it, straight or through the
packed buffer. -/
def RoundTrips (ks : List Byte) : Prop :=
  ∃ cs, encodeAll ks = some cs ∧ decodeAll cs = some (ks, none) ∧ decodeAll (unpackBits (packBits cs)) = some (ks, none)

/-- How many codes stand between the two phases of a command (10_state.md R32): the ENCODE output of COMPRESS, the UNPACK
output of DECOMPRESS. -/
def midLength (v : Byte) (x : Payload) : Nat :=
  match x with
  | .bytes b =>
    if opField v = opCompress then ((encodeAll b).getD []).length
    else if opField v = opDecompress then (unpackBits b).length
    else 0
  | .codes _ => 0

/-- How many steps a command takes at most after its acceptance: one for each unit of its input, one for each code
between its phases, and one end action for each phase (44_entry_points.md R216, R221). -/
def stepBound (v : Byte) (x : Payload) : Nat := payloadLength x + midLength v x + 2

/-- Offered to the state `s`, with no other host action to come, the command word `v` with payload `x` is accepted and ends
with the result `r` (44_entry_points.md R216, R217). The run has at least the acceptance step in it. -/
def EndsAs (s : State) (v : Byte) (x : Payload) (r : CmdResult) : Prop :=
  ∃ k t, runSteps (k + 1) (offerOne v x s) = .next t ∧ resultOf t = some r ∧ t.ctl.op = opField v

end Sys2Proof.Machine
end

