-- ==== Sys2Proof/Certificates/Slice0/Obligations.lean ====
section
/-! DEFINITION. The statements for the provers. Each docstring names the rule of spec/ it formalises, or says that it is
derived, and names the log entry where a clause rests on a choice of the model. -/

open Sys2Proof Sys2Proof.Machine

/-! ### Reset -/

/-- Derived from the reset table of 10_state.md section 10, CTL's rows: every field of CTL that the table names, and every
register the host reads. Of SRC, SNK, ENC and DEC, which the table leaves open, nothing is said. -/
def Obligations.ResetValues : Prop :=
  State.reset.ctl.state = .idle ∧ State.reset.ctl.op = 0#3 ∧
  State.reset.ctl.cause = .none ∧ State.reset.ctl.subcause = 0#4 ∧
  State.reset.ctl.faultPos = 0 ∧ State.reset.ctl.faultCode = 0#16 ∧ State.reset.ctl.faultLen = 0#17 ∧
  State.reset.ctl.outLen = 0 ∧
  payloadLength State.reset.ctl.input = 0 ∧ State.reset.ctl.mid = [] ∧ payloadLength State.reset.ctl.out = 0 ∧
  State.reset.ctl.pos = 0 ∧ State.reset.ctl.phase = .none ∧
  (∀ n, readReg n State.reset = 0)

/-- R260: a block reset applies R41's values to CTL, at any time, whatever the block was doing; a command under way leaves
no output, no fault record and no trace in any register. -/
def Obligations.BlockResetAbandons : Prop :=
  ∀ (s : State) (rest : List HostAct), s.host = .blockReset :: rest →
    ∃ t, step s = .next t ∧
      t.ctl.state = .idle ∧ t.ctl.op = 0#3 ∧ t.ctl.cause = .none ∧ t.ctl.subcause = 0#4 ∧
      t.ctl.faultPos = 0 ∧ t.ctl.faultCode = 0#16 ∧ t.ctl.faultLen = 0#17 ∧ t.ctl.outLen = 0 ∧
      payloadLength t.ctl.input = 0 ∧ t.ctl.mid = [] ∧ payloadLength t.ctl.out = 0 ∧
      t.ctl.pos = 0 ∧ t.ctl.phase = .none ∧
      (∀ n, readReg n t = 0) ∧ response t = none ∧ resultOf t = none ∧
      t.config = s.config ∧ t.host = rest

/-! ### Encodings -/

/-- Derived from 30_encoding.md (the OP table, the code classes, the packed layout): a few words written out. A word with
several reserved bits set is named by the lowest of them (log entry 12, DESIGN CHOICE). -/
def Obligations.DecodesWords : Prop :=
  decode .cmd8 [0b00000001#8] = .ok (.compress, []) ∧
  decode .cmd8 [0b00000010#8] = .ok (.decompress, []) ∧
  decode .cmd8 [0b00000011#8] = .ok (.encode, []) ∧
  decode .cmd8 [0b00000100#8] = .ok (.decode, []) ∧
  decode .cmd8 [0b00000101#8] = .ok (.pack, []) ∧
  decode .cmd8 [0b00000110#8] = .ok (.unpack, []) ∧
  decode .cmd8 [0b00000000#8] = .ok (.reservedOp0, []) ∧
  decode .cmd8 [0b00000111#8] = .ok (.reservedOp7, []) ∧
  decode .cmd8 [0b00001001#8] = .ok (.reservedBit3 1#3 0#4, []) ∧
  decode .cmd8 [0b00010000#8] = .ok (.reservedBit4 0#3 0#3, []) ∧
  decode .cmd8 [0b00100110#8] = .ok (.reservedBit5 6#3 0#2, []) ∧
  decode .cmd8 [0b01000010#8] = .ok (.reservedBit6 2#3 0#1, []) ∧
  decode .cmd8 [0b10000011#8] = .ok (.reservedBit7 3#3, []) ∧
  decode .cmd8 [0b11111111#8] = .ok (.reservedBit3 7#3 15#4, []) ∧
  decode .code16 [0b00000000#8, 0b01100001#8] = .ok (.lit 97#8, []) ∧
  decode .code16 [0b00000000#8, 0b11111111#8] = .ok (.lit 255#8, []) ∧
  decode .code16 [0b00000001#8, 0b00000000#8] = .ok (.clear, []) ∧
  decode .code16 [0b00000001#8, 0b00000001#8] = .ok (.ref 257#16, []) ∧
  decode .code16 [0b11111111#8, 0b11111111#8] = .ok (.ref 65535#16, [])

/-- Derived from 30_encoding.md sections 1 and 3: for every well-formed instruction, the decoder reads it back from its own
bytes, whatever bytes follow. -/
def Obligations.DecodeOfEncode : Prop :=
  ∀ (i : Instr) (rest : List Byte), WellFormed i → decode i.format (encode i ++ rest) = .ok (i, rest)

/-- Derived from 30_encoding.md sections 1 and 3: whatever the decoder reads is a well-formed instruction of the format asked
for and its bytes are the encoder's; and it reads nothing exactly where the bytes are too few. -/
def Obligations.EncodeOfDecode : Prop :=
  (∀ (f : Format) (bytes rest : List Byte) (i : Instr), decode f bytes = .ok (i, rest) →
    WellFormed i ∧ i.format = f ∧ encode i ++ rest = bytes) ∧
  (∀ bytes : List Byte, (∃ e, decode .cmd8 bytes = .error e) ↔ bytes.length < 1) ∧
  (∀ bytes : List Byte, (∃ e, decode .code16 bytes = .error e) ↔ bytes.length < 2)

/-- R72: a code is of exactly one of three classes, by its value alone: LIT, CLEAR, REF; and what the class means: the
one-byte entry of a LIT code is in every dictionary, slot 256 is Reserved, and a REF code is an appended entry's index. -/
def Obligations.CodeClasses : Prop :=
  (∀ c : Code, (decodeCode c = .lit (loByte c) ↔ c &&& 0xFF00#16 = 0x0000#16) ∧
    (c &&& 0xFF00#16 = 0x0000#16 ↔ c.toNat ≤ 0x00FF)) ∧
  (∀ c : Code, (decodeCode c = .clear ↔ c &&& 0xFFFF#16 = 0x0100#16) ∧
    (c &&& 0xFFFF#16 = 0x0100#16 ↔ c.toNat = 0x0100)) ∧
  (∀ c : Code, decodeCode c = .ref c ↔ 0x0101 ≤ c.toNat) ∧
  (∀ (c : Code) (D : Slots) (L : Nat), DictInv D L →
    (c.toNat ≤ 0x00FF → c.toNat < L ∧ slotRead D c.toNat = .data (Str.single (loByte c))) ∧
    (c.toNat = 0x0100 → slotRead D c.toNat = .reserved) ∧
    (0x0101 ≤ c.toNat → (c.toNat < L ↔ ∃ e, slotRead D c.toNat = .data e)))

/-! ### Packing -/

/-- R76 and R152: code `i` stands in bytes `2i` and `2i+1` of the packed buffer, high byte first, and the buffer has exactly
two bytes for each code. -/
def Obligations.PackedLayout : Prop :=
  ∀ cs : List Code, (packBits cs).length = 2 * cs.length ∧ (cs.flatMap binStr).length % 8 = 0 ∧
    ∀ (i : Nat) (c : Code), cs[i]? = some c →
      (packBits cs)[2 * i]? = some (c.extractLsb' 8 8) ∧ (packBits cs)[2 * i + 1]? = some (c.extractLsb' 0 8)

/-- Derived from 30_encoding.md section 2 (operand assembly) and 42_bit_packer.md section 2: code `i` of an unpacked buffer of
even length is its byte pair, the first byte the high one, which is also the value of the pair's bit string. -/
def Obligations.UnpackAssembly : Prop :=
  ∀ bs : List Byte, bs.length % 2 = 0 → (unpackBits bs).length = bs.length / 2 ∧
    ∀ (i : Nat) (hi lo : Byte), bs[2 * i]? = some hi → bs[2 * i + 1]? = some lo →
      ∃ c : Code, (unpackBits bs)[i]? = some c ∧ c.toNat = hi.toNat * 256 + lo.toNat ∧
        c.toNat = bitVal (binStr hi ++ binStr lo)

/-- R158: the two round-trip laws of the packer. -/
def Obligations.PackRoundTrip : Prop :=
  (∀ cs : List Code, unpackBits (packBits cs) = cs) ∧
  (∀ bs : List Byte, bs.length % 2 = 0 → packBits (unpackBits bs) = bs)

/-! ### The dictionary -/

/-- R100: what Build leaves, in either unit, whatever was there before; it does not write the match register. -/
def Obligations.BuildBaseline : Prop :=
  (∀ e : Enc,
    (∀ b : Byte, slotRead (encBuild e).D b.toNat = .data ⟨b, []⟩) ∧ slotRead (encBuild e).D 256 = .reserved ∧
    (∀ i, 257 ≤ i → slotRead (encBuild e).D i = .absent) ∧ (encBuild e).L = 257 ∧
    (∀ b : Byte, revLookup (encBuild e).R ⟨b, []⟩ = some b.toNat) ∧
    (∀ s : Str, s.tail ≠ [] → revLookup (encBuild e).R s = none) ∧ (encBuild e).W = e.W) ∧
  (∀ d : Dec,
    (∀ b : Byte, slotRead (decBuild d).D b.toNat = .data ⟨b, []⟩) ∧ slotRead (decBuild d).D 256 = .reserved ∧
    (∀ i, 257 ≤ i → slotRead (decBuild d).D i = .absent) ∧ (decBuild d).L = 257 ∧ (decBuild d).W = d.W)

/-- R104: DictAppend writes the slot at the old next free index and no other, moves that index up by one, and, in ENC, maps
the new string to it and no other string anew. -/
def Obligations.AppendEntry : Prop :=
  (∀ (e : Enc) (s : Str), slotsWf e.D = true → e.L < 65536 → revLookup e.R s = none →
    (∀ i, slotRead (encAppend s e).D i = if i = e.L then .data s else slotRead e.D i) ∧
    (∀ k, revLookup (encAppend s e).R k = if k = s then some e.L else revLookup e.R k) ∧
    (encAppend s e).L = e.L + 1 ∧ (encAppend s e).W = e.W) ∧
  (∀ (d : Dec) (s : Str), slotsWf d.D = true → d.L < 65536 →
    (∀ i, slotRead (decAppend s d).D i = if i = d.L then .data s else slotRead d.D i) ∧
    (decAppend s d).L = d.L + 1 ∧ (decAppend s d).W = d.W)

/-- Derived from 40_dictionary_builder.md section 2 (the dictionary is given by its values; log entry 18 chooses the list):
the canonical form is kept by a write of any slot, a write changes that slot alone, and two canonical lists that
read alike everywhere are the same list. -/
def Obligations.CanonicalSlots : Prop :=
  (∀ (m : Slots) (i : Nat) (e : Entry), slotsWf m = true →
    slotsWf (slotWrite m i e) = true ∧
    ∀ j, slotRead (slotWrite m i e) j = if j = i then e else slotRead m j) ∧
  (∀ m n : Slots, slotsWf m = true → slotsWf n = true → (∀ i, slotRead m i = slotRead n i) → m = n)

/-- R105: every one-byte string is found at its own value in every generation, 256 is never found, and right after Build
"T" is at 84 and "TO" is nowhere. -/
def Obligations.RevLookupValues : Prop :=
  (∀ (e : Enc) (b : Byte), EncInv e → revLookup e.R ⟨b, []⟩ = some b.toNat) ∧
  (∀ (e : Enc) (s : Str), EncInv e → revLookup e.R s ≠ some 256) ∧
  (∀ (e : Enc) (s : Str) (i : Nat), EncInv e →
    (revLookup e.R s = some i ↔ i < e.L ∧ i ≠ 256 ∧ slotRead e.D i = .data s)) ∧
  (∀ e : Enc, revLookup (encBuild e).R ⟨84#8, []⟩ = some 84 ∧ revLookup (encBuild e).R ⟨84#8, [79#8]⟩ = none)

/-- R44: an appended entry at index `i` has at least one byte and at most `i - 255`; so no entry of ENC has more than 65279
bytes and no entry of DEC more than 65280. -/
def Obligations.EntryLengthBounds : Prop :=
  (∀ (D : Slots) (L i : Nat), DictInv D L → PrefixClosed D L → 257 ≤ i → i < L →
    ∃ s, slotRead D i = .data s ∧ 1 ≤ (strBytes s).length ∧ (strBytes s).length ≤ i - 255) ∧
  (∀ (e : Enc) (i : Nat) (s : Str), EncInv e → slotRead e.D i = .data s → (strBytes s).length ≤ 65279) ∧
  (∀ (d : Dec) (i : Nat) (s : Str), DecInv d → slotRead d.D i = .data s → (strBytes s).length ≤ 65280)

/-! ### Accepting a command -/

/-- Derived from 44_entry_points.md section 1, 60_exceptions.md section 1 and 30_encoding.md section 4: what the acceptance of
every command word does, in the order of its checks. OP shows CMD[2:0], the old result and fault record go, the payload is
captured; an illegal word faults with BAD_COMMAND; an input over the bound faults; and otherwise the first phase of the
command starts, where UnpackStart refuses a buffer of odd length. The payload has the kind its OP gives (any kind for an
illegal word). Two things are the model's choice in the branches that fault: that ENC, DEC and CTL.MID keep what they held
(log entry 7), and that CTL.POS and CTL.IN do (log entry 19). -/
def Obligations.AcceptWord : Prop :=
  ∀ (s : State) (v : Byte) (x : Payload) (rest : List HostAct),
    s.host = .write 0 v x :: rest → s.ctl.state ≠ .busy →
    (v.extractLsb' 3 5 = 0#5 → v.extractLsb' 0 3 ≠ 0#3 → v.extractLsb' 0 3 ≠ 7#3 →
      payloadKind x = if v.extractLsb' 0 3 = 4#3 ∨ v.extractLsb' 0 3 = 5#3 then .codes else .bytes) →
    ∃ t, step s = .next t ∧ t.host = rest ∧ t.config = s.config ∧ t.ctl.op = v.extractLsb' 0 3 ∧ t.ctl.input = x ∧
      t.ctl.mid = [] ∧ payloadLength t.ctl.out = 0 ∧ t.ctl.outLen = 0 ∧
      (if v.extractLsb' 3 5 ≠ 0#5 ∨ v.extractLsb' 0 3 = 0#3 ∨ v.extractLsb' 0 3 = 7#3 then
        resultOf t = some (.faulted ⟨.badCommand, 0#4, 0, 0#16, 0⟩) ∧ t.ctl.phase = .none ∧
          t.ctl.pos = s.ctl.pos ∧ t.enc = s.enc ∧ t.dec = s.dec
      else if exceeds (payloadLength x) s.config.maxInUnits then
        resultOf t = some (.faulted ⟨.limitExceeded, 1#4, payloadLength x, 0#16, 0⟩) ∧ t.ctl.phase = .none
      else if (v.extractLsb' 0 3 = 2#3 ∨ v.extractLsb' 0 3 = 6#3) ∧ payloadLength x % 2 = 1 then
        resultOf t = some (.faulted ⟨.misalignedStream, 0#4, payloadLength x, 0#16, 0⟩) ∧ t.ctl.phase = .none
      else
        t.ctl.state = .busy ∧ t.ctl.cause = .none ∧ t.ctl.subcause = 0#4 ∧ t.ctl.faultPos = 0 ∧
          t.ctl.faultCode = 0#16 ∧ t.ctl.faultLen = 0#17 ∧ t.ctl.pos = 0 ∧
          (v.extractLsb' 0 3 = 1#3 → t.ctl.phase = .encode ∧ t.ctl.src = .input ∧ t.ctl.snk = .mid) ∧
          (v.extractLsb' 0 3 = 2#3 → t.ctl.phase = .unpack ∧ t.ctl.src = .input ∧ t.ctl.snk = .mid) ∧
          (v.extractLsb' 0 3 = 3#3 → t.ctl.phase = .encode ∧ t.ctl.src = .input ∧ t.ctl.snk = .out) ∧
          (v.extractLsb' 0 3 = 4#3 → t.ctl.phase = .decode ∧ t.ctl.src = .input ∧ t.ctl.snk = .out) ∧
          (v.extractLsb' 0 3 = 5#3 → t.ctl.phase = .pack ∧ t.ctl.src = .input ∧ t.ctl.snk = .out) ∧
          (v.extractLsb' 0 3 = 6#3 → t.ctl.phase = .unpack ∧ t.ctl.src = .input ∧ t.ctl.snk = .out))

/-- Derived from 44_entry_points.md sections 1 to 3 and 41_encoder.md section 1: COMPRESS and ENCODE, accepted, start an
ENCODE phase over the captured payload with a fresh generation in ENC and an empty match; nothing else changes. -/
def Obligations.AcceptsCompressAndEncode : Prop :=
  ∀ (s : State) (b : List Byte), s.ctl.state ≠ .busy → s.offered = .bytes b →
    exceeds b.length s.config.maxInUnits = false →
    exec .compress s = .next { s with
      enc := ⟨baseSlots, 257, baseRev, .empty⟩
      ctl := ⟨.busy, 1#3, .none, 0#4, 0, 0#16, 0#17, 0, .bytes b, [], .bytes [], 0, .encode, .input, .mid⟩ } ∧
    exec .encode s = .next { s with
      enc := ⟨baseSlots, 257, baseRev, .empty⟩
      ctl := ⟨.busy, 3#3, .none, 0#4, 0, 0#16, 0#17, 0, .bytes b, [], .codes [], 0, .encode, .input, .out⟩ }

/-- Derived from 44_entry_points.md sections 1 to 3 and 42_bit_packer.md section 2: DECOMPRESS and UNPACK, accepted with a
buffer of even length, start an UNPACK phase over it; nothing else changes. -/
def Obligations.AcceptsDecompressAndUnpack : Prop :=
  ∀ (s : State) (b : List Byte), s.ctl.state ≠ .busy → s.offered = .bytes b →
    exceeds b.length s.config.maxInUnits = false → b.length % 2 = 0 →
    exec .decompress s = .next { s with
      ctl := ⟨.busy, 2#3, .none, 0#4, 0, 0#16, 0#17, 0, .bytes b, [], .bytes [], 0, .unpack, .input, .mid⟩ } ∧
    exec .unpack s = .next { s with
      ctl := ⟨.busy, 6#3, .none, 0#4, 0, 0#16, 0#17, 0, .bytes b, [], .codes [], 0, .unpack, .input, .out⟩ }

/-- Derived from 44_entry_points.md sections 1 to 3 and 43_decoder.md section 1: DECODE, accepted, starts a DECODE phase with a
fresh generation in DEC and an empty match; PACK, accepted, starts a PACK phase; nothing else changes. -/
def Obligations.AcceptsDecodeAndPack : Prop :=
  ∀ (s : State) (c : List Code), s.ctl.state ≠ .busy → s.offered = .codes c →
    exceeds c.length s.config.maxInUnits = false →
    exec .decode s = .next { s with
      dec := ⟨baseSlots, 257, .empty⟩
      ctl := ⟨.busy, 4#3, .none, 0#4, 0, 0#16, 0#17, 0, .codes c, [], .bytes [], 0, .decode, .input, .out⟩ } ∧
    exec .pack s = .next { s with
      ctl := ⟨.busy, 5#3, .none, 0#4, 0, 0#16, 0#17, 0, .codes c, [], .bytes [], 0, .pack, .input, .out⟩ }

/-- Derived from 30_encoding.md section 4 and 60_exceptions.md section 1: each reserved command word, offered when STATE is
not BUSY, with any payload, is accepted and ends at once in FAULT with BAD_COMMAND; STATUS.OP shows the rejected CMD[2:0];
no phase runs. That ENC and DEC keep their values after the fault is the model's choice (log entry 7), and so is that
CTL.POS does (log entry 19). -/
def Obligations.ReservedCommandsFault : Prop :=
  ∀ (i : Instr) (op : BitVec 3) (s : State),
    ((i = .reservedOp0 ∧ op = 0#3) ∨ (i = .reservedOp7 ∧ op = 7#3) ∨ (∃ u, i = .reservedBit3 op u) ∨
      (∃ u, i = .reservedBit4 op u) ∨ (∃ u, i = .reservedBit5 op u) ∨ (∃ u, i = .reservedBit6 op u) ∨
      i = .reservedBit7 op) →
    s.ctl.state ≠ .busy →
    ∃ t, exec i s = .next t ∧ t.ctl.state = .fault ∧ t.ctl.op = op ∧ t.ctl.cause = .badCommand ∧ t.ctl.subcause = 0#4 ∧
      t.ctl.faultPos = 0 ∧ t.ctl.faultCode = 0#16 ∧ t.ctl.faultLen = 0#17 ∧ t.ctl.outLen = 0 ∧
      payloadLength t.ctl.out = 0 ∧ t.ctl.phase = .none ∧ t.ctl.pos = s.ctl.pos ∧
      t.enc = s.enc ∧ t.dec = s.dec ∧ t.config = s.config ∧ t.offered = s.offered ∧ t.host = s.host

/-- R202: a command offered while BUSY has no transition, whichever command it is, a reserved one included. -/
def Obligations.CommandWhileBusyStops : Prop :=
  ∀ (i : Instr) (s : State), i.format = .cmd8 → s.ctl.state = .busy → exec i s = .fault .commandWhileBusy

/-- Derived from 42_bit_packer.md section 2: DECOMPRESS and UNPACK of a buffer of odd length end at once in MISALIGNED_STREAM,
at the buffer's length; no code is written and no dictionary is built. What ENC, DEC and CTL.MID hold after the fault is the
model's choice (log entry 7), and so is what CTL.POS holds (log entry 19). -/
def Obligations.OddBufferFaults : Prop :=
  ∀ (i : Instr) (op : BitVec 3) (s : State) (b : List Byte),
    (i = .decompress ∧ op = 2#3) ∨ (i = .unpack ∧ op = 6#3) →
    s.ctl.state ≠ .busy → s.offered = .bytes b → exceeds b.length s.config.maxInUnits = false → b.length % 2 = 1 →
    ∃ t, exec i s = .next t ∧ t.ctl.state = .fault ∧ t.ctl.op = op ∧ t.ctl.cause = .misalignedStream ∧
      t.ctl.subcause = 0#4 ∧ t.ctl.faultPos = b.length ∧ t.ctl.faultCode = 0#16 ∧ t.ctl.faultLen = 0#17 ∧
      t.ctl.pos = 0 ∧ t.ctl.mid = [] ∧ payloadLength t.ctl.out = 0 ∧ t.ctl.outLen = 0 ∧ t.ctl.phase = .none ∧
      t.enc = s.enc ∧ t.dec = s.dec ∧ t.config = s.config ∧ t.offered = s.offered ∧ t.host = s.host

/-- Derived from 60_exceptions.md section 1 (the two bounds) and 44_entry_points.md section 1: a payload over MAX_IN_UNITS
ends any of the six commands at acceptance, before its first phase, odd length or not. That ENC and DEC keep their values
after the fault is the model's choice (log entry 7). -/
def Obligations.InputLimitFaults : Prop :=
  ∀ (i : Instr) (op : BitVec 3) (s : State) (m : Nat),
    (i = .compress ∧ op = 1#3) ∨ (i = .decompress ∧ op = 2#3) ∨ (i = .encode ∧ op = 3#3) ∨ (i = .decode ∧ op = 4#3) ∨
      (i = .pack ∧ op = 5#3) ∨ (i = .unpack ∧ op = 6#3) →
    s.ctl.state ≠ .busy → payloadKind s.offered = (if i = .decode ∨ i = .pack then .codes else .bytes) →
    s.config.maxInUnits = some m → m < payloadLength s.offered →
    ∃ t, exec i s = .next t ∧ t.ctl.state = .fault ∧ t.ctl.op = op ∧ t.ctl.cause = .limitExceeded ∧
      t.ctl.subcause = 1#4 ∧ t.ctl.faultPos = payloadLength s.offered ∧ t.ctl.faultCode = 0#16 ∧
      t.ctl.faultLen = 0#17 ∧ payloadLength t.ctl.out = 0 ∧ t.ctl.outLen = 0 ∧ t.ctl.phase = .none ∧
      t.enc = s.enc ∧ t.dec = s.dec ∧ t.config = s.config ∧ t.offered = s.offered ∧ t.host = s.host

/-- R238: raising a fault writes the record, discards the output, ends the phase, and the rest of the step does not run.
A length is at most CAPACITY (10_state.md R36), so it fits in its 17 bits. -/
def Obligations.FaultEntry : Prop :=
  ∀ (cause : Cause) (sub : BitVec 4) (pos : Nat) (code : Code) (len : Nat) (s : State) (k : State → Eff), len ≤ 65536 →
    ∃ t, (raise cause sub pos code len s).andThen k = .raised t ∧
      t.ctl.cause = cause ∧ t.ctl.subcause = sub ∧ t.ctl.faultPos = pos ∧ t.ctl.faultCode = code ∧
      t.ctl.faultLen.toNat = len ∧ payloadLength t.ctl.out = 0 ∧ t.ctl.outLen = 0 ∧ t.ctl.phase = .none ∧
      t.ctl.state = .fault ∧ t.ctl.op = s.ctl.op ∧ response t = none

/-- Derived from 10_state.md section 11 (access rights) and 40_dictionary_builder.md section 1 (where a generation starts): the
frame of the command instructions. None touches the parameters, the offered payload or the host's turns; only COMPRESS and
ENCODE touch ENC; only DECODE touches DEC. Where the command ends in FAULT, that ENC and DEC keep their values is the
model's choice (log entry 7). -/
def Obligations.CommandFrame : Prop :=
  ∀ (i : Instr) (s t : State), i.format = .cmd8 → exec i s = .next t →
    t.config = s.config ∧ t.offered = s.offered ∧ t.host = s.host ∧
    (i ≠ .compress → i ≠ .encode → t.enc = s.enc) ∧ (i ≠ .decode → t.dec = s.dec)

/-! ### The code instructions -/

/-- R172: CLEAR starts a new generation in DEC and empties its match, whatever DEC held; nothing else changes. -/
def Obligations.ClearStartsGeneration : Prop :=
  ∀ s : State, ∃ t, exec .clear s = .next t ∧ t = { s with dec := t.dec } ∧
    t.dec.W = .empty ∧ t.dec.L = 257 ∧
    (∀ b : Byte, slotRead t.dec.D b.toNat = .data ⟨b, []⟩) ∧ slotRead t.dec.D 256 = .reserved ∧
    (∀ i, 257 ≤ i → slotRead t.dec.D i = .absent)

/-- R173: LIT with an empty match writes its byte and makes it the match; the dictionary does not change, nor does anything
else. -/
def Obligations.LitStarts : Prop :=
  ∀ (b : Byte) (s : State) (l : List Byte), s.dec.W = .empty → s.ctl.snk = .out → s.ctl.out = .bytes l →
    exceeds (l.length + 1) s.config.maxOutUnits = false →
    exec (.lit b) s = .next { s with
      ctl := { s.ctl with out := .bytes (l ++ [b]) }
      dec := { s.dec with W := .building ⟨b, []⟩ } }

/-- R177: a LIT or REF code below the next free index, with a match `w`, writes its entry, appends `w` and the entry's first
byte at the old next free index, and makes the entry the match; nothing else changes. -/
def Obligations.CodeDirect : Prop :=
  ∀ (i : Instr) (c : Code) (s : State) (w : Str) (l : List Byte),
    (∃ b, i = .lit b ∧ c.toNat = b.toNat) ∨ (i = .ref c ∧ 257 ≤ c.toNat) →
    DecInv s.dec → s.dec.W = .building w → c.toNat < s.dec.L → s.dec.L < 65536 →
    s.ctl.snk = .out → s.ctl.out = .bytes l →
    ∃ e, slotRead s.dec.D c.toNat = .data e ∧
      (exceeds (l.length + (strBytes e).length) s.config.maxOutUnits = false →
        ∃ t, exec i s = .next t ∧
          t = { s with ctl := { s.ctl with out := .bytes (l ++ strBytes e) }, dec := t.dec } ∧
          t.dec.L = s.dec.L + 1 ∧ t.dec.W = .building e ∧
          ∀ j, slotRead t.dec.D j = if j = s.dec.L then .data ⟨w.head, w.tail ++ [e.head]⟩ else slotRead s.dec.D j)

/-- R178: a REF code equal to the next free index, with a match `w`, resolves to `w` and its own first byte: that entry is
written, appended at the code's index, and made the match; nothing else changes. -/
def Obligations.RefWelch : Prop :=
  ∀ (c : Code) (s : State) (w : Str) (l : List Byte),
    DecInv s.dec → s.dec.W = .building w → c.toNat = s.dec.L →
    s.ctl.snk = .out → s.ctl.out = .bytes l →
    exceeds (l.length + (strBytes w).length + 1) s.config.maxOutUnits = false →
    257 ≤ c.toNat ∧
    ∃ t, exec (.ref c) s = .next t ∧
      t = { s with ctl := { s.ctl with out := .bytes (l ++ strBytes w ++ [w.head]) }, dec := t.dec } ∧
      t.dec.L = s.dec.L + 1 ∧ t.dec.W = .building ⟨w.head, w.tail ++ [w.head]⟩ ∧
      ∀ j, slotRead t.dec.D j = if j = c.toNat then .data ⟨w.head, w.tail ++ [w.head]⟩ else slotRead s.dec.D j

/-- R174: REF with an empty match ends the command in MALFORMED_CODE, subcause 2, at the code's own position; DEC.L is 257 in
every state of the invariant. -/
def Obligations.RefWhileEmptyFaults : Prop :=
  ∀ (c : Code) (s : State), 257 ≤ c.toNat → DecInv s.dec → s.dec.W = .empty →
    ∃ t, exec (.ref c) s = .next t ∧ t.ctl.state = .fault ∧ t.ctl.cause = .malformedCode ∧ t.ctl.subcause = 2#4 ∧
      t.ctl.faultPos = s.ctl.pos - 1 ∧ t.ctl.faultCode = c ∧ t.ctl.faultLen.toNat = s.dec.L ∧ s.dec.L = 257

/-- R175: any code but CLEAR, at most DEC.L, with a match and a full dictionary, ends the command in MALFORMED_CODE, subcause 3;
CLEAR does not fault there. -/
def Obligations.TableFullFaults : Prop :=
  (∀ (i : Instr) (c : Code) (s : State) (w : Str),
    (∃ b, i = .lit b ∧ c.toNat = b.toNat) ∨ (i = .ref c ∧ 257 ≤ c.toNat) →
    s.dec.W = .building w → s.dec.L = 65536 →
    ∃ t, exec i s = .next t ∧ t.ctl.state = .fault ∧ t.ctl.cause = .malformedCode ∧ t.ctl.subcause = 3#4 ∧
      t.ctl.faultPos = s.ctl.pos - 1 ∧ t.ctl.faultCode = c ∧ t.ctl.faultLen.toNat = 65536) ∧
  (∀ s : State, s.dec.L = 65536 → ∃ t, exec .clear s = .next t ∧ t.ctl = s.ctl)

/-- R176: a code above the next free index, with a match, ends the command in MALFORMED_CODE, subcause 1. -/
def Obligations.BeyondNextFreeFaults : Prop :=
  ∀ (c : Code) (s : State) (w : Str), s.dec.W = .building w → s.dec.L < c.toNat → c ≠ 256#16 →
    ∃ t, exec (decodeCode c) s = .next t ∧ t.ctl.state = .fault ∧ t.ctl.cause = .malformedCode ∧ t.ctl.subcause = 1#4 ∧
      t.ctl.faultPos = s.ctl.pos - 1 ∧ t.ctl.faultCode = c ∧ t.ctl.faultLen.toNat = s.dec.L

/-- Derived from 10_state.md section 11 (access rights) and 43_decoder.md sections 1 and 2: the frame of LIT, CLEAR and REF. ENC,
the parameters, the host's side and CTL's OP, IN, MID, POS, SRC and SNK never change. Without a fault CTL changes in OUT
alone and OUT only grows; with one, DEC does not change. After a fault two things are the model's choice: that ENC, DEC and
CTL.MID keep their values (log entry 7), and that CTL's IN, POS, SRC and SNK do (log entry 19). -/
def Obligations.CodeFrame : Prop :=
  ∀ (i : Instr) (s t : State), i.format = .code16 → exec i s = .next t →
    t.enc = s.enc ∧ t.config = s.config ∧ t.offered = s.offered ∧ t.host = s.host ∧
    t.ctl.op = s.ctl.op ∧ t.ctl.input = s.ctl.input ∧ t.ctl.mid = s.ctl.mid ∧ t.ctl.pos = s.ctl.pos ∧
    t.ctl.src = s.ctl.src ∧ t.ctl.snk = s.ctl.snk ∧
    ((t.ctl = { s.ctl with out := t.ctl.out } ∧
        (t.ctl.out = s.ctl.out ∨ ∃ l x, s.ctl.out = .bytes l ∧ t.ctl.out = .bytes (l ++ x))) ∨
      (t.ctl.state = .fault ∧ (t.ctl.cause = .malformedCode ∨ t.ctl.cause = .limitExceeded) ∧
        payloadLength t.ctl.out = 0 ∧ t.ctl.outLen = 0 ∧ t.ctl.phase = .none ∧ t.dec = s.dec))

/-! ### The engine's steps -/

/-- R207: writing a code or a byte to the sink. In CTL.MID there is no bound; in CTL.OUT a write past MAX_OUT_UNITS raises
LIMIT_EXCEEDED at the length before it, and, in a write of several bytes or codes, nothing of it stays visible. -/
def Obligations.OutWriteBound : Prop :=
  (∀ (c : Code) (s : State), s.ctl.snk = .mid → outCode c s = .go { s with ctl := { s.ctl with mid := s.ctl.mid ++ [c] } }) ∧
  (∀ (c : Code) (s : State) (l : List Code), s.ctl.snk = .out → s.ctl.out = .codes l →
    exceeds (l.length + 1) s.config.maxOutUnits = false →
    outCode c s = .go { s with ctl := { s.ctl with out := .codes (l ++ [c]) } }) ∧
  (∀ (c : Code) (s : State) (l : List Code), s.ctl.snk = .out → s.ctl.out = .codes l →
    exceeds (l.length + 1) s.config.maxOutUnits = true → outCode c s = raise .limitExceeded 2#4 l.length 0#16 0 s) ∧
  (∀ (b : Byte) (s : State) (l : List Byte), s.ctl.snk = .out → s.ctl.out = .bytes l →
    exceeds (l.length + 1) s.config.maxOutUnits = false →
    outByte b s = .go { s with ctl := { s.ctl with out := .bytes (l ++ [b]) } }) ∧
  (∀ (b : Byte) (s : State) (l : List Byte), s.ctl.snk = .out → s.ctl.out = .bytes l →
    exceeds (l.length + 1) s.config.maxOutUnits = true → outByte b s = raise .limitExceeded 2#4 l.length 0#16 0 s) ∧
  (∀ (bs : List Byte) (s : State) (l : List Byte) (m : Nat), s.ctl.snk = .out → s.ctl.out = .bytes l →
    s.config.maxOutUnits = some m → l.length ≤ m → m < l.length + bs.length →
    outBytes bs s = raise .limitExceeded 2#4 m 0#16 0 s) ∧
  (∀ (cs : List Code) (s : State) (l : List Code) (m : Nat), s.ctl.snk = .out → s.ctl.out = .codes l →
    s.config.maxOutUnits = some m → l.length ≤ m → m < l.length + cs.length →
    outCodes cs s = raise .limitExceeded 2#4 m 0#16 0 s) ∧
  (∀ (n : Nat) (s : State), s.config.maxOutUnits = none → exceeds n s.config.maxOutUnits = false)

/-- R122: the candidate is in the dictionary, so the match grows and nothing is written; with an empty match the one-byte
candidate is always found. -/
def Obligations.EncExtendStep : Prop :=
  (∀ (s0 s : State) (ks : List Byte) (k : Byte),
    EngineTurn s0 s → s.ctl.state = .busy → s.ctl.phase = .encode → sourcePayload s.ctl = .bytes ks → ks[s.ctl.pos]? = some k →
    revLookup s.enc.R (candidate s.enc.W k) ≠ none →
    step s0 = .next { s with
      ctl := { s.ctl with pos := s.ctl.pos + 1 }
      enc := { s.enc with W := .building (candidate s.enc.W k) } }) ∧
  (∀ (e : Enc) (k : Byte), EncInv e → e.W = .empty →
    candidate e.W k = ⟨k, []⟩ ∧ revLookup e.R (candidate e.W k) = some k.toNat)

/-- R123: the candidate is not in the dictionary and there is room: the match's code is written, the candidate appended at the
next free index, and the match restarted at the byte. The two clauses are the two sinks an ENCODE phase has. -/
def Obligations.EncMissStep : Prop :=
  ∀ (s0 s : State) (ks : List Byte) (k : Byte) (w : Str),
    EngineTurn s0 s → s.ctl.state = .busy → s.ctl.phase = .encode → sourcePayload s.ctl = .bytes ks → ks[s.ctl.pos]? = some k →
    EncInv s.enc → s.enc.W = .building w → revLookup s.enc.R ⟨w.head, w.tail ++ [k]⟩ = none → s.enc.L + 1 < 65536 →
    ∃ (i : Nat) (e : Enc), revLookup s.enc.R w = some i ∧ i ≠ 256 ∧ i < s.enc.L ∧
      (∀ j, slotRead e.D j = if j = s.enc.L then .data ⟨w.head, w.tail ++ [k]⟩ else slotRead s.enc.D j) ∧
      (∀ q, revLookup e.R q = if q = ⟨w.head, w.tail ++ [k]⟩ then some s.enc.L else revLookup s.enc.R q) ∧
      e.L = s.enc.L + 1 ∧ e.W = .building ⟨k, []⟩ ∧
      (s.ctl.snk = .mid →
        step s0 = .next { s with
          ctl := { s.ctl with pos := s.ctl.pos + 1, mid := s.ctl.mid ++ [BitVec.ofNat 16 i] }
          enc := e }) ∧
      (∀ l, s.ctl.snk = .out → s.ctl.out = .codes l → exceeds (l.length + 1) s.config.maxOutUnits = false →
        step s0 = .next { s with
          ctl := { s.ctl with pos := s.ctl.pos + 1, out := .codes (l ++ [BitVec.ofNat 16 i]) }
          enc := e })

/-- R124: the candidate is not in the dictionary and appending it would make the length reach 65536: the match's code, the raw
code of the byte and CLEAR are written, and a new generation starts with an empty match. -/
def Obligations.EncOverflowStep : Prop :=
  ∀ (s0 s : State) (ks : List Byte) (k : Byte) (w : Str) (i : Nat),
    EngineTurn s0 s → s.ctl.state = .busy → s.ctl.phase = .encode → sourcePayload s.ctl = .bytes ks → ks[s.ctl.pos]? = some k →
    s.enc.W = .building w → revLookup s.enc.R w = some i → revLookup s.enc.R ⟨w.head, w.tail ++ [k]⟩ = none →
    s.enc.L + 1 = 65536 →
    (s.ctl.snk = .mid →
      step s0 = .next { s with
        ctl := { s.ctl with pos := s.ctl.pos + 1, mid := s.ctl.mid ++ [BitVec.ofNat 16 i, k.zeroExtend 16, 256#16] }
        enc := ⟨baseSlots, 257, baseRev, .empty⟩ }) ∧
    (∀ l, s.ctl.snk = .out → s.ctl.out = .codes l → exceeds (l.length + 3) s.config.maxOutUnits = false →
      step s0 = .next { s with
        ctl := { s.ctl with pos := s.ctl.pos + 1, out := .codes (l ++ [BitVec.ofNat 16 i, k.zeroExtend 16, 256#16]) }
        enc := ⟨baseSlots, 257, baseRev, .empty⟩ })

/-- Derived from 41_encoder.md section 3 and 44_entry_points.md sections 3 and 4: at the end of its input an ENCODE command
writes the code of a non-empty match, or nothing, and completes (flush and completion are one step, log entry 1). That ENC,
DEC and CTL.MID keep their values in DONE is the model's choice (log entry 7). -/
def Obligations.EncFlushCompletes : Prop :=
  ∀ (s0 s : State) (l : List Code),
    EngineTurn s0 s → s.ctl.state = .busy → s.ctl.op = 3#3 → s.ctl.phase = .encode → s.ctl.snk = .out → s.ctl.out = .codes l →
    atEnd s.ctl = true →
    (s.enc.W = .empty →
      step s0 = .next { s with ctl := { s.ctl with state := .done, phase := .none, outLen := l.length } }) ∧
    (∀ w i, s.enc.W = .building w → revLookup s.enc.R w = some i → exceeds (l.length + 1) s.config.maxOutUnits = false →
      step s0 = .next { s with
        ctl := { s.ctl with
          state := .done, phase := .none, outLen := l.length + 1, out := .codes (l ++ [BitVec.ofNat 16 i]) } })

/-- Derived from 42_bit_packer.md section 1: a PACK step reads one code and writes its high byte and then its low byte. -/
def Obligations.PackStepWrites : Prop :=
  ∀ (s0 s : State) (cs : List Code) (c : Code) (l : List Byte),
    EngineTurn s0 s → s.ctl.state = .busy → s.ctl.phase = .pack → sourcePayload s.ctl = .codes cs → cs[s.ctl.pos]? = some c →
    s.ctl.snk = .out → s.ctl.out = .bytes l → exceeds (l.length + 2) s.config.maxOutUnits = false →
    step s0 = .next { s with
      ctl := { s.ctl with pos := s.ctl.pos + 1, out := .bytes (l ++ [c.extractLsb' 8 8, c.extractLsb' 0 8]) } }

/-- Derived from 42_bit_packer.md section 2: an UNPACK step reads two bytes and writes the code they make; the two clauses
are the two sinks an UNPACK phase has. -/
def Obligations.UnpackStepWrites : Prop :=
  ∀ (s0 s : State) (bs : List Byte) (hi lo : Byte) (c : Code),
    EngineTurn s0 s → s.ctl.state = .busy → s.ctl.phase = .unpack → sourcePayload s.ctl = .bytes bs →
    bs[s.ctl.pos]? = some hi → bs[s.ctl.pos + 1]? = some lo → c.toNat = hi.toNat * 256 + lo.toNat →
    (s.ctl.snk = .mid →
      step s0 = .next { s with ctl := { s.ctl with pos := s.ctl.pos + 2, mid := s.ctl.mid ++ [c] } }) ∧
    (∀ l, s.ctl.snk = .out → s.ctl.out = .codes l → exceeds (l.length + 1) s.config.maxOutUnits = false →
      step s0 = .next { s with ctl := { s.ctl with pos := s.ctl.pos + 2, out := .codes (l ++ [c]) } })

/-- Derived from 44_entry_points.md section 4: where the last phase of a command ends without a fault, PHASE goes to NONE,
OUT_LEN to the output's length and STATE to DONE: at the end of a PACK or DECODE phase, of an UNPACK command's UNPACK phase,
and of an ENCODE command's ENCODE phase, where it is the state the flush leaves that completes (flush and completion are one
step, log entry 1). That ENC, DEC and CTL.MID keep their values in DONE is the model's choice (log entry 7). -/
def Obligations.CompletionWrites : Prop :=
  ∀ s0 s s1 : State,
    EngineTurn s0 s → s.ctl.state = .busy → atEnd s.ctl = true →
    (s1 = s ∧ (s.ctl.phase = .pack ∨ s.ctl.phase = .decode ∨ (s.ctl.phase = .unpack ∧ s.ctl.op = 6#3))) ∨
      (encFlush s = .go s1 ∧ s.ctl.phase = .encode ∧ s.ctl.op = 3#3) →
    step s0 = .next { s1 with
      ctl := { s1.ctl with phase := .none, outLen := payloadLength s1.ctl.out, state := .done } }

/-- Derived from 44_entry_points.md sections 2 and 3: the end of COMPRESS's ENCODE phase starts its PACK phase over CTL.MID, and
the end of DECOMPRESS's UNPACK phase starts its DECODE phase over CTL.MID with a fresh generation (one step, log entry 1). -/
def Obligations.SecondPhaseStarts : Prop :=
  (∀ s0 s : State, EngineTurn s0 s → s.ctl.state = .busy → s.ctl.op = 1#3 → s.ctl.phase = .encode → s.ctl.snk = .mid →
    atEnd s.ctl = true →
    (s.enc.W = .empty →
      step s0 = .next { s with ctl := { s.ctl with phase := .pack, src := .mid, snk := .out, pos := 0 } }) ∧
    (∀ w i, s.enc.W = .building w → revLookup s.enc.R w = some i →
      step s0 = .next { s with
        ctl := { s.ctl with
          phase := .pack, src := .mid, snk := .out, pos := 0, mid := s.ctl.mid ++ [BitVec.ofNat 16 i] } })) ∧
  (∀ s0 s : State, EngineTurn s0 s → s.ctl.state = .busy → s.ctl.op = 2#3 → s.ctl.phase = .unpack → atEnd s.ctl = true →
    step s0 = .next { s with
      ctl := { s.ctl with phase := .decode, src := .mid, snk := .out, pos := 0 }
      dec := ⟨baseSlots, 257, .empty⟩ })

/-! ### A step runs the decoded instruction -/

/-- Derived from 44_entry_points.md sections 1 and 2 and 43_decoder.md section 1. Where the host's next turn writes the byte `v`
to register 0 and that byte decodes to `i`, the step is exec of `i`, in the state that has the turn taken and the payload
offered. In a DECODE phase, where the source holds the code `c` at the position and the two bytes of `c` decode to `i`, the
engine's turn is exec of `i`, in the state whose position is past the code. -/
def Obligations.StepRunsInstruction : Prop :=
  (∀ (s : State) (v : Byte) (x : Payload) (rest : List HostAct) (i : Instr),
    s.host = .write 0 v x :: rest → decode .cmd8 [v] = .ok (i, []) →
    step s = exec i { s with host := rest, offered := x }) ∧
  (∀ (s : State) (cs : List Code) (c : Code) (i : Instr),
    s.ctl.state = .busy → s.ctl.phase = .decode → sourcePayload s.ctl = .codes cs → cs[s.ctl.pos]? = some c →
    decode .code16 [c.extractLsb' 8 8, c.extractLsb' 0 8] = .ok (i, []) →
    (s.host = [] → step s = exec i { s with ctl := { s.ctl with pos := s.ctl.pos + 1 } }) ∧
    (∀ rest, s.host = .run :: rest →
      step s = exec i { s with host := rest, ctl := { s.ctl with pos := s.ctl.pos + 1 } }))

/-! ### Registers and status -/

/-- Derived from 10_state.md section 8: the fields of the status word, bit by bit, and the values of the other registers. -/
def Obligations.RegisterValues : Prop :=
  (∀ c : Ctl,
    (statusWord c).extractLsb' 0 2 = (match c.state with | .idle => 0#2 | .busy => 1#2 | .done => 2#2 | .fault => 3#2) ∧
    (statusWord c).extractLsb' 2 2 = 0#2 ∧
    (statusWord c).extractLsb' 4 4 =
      (match c.cause with
        | .none => 0#4 | .malformedCode => 1#4 | .misalignedStream => 2#4 | .badCommand => 3#4 | .limitExceeded => 4#4) ∧
    (statusWord c).extractLsb' 8 4 = c.subcause ∧ (statusWord c).extractLsb' 12 3 = c.op ∧
    (statusWord c).extractLsb' 15 1 = 0#1) ∧
  (∀ s : State, readReg 0 s = 0 ∧ readReg 1 s = (statusWord s.ctl).toNat ∧ readReg 3 s = s.ctl.faultPos ∧
    readReg 4 s = s.ctl.faultCode.toNat ∧ readReg 5 s = s.ctl.faultLen.toNat ∧ ∀ n, 6 ≤ n → readReg n s = 0) ∧
  (∀ s : State, Inv s →
    readReg 2 s = (if s.ctl.state = .done then payloadLength s.ctl.out else 0) ∧
    (readReg 5 s = 0 ∨ (257 ≤ readReg 5 s ∧ readReg 5 s ≤ 65536)) ∧
    (s.ctl.state ≠ .fault → readReg 3 s = 0 ∧ readReg 4 s = 0 ∧ readReg 5 s = 0))

/-- Derived from 20_memory.md section 4 (no read has a side effect), 10_state.md section 8 (writes to register numbers 6 and
above are ignored; that writes to the read-only registers 1 to 5 are is log entry 13) and 60_exceptions.md section 5 (the
quiescent states): such a turn of the host changes nothing. The engine's turn outside BUSY is no step of the block; the
model gives it a next state that differs in no state of the block (log entry 14). -/
def Obligations.OtherHostTurnsChangeNothing : Prop :=
  (∀ (s : State) (n : Nat) (rest : List HostAct), s.host = .read n :: rest → step s = .next { s with host := rest }) ∧
  (∀ (s : State) (n : Nat) (v : Byte) (x : Payload) (rest : List HostAct), s.host = .write n v x :: rest → n ≠ 0 →
    step s = .next { s with host := rest }) ∧
  (∀ s : State, s.ctl.state ≠ .busy →
    (s.host = [] → step s = .next s) ∧ (∀ rest, s.host = .run :: rest → step s = .next { s with host := rest }))

/-- Derived from 60_exceptions.md section 4: FAULT is sticky. Until a command is accepted or the block is reset, no step
changes CTL; a command's acceptance clears the record. -/
def Obligations.FaultIsSticky : Prop :=
  (∀ s t : State, s.ctl.state = .fault → step s = .next t →
    (∀ v x rest, s.host ≠ .write 0 v x :: rest) → (∀ rest, s.host ≠ .blockReset :: rest) →
    t.ctl = s.ctl ∧ ∀ n, readReg n t = readReg n s) ∧
  (∀ (s t : State) (v : Byte) (x : Payload) (rest : List HostAct), s.ctl.state = .fault →
    s.host = .write 0 v x :: rest → step s = .next t → t.ctl.state = .busy →
    t.ctl.cause = .none ∧ t.ctl.subcause = 0#4 ∧ readReg 3 t = 0 ∧ readReg 4 t = 0 ∧ readReg 5 t = 0)

/-- Derived from 10_state.md section 8 (who writes STATE): a step that changes STATE is an acceptance, which leaves it BUSY
or FAULT; a command's end, which takes it from BUSY to DONE or FAULT; or a block reset, which leaves it IDLE. -/
def Obligations.WhoWritesState : Prop :=
  ∀ s t : State, step s = .next t → t.ctl.state ≠ s.ctl.state →
    (s.ctl.state ≠ .busy ∧ (∃ v x rest, s.host = .write 0 v x :: rest) ∧ (t.ctl.state = .busy ∨ t.ctl.state = .fault)) ∨
    (s.ctl.state = .busy ∧ (s.host = [] ∨ ∃ rest, s.host = .run :: rest) ∧
      (t.ctl.state = .done ∨ t.ctl.state = .fault)) ∨
    ((∃ rest, s.host = .blockReset :: rest) ∧ t.ctl.state = .idle)

/-- Derived from 20_memory.md section 1 (output payloads are append-only): a turn of the engine keeps every unit already in
CTL.OUT, in place, or ends the command in FAULT with no output at all; it keeps every code already in CTL.MID. Where the
turn ends the command, in DONE or FAULT, that CTL.MID keeps its codes is the model's choice (log entry 7). -/
def Obligations.OutputAppendOnly : Prop :=
  ∀ s0 s t : State, EngineTurn s0 s → s.ctl.state = .busy → step s0 = .next t →
    (∃ m, t.ctl.mid = s.ctl.mid ++ m) ∧
    ((t.ctl.state = .fault ∧ payloadLength t.ctl.out = 0 ∧ t.ctl.outLen = 0) ∨
      (∃ l x, s.ctl.out = .bytes l ∧ t.ctl.out = .bytes (l ++ x)) ∨
      (∃ l x, s.ctl.out = .codes l ∧ t.ctl.out = .codes (l ++ x)))

/-- R53: while a phase goes on, each step reads the next unit (two units in UNPACK), in order, and the source does not change;
a phase starts at position 0. -/
def Obligations.SourceReadInOrder : Prop :=
  (∀ s0 s t : State, Inv s → EngineTurn s0 s → s.ctl.state = .busy → step s0 = .next t → t.ctl.state = .busy →
    (t.ctl.phase = s.ctl.phase ∧ sourcePayload t.ctl = sourcePayload s.ctl ∧
        t.ctl.pos = s.ctl.pos + (if s.ctl.phase = .unpack then 2 else 1)) ∨
      (t.ctl.phase ≠ s.ctl.phase ∧ atEnd s.ctl = true ∧ t.ctl.pos = 0)) ∧
  (∀ (s t : State) (v : Byte) (x : Payload) (rest : List HostAct), s.host = .write 0 v x :: rest → step s = .next t →
    t.ctl.state = .busy → t.ctl.pos = 0 ∧ sourcePayload t.ctl = x)

/-- Derived from 10_state.md section 11 (no step of one unit writes the other's dictionary): a turn of the engine in an ENCODE
phase never touches DEC, in a DECODE phase never ENC, in a PACK phase neither, and in an UNPACK phase neither until DECODE
starts, which builds DEC fresh. Where the turn ends the command, in DONE or FAULT, that the units keep their values is the
model's choice (log entry 7). -/
def Obligations.UnitsStayApart : Prop :=
  ∀ s0 s t : State, EngineTurn s0 s → step s0 = .next t →
    (s.ctl.phase = .encode → t.dec = s.dec) ∧
    (s.ctl.phase = .decode → t.enc = s.enc) ∧
    (s.ctl.phase = .pack → t.enc = s.enc ∧ t.dec = s.dec) ∧
    (s.ctl.phase = .unpack → t.enc = s.enc ∧ (t.dec = s.dec ∨ (t.ctl.phase = .decode ∧ t.dec = ⟨baseSlots, 257, .empty⟩)))

/-! ### The invariant -/

/-- Derived: the invariant of 10_state.md (R24 to R30, R35 to R37, R43) holds right after reset, where it rests on the values
log entries 5 and 6 choose. -/
def Obligations.InvAtReset : Prop := Inv State.reset

/-- Derived from 10_state.md section 11 (the state before and after a step satisfies R24 to R30): every step of the machine,
whatever the host does, keeps the invariant. That ENC and DEC meet theirs after a command's end rests on the model's choice
to keep their values (log entry 7), and after a block reset on the values it gives them there (log entries 8 and 5; the
kinds of the empty payloads, log entry 6). -/
def Obligations.InvKept : Prop := ∀ s t : State, Inv s → step s = .next t → Inv t

/-- Derived from 44_entry_points.md sections 1, 2 and 4: in a state of the invariant, a host that keeps its contract never meets a
stuck machine; every other stop of the model is out of reach. -/
def Obligations.NeverStuck : Prop :=
  ∀ s : State, Inv s → HostKeepsContract s → ∃ t, step s = .next t

/-! ### The encoder's output -/

/-- Derived from 41_encoder.md section 4: the first code a MISS or OVERFLOW writes, and the one code a FLUSH writes, names the
match, and no entry of the generation that starts the unconsumed input is longer. At a FLUSH that input is the match. -/
def Obligations.GreedyLongestMatch : Prop :=
  (∀ (e : Enc) (w : Str) (k : Byte), EncInv e → e.W = .building w → revLookup e.R ⟨w.head, w.tail ++ [k]⟩ = none →
    ∃ (i : Nat) (more : List Code) (e1 : Enc), encUnit k e = some (BitVec.ofNat 16 i :: more, e1) ∧ i < 65536 ∧
      slotRead e.D i = .data w ∧
      ∀ (j : Nat) (s : Str) (rest : List Byte), slotRead e.D j = .data s →
        strBytes s <+: strBytes w ++ k :: rest → (strBytes s).length ≤ (strBytes w).length) ∧
  (∀ (e : Enc) (w : Str), EncInv e → e.W = .building w →
    ∃ i, flushCodes e = some [BitVec.ofNat 16 i] ∧ i < 65536 ∧ slotRead e.D i = .data w ∧
      ∀ (j : Nat) (s : Str), slotRead e.D j = .data s → strBytes s <+: strBytes w →
        (strBytes s).length ≤ (strBytes w).length)

/-- R74: which codes the encoder emits. A scan step emits nothing; or one code below ENC.L that is not CLEAR; or such a code, the
raw code of its byte and CLEAR, where the next append would reach 65536. A code of one byte is a LIT. No code of a stream is
65535. -/
def Obligations.EncoderCodes : Prop :=
  (∀ (e : Enc) (k : Byte), EncInv e →
    (∃ e1, encUnit k e = some ([], e1)) ∨
    (∃ c e1 w, encUnit k e = some ([c], e1) ∧ c.toNat < e.L ∧ c.toNat ≠ 256 ∧ e.W = .building w ∧
      (c.toNat < 256 ↔ w.tail = [])) ∨
    (∃ c e1 w, encUnit k e = some ([c, k.zeroExtend 16, 256#16], e1) ∧ c.toNat < e.L ∧ c.toNat ≠ 256 ∧ e.L = 65535 ∧
      e.W = .building w ∧ (c.toNat < 256 ↔ w.tail = []))) ∧
  (∀ e : Enc, EncInv e →
    flushCodes e = some [] ∨
    ∃ c w, flushCodes e = some [c] ∧ c.toNat < e.L ∧ c.toNat ≠ 256 ∧ e.W = .building w ∧
      (c.toNat < 256 ↔ w.tail = [])) ∧
  (∀ ks : List Byte, ∃ cs, encodeAll ks = some cs ∧ ∀ c ∈ cs, c.toNat ≤ 65534)

/-! ### Whole commands -/

/-- R219: whatever state the block waits in, a command with a payload of its kind runs to the outcome that Run gives, a
function of the command word and the payload alone, with STATUS.OP its CMD[2:0]; and within a bound on its steps. -/
def Obligations.CommandOutcome : Prop :=
  ∀ (s : State) (v : Byte) (x : Payload), Quiescent s →
    (reservedField v = 0#5 → opField v ≠ 0#3 → opField v ≠ 7#3 → payloadKind x = inputKind v) →
    ∃ r k t, runSpec s.config v x = some r ∧ 1 ≤ k ∧ k ≤ stepBound v x + 1 ∧
      runSteps k (offerOne v x s) = .next t ∧ resultOf t = some r ∧ t.ctl.op = opField v

/-- R220: nothing survives from one command into the next. Two blocks with the same parameters, whatever they did before, show
the host the same registers and the same response at every step from the next command's acceptance on. -/
def Obligations.NothingSurvives : Prop :=
  ∀ (s1 s2 : State) (v : Byte) (x : Payload), Quiescent s1 → Quiescent s2 → s1.config = s2.config →
    ∀ (n : Nat) (t1 : State), runSteps (n + 1) (offerOne v x s1) = .next t1 →
      ∃ t2, runSteps (n + 1) (offerOne v x s2) = .next t2 ∧
        (∀ r, readReg r t1 = readReg r t2) ∧ response t1 = response t2

/-- R183: table agreement for Encoder-made streams. After any input scanned from a fresh generation and the codes it emitted so
far decoded from one, every slot DEC holds from 257 up is the entry ENC appended there, one entry behind ENC (Lags, R182's
relation). It stays so at the code of a FLUSH, and at the three codes of an OVERFLOW: slot 65535 is the exception, where ENC
never appended and the raw byte's code makes DEC hold `w ++ [k]`, and the next code is the CLEAR that discards it. -/
def Obligations.TableAgreement : Prop :=
  ∀ ks : List Byte, ∃ e d, unitsAfter ⟨baseSlots, 257, baseRev, .empty⟩ ⟨baseSlots, 257, .empty⟩ ks = some (e, d) ∧
    TablesAgree e d ∧ Lags e d ∧
    (∀ c, flushCodes e = some [c] → ∃ d1, decAfter d [c] = some d1 ∧ TablesAgree e d1 ∧ d1.L = e.L) ∧
    (∀ (w : Str) (k : Byte) (c : Code) (e1 : Enc), e.W = .building w →
      encUnit k e = some ([c, k.zeroExtend 16, 256#16], e1) →
      ∃ d1 d2, decAfter d [c] = some d1 ∧ TablesAgree e d1 ∧ d1.L = 65535 ∧
        decAfter d [c, k.zeroExtend 16] = some d2 ∧ d2.L = 65536 ∧
        (∀ i, 257 ≤ i → i < 65535 → slotRead d2.D i = slotRead e.D i) ∧
        slotRead e.D 65535 = .absent ∧ slotRead d2.D 65535 = .data ⟨w.head, w.tail ++ [k]⟩ ∧
        decAfter d [c, k.zeroExtend 16, 256#16] = some ⟨baseSlots, 257, .empty⟩)

/-- R186: the round trip, on the machine, for every byte buffer and from every state in which it waits with unbounded
parameters. What ENCODE and COMPRESS gave is read back by DECODE and DECOMPRESS from every such state, the one the first
command ended in among them. -/
def Obligations.RoundTrip : Prop :=
  ∀ (S : List Byte) (s : State), Quiescent s → s.config.maxInUnits = none → s.config.maxOutUnits = none →
    (∃ cs, EndsAs s 3#8 (.bytes S) (.done (.codes cs)) ∧
      ∀ t : State, Quiescent t → t.config = s.config → EndsAs t 4#8 (.codes cs) (.done (.bytes S))) ∧
    (∃ b, EndsAs s 1#8 (.bytes S) (.done (.bytes b)) ∧
      ∀ t : State, Quiescent t → t.config = s.config → EndsAs t 2#8 (.bytes b) (.done (.bytes S)))

/-- R184: the concatenation law, on the machine, for a stream cut after a CLEAR, with unbounded parameters. -/
def Obligations.Concatenation : Prop :=
  ∀ (s : State) (p q : List Code) (x : List Byte), Quiescent s → s.config.maxInUnits = none →
    s.config.maxOutUnits = none → EndsAs s 4#8 (.codes (p ++ [256#16])) (.done (.bytes x)) →
    (∀ y, EndsAs s 4#8 (.codes q) (.done (.bytes y)) →
      EndsAs s 4#8 (.codes (p ++ [256#16] ++ q)) (.done (.bytes (x ++ y)))) ∧
    (∀ r, EndsAs s 4#8 (.codes q) (.faulted r) →
      EndsAs s 4#8 (.codes (p ++ [256#16] ++ q)) (.faulted { r with pos := p.length + 1 + r.pos }))

/-- Derived from 30_encoding.md section 5 (the one equivalence it states), with unbounded parameters: COMPRESS ends as ENCODE and
then PACK of its output do, and DECOMPRESS as UNPACK and then DECODE of its output do, with the same fault record where
one of the two faults. -/
def Obligations.CompoundCommands : Prop :=
  ∀ (s : State) (b : List Byte), Quiescent s → s.config.maxInUnits = none → s.config.maxOutUnits = none →
    (∃ cs out, EndsAs s 3#8 (.bytes b) (.done (.codes cs)) ∧ EndsAs s 5#8 (.codes cs) (.done out) ∧
      EndsAs s 1#8 (.bytes b) (.done out)) ∧
    ((∃ r, EndsAs s 6#8 (.bytes b) (.faulted r) ∧ EndsAs s 2#8 (.bytes b) (.faulted r)) ∨
      (∃ cs res, EndsAs s 6#8 (.bytes b) (.done (.codes cs)) ∧ EndsAs s 4#8 (.codes cs) res ∧
        EndsAs s 2#8 (.bytes b) res))
end

