-- ==== Sys2Proof/Laws/State.lean ====
section
/-! SUPPORT. One lemma per field per update, each true by rfl, so that no later proof unfolds a record update. -/

namespace Sys2Proof.Machine

/-! ### Updates of the whole state -/

@[simp] theorem State.setCtl_config (s : State) (x : Ctl) : (s.setCtl x).config = s.config := rfl
@[simp] theorem State.setCtl_ctl (s : State) (x : Ctl) : (s.setCtl x).ctl = x := rfl
@[simp] theorem State.setCtl_enc (s : State) (x : Ctl) : (s.setCtl x).enc = s.enc := rfl
@[simp] theorem State.setCtl_dec (s : State) (x : Ctl) : (s.setCtl x).dec = s.dec := rfl
@[simp] theorem State.setCtl_offered (s : State) (x : Ctl) : (s.setCtl x).offered = s.offered := rfl
@[simp] theorem State.setCtl_host (s : State) (x : Ctl) : (s.setCtl x).host = s.host := rfl

@[simp] theorem State.setEnc_config (s : State) (x : Enc) : (s.setEnc x).config = s.config := rfl
@[simp] theorem State.setEnc_ctl (s : State) (x : Enc) : (s.setEnc x).ctl = s.ctl := rfl
@[simp] theorem State.setEnc_enc (s : State) (x : Enc) : (s.setEnc x).enc = x := rfl
@[simp] theorem State.setEnc_dec (s : State) (x : Enc) : (s.setEnc x).dec = s.dec := rfl
@[simp] theorem State.setEnc_offered (s : State) (x : Enc) : (s.setEnc x).offered = s.offered := rfl
@[simp] theorem State.setEnc_host (s : State) (x : Enc) : (s.setEnc x).host = s.host := rfl

@[simp] theorem State.setDec_config (s : State) (x : Dec) : (s.setDec x).config = s.config := rfl
@[simp] theorem State.setDec_ctl (s : State) (x : Dec) : (s.setDec x).ctl = s.ctl := rfl
@[simp] theorem State.setDec_enc (s : State) (x : Dec) : (s.setDec x).enc = s.enc := rfl
@[simp] theorem State.setDec_dec (s : State) (x : Dec) : (s.setDec x).dec = x := rfl
@[simp] theorem State.setDec_offered (s : State) (x : Dec) : (s.setDec x).offered = s.offered := rfl
@[simp] theorem State.setDec_host (s : State) (x : Dec) : (s.setDec x).host = s.host := rfl

@[simp] theorem State.setHost_config (s : State) (x : List HostAct) : (s.setHost x).config = s.config := rfl
@[simp] theorem State.setHost_ctl (s : State) (x : List HostAct) : (s.setHost x).ctl = s.ctl := rfl
@[simp] theorem State.setHost_enc (s : State) (x : List HostAct) : (s.setHost x).enc = s.enc := rfl
@[simp] theorem State.setHost_dec (s : State) (x : List HostAct) : (s.setHost x).dec = s.dec := rfl
@[simp] theorem State.setHost_offered (s : State) (x : List HostAct) : (s.setHost x).offered = s.offered := rfl
@[simp] theorem State.setHost_host (s : State) (x : List HostAct) : (s.setHost x).host = x := rfl

@[simp] theorem State.setOffered_config (s : State) (x : Payload) : (s.setOffered x).config = s.config := rfl
@[simp] theorem State.setOffered_ctl (s : State) (x : Payload) : (s.setOffered x).ctl = s.ctl := rfl
@[simp] theorem State.setOffered_enc (s : State) (x : Payload) : (s.setOffered x).enc = s.enc := rfl
@[simp] theorem State.setOffered_dec (s : State) (x : Payload) : (s.setOffered x).dec = s.dec := rfl
@[simp] theorem State.setOffered_offered (s : State) (x : Payload) : (s.setOffered x).offered = x := rfl
@[simp] theorem State.setOffered_host (s : State) (x : Payload) : (s.setOffered x).host = s.host := rfl

/-! ### CTL after a fault (60_exceptions.md R238) -/

@[simp] theorem ctlFault_state (cause : Cause) (sub : BitVec 4) (pos : Nat) (code : Code) (len : Nat) (c : Ctl) :
    (ctlFault cause sub pos code len c).state = .fault := rfl
@[simp] theorem ctlFault_op (cause : Cause) (sub : BitVec 4) (pos : Nat) (code : Code) (len : Nat) (c : Ctl) :
    (ctlFault cause sub pos code len c).op = c.op := rfl
@[simp] theorem ctlFault_cause (cause : Cause) (sub : BitVec 4) (pos : Nat) (code : Code) (len : Nat) (c : Ctl) :
    (ctlFault cause sub pos code len c).cause = cause := rfl
@[simp] theorem ctlFault_subcause (cause : Cause) (sub : BitVec 4) (pos : Nat) (code : Code) (len : Nat) (c : Ctl) :
    (ctlFault cause sub pos code len c).subcause = sub := rfl
@[simp] theorem ctlFault_faultPos (cause : Cause) (sub : BitVec 4) (pos : Nat) (code : Code) (len : Nat) (c : Ctl) :
    (ctlFault cause sub pos code len c).faultPos = pos := rfl
@[simp] theorem ctlFault_faultCode (cause : Cause) (sub : BitVec 4) (pos : Nat) (code : Code) (len : Nat) (c : Ctl) :
    (ctlFault cause sub pos code len c).faultCode = code := rfl
@[simp] theorem ctlFault_faultLen (cause : Cause) (sub : BitVec 4) (pos : Nat) (code : Code) (len : Nat) (c : Ctl) :
    (ctlFault cause sub pos code len c).faultLen = BitVec.ofNat 17 len := rfl
@[simp] theorem ctlFault_outLen (cause : Cause) (sub : BitVec 4) (pos : Nat) (code : Code) (len : Nat) (c : Ctl) :
    (ctlFault cause sub pos code len c).outLen = 0 := rfl
@[simp] theorem ctlFault_input (cause : Cause) (sub : BitVec 4) (pos : Nat) (code : Code) (len : Nat) (c : Ctl) :
    (ctlFault cause sub pos code len c).input = c.input := rfl
@[simp] theorem ctlFault_mid (cause : Cause) (sub : BitVec 4) (pos : Nat) (code : Code) (len : Nat) (c : Ctl) :
    (ctlFault cause sub pos code len c).mid = c.mid := rfl
@[simp] theorem ctlFault_out (cause : Cause) (sub : BitVec 4) (pos : Nat) (code : Code) (len : Nat) (c : Ctl) :
    (ctlFault cause sub pos code len c).out = emptyPayload (payloadKind c.out) := rfl
@[simp] theorem ctlFault_pos (cause : Cause) (sub : BitVec 4) (pos : Nat) (code : Code) (len : Nat) (c : Ctl) :
    (ctlFault cause sub pos code len c).pos = c.pos := rfl
@[simp] theorem ctlFault_phase (cause : Cause) (sub : BitVec 4) (pos : Nat) (code : Code) (len : Nat) (c : Ctl) :
    (ctlFault cause sub pos code len c).phase = .none := rfl
@[simp] theorem ctlFault_src (cause : Cause) (sub : BitVec 4) (pos : Nat) (code : Code) (len : Nat) (c : Ctl) :
    (ctlFault cause sub pos code len c).src = c.src := rfl
@[simp] theorem ctlFault_snk (cause : Cause) (sub : BitVec 4) (pos : Nat) (code : Code) (len : Nat) (c : Ctl) :
    (ctlFault cause sub pos code len c).snk = c.snk := rfl

/-! ### CTL after an acceptance (44_entry_points.md R201) -/

@[simp] theorem ctlAccept_state (op : BitVec 3) (k : Kind) (x : Payload) (c : Ctl) :
    (ctlAccept op k x c).state = .busy := rfl
@[simp] theorem ctlAccept_op (op : BitVec 3) (k : Kind) (x : Payload) (c : Ctl) :
    (ctlAccept op k x c).op = op := rfl
@[simp] theorem ctlAccept_cause (op : BitVec 3) (k : Kind) (x : Payload) (c : Ctl) :
    (ctlAccept op k x c).cause = .none := rfl
@[simp] theorem ctlAccept_subcause (op : BitVec 3) (k : Kind) (x : Payload) (c : Ctl) :
    (ctlAccept op k x c).subcause = 0#4 := rfl
@[simp] theorem ctlAccept_faultPos (op : BitVec 3) (k : Kind) (x : Payload) (c : Ctl) :
    (ctlAccept op k x c).faultPos = 0 := rfl
@[simp] theorem ctlAccept_faultCode (op : BitVec 3) (k : Kind) (x : Payload) (c : Ctl) :
    (ctlAccept op k x c).faultCode = 0#16 := rfl
@[simp] theorem ctlAccept_faultLen (op : BitVec 3) (k : Kind) (x : Payload) (c : Ctl) :
    (ctlAccept op k x c).faultLen = 0#17 := rfl
@[simp] theorem ctlAccept_outLen (op : BitVec 3) (k : Kind) (x : Payload) (c : Ctl) :
    (ctlAccept op k x c).outLen = 0 := rfl
@[simp] theorem ctlAccept_input (op : BitVec 3) (k : Kind) (x : Payload) (c : Ctl) :
    (ctlAccept op k x c).input = x := rfl
@[simp] theorem ctlAccept_mid (op : BitVec 3) (k : Kind) (x : Payload) (c : Ctl) :
    (ctlAccept op k x c).mid = [] := rfl
@[simp] theorem ctlAccept_out (op : BitVec 3) (k : Kind) (x : Payload) (c : Ctl) :
    (ctlAccept op k x c).out = emptyPayload k := rfl
@[simp] theorem ctlAccept_pos (op : BitVec 3) (k : Kind) (x : Payload) (c : Ctl) :
    (ctlAccept op k x c).pos = c.pos := rfl
@[simp] theorem ctlAccept_phase (op : BitVec 3) (k : Kind) (x : Payload) (c : Ctl) :
    (ctlAccept op k x c).phase = c.phase := rfl
@[simp] theorem ctlAccept_src (op : BitVec 3) (k : Kind) (x : Payload) (c : Ctl) :
    (ctlAccept op k x c).src = c.src := rfl
@[simp] theorem ctlAccept_snk (op : BitVec 3) (k : Kind) (x : Payload) (c : Ctl) :
    (ctlAccept op k x c).snk = c.snk := rfl

/-! ### The stream fields of CTL -/

@[simp] theorem ctlSetPos_state (x : Nat) (c : Ctl) : (ctlSetPos x c).state = c.state := rfl
@[simp] theorem ctlSetPos_op (x : Nat) (c : Ctl) : (ctlSetPos x c).op = c.op := rfl
@[simp] theorem ctlSetPos_cause (x : Nat) (c : Ctl) : (ctlSetPos x c).cause = c.cause := rfl
@[simp] theorem ctlSetPos_subcause (x : Nat) (c : Ctl) : (ctlSetPos x c).subcause = c.subcause := rfl
@[simp] theorem ctlSetPos_faultPos (x : Nat) (c : Ctl) : (ctlSetPos x c).faultPos = c.faultPos := rfl
@[simp] theorem ctlSetPos_faultCode (x : Nat) (c : Ctl) : (ctlSetPos x c).faultCode = c.faultCode := rfl
@[simp] theorem ctlSetPos_faultLen (x : Nat) (c : Ctl) : (ctlSetPos x c).faultLen = c.faultLen := rfl
@[simp] theorem ctlSetPos_outLen (x : Nat) (c : Ctl) : (ctlSetPos x c).outLen = c.outLen := rfl
@[simp] theorem ctlSetPos_input (x : Nat) (c : Ctl) : (ctlSetPos x c).input = c.input := rfl
@[simp] theorem ctlSetPos_mid (x : Nat) (c : Ctl) : (ctlSetPos x c).mid = c.mid := rfl
@[simp] theorem ctlSetPos_out (x : Nat) (c : Ctl) : (ctlSetPos x c).out = c.out := rfl
@[simp] theorem ctlSetPos_pos (x : Nat) (c : Ctl) : (ctlSetPos x c).pos = x := rfl
@[simp] theorem ctlSetPos_phase (x : Nat) (c : Ctl) : (ctlSetPos x c).phase = c.phase := rfl
@[simp] theorem ctlSetPos_src (x : Nat) (c : Ctl) : (ctlSetPos x c).src = c.src := rfl
@[simp] theorem ctlSetPos_snk (x : Nat) (c : Ctl) : (ctlSetPos x c).snk = c.snk := rfl
@[simp] theorem ctlSetOut_state (x : Payload) (c : Ctl) : (ctlSetOut x c).state = c.state := rfl
@[simp] theorem ctlSetOut_op (x : Payload) (c : Ctl) : (ctlSetOut x c).op = c.op := rfl
@[simp] theorem ctlSetOut_cause (x : Payload) (c : Ctl) : (ctlSetOut x c).cause = c.cause := rfl
@[simp] theorem ctlSetOut_subcause (x : Payload) (c : Ctl) : (ctlSetOut x c).subcause = c.subcause := rfl
@[simp] theorem ctlSetOut_faultPos (x : Payload) (c : Ctl) : (ctlSetOut x c).faultPos = c.faultPos := rfl
@[simp] theorem ctlSetOut_faultCode (x : Payload) (c : Ctl) : (ctlSetOut x c).faultCode = c.faultCode := rfl
@[simp] theorem ctlSetOut_faultLen (x : Payload) (c : Ctl) : (ctlSetOut x c).faultLen = c.faultLen := rfl
@[simp] theorem ctlSetOut_outLen (x : Payload) (c : Ctl) : (ctlSetOut x c).outLen = c.outLen := rfl
@[simp] theorem ctlSetOut_input (x : Payload) (c : Ctl) : (ctlSetOut x c).input = c.input := rfl
@[simp] theorem ctlSetOut_mid (x : Payload) (c : Ctl) : (ctlSetOut x c).mid = c.mid := rfl
@[simp] theorem ctlSetOut_out (x : Payload) (c : Ctl) : (ctlSetOut x c).out = x := rfl
@[simp] theorem ctlSetOut_pos (x : Payload) (c : Ctl) : (ctlSetOut x c).pos = c.pos := rfl
@[simp] theorem ctlSetOut_phase (x : Payload) (c : Ctl) : (ctlSetOut x c).phase = c.phase := rfl
@[simp] theorem ctlSetOut_src (x : Payload) (c : Ctl) : (ctlSetOut x c).src = c.src := rfl
@[simp] theorem ctlSetOut_snk (x : Payload) (c : Ctl) : (ctlSetOut x c).snk = c.snk := rfl
@[simp] theorem ctlSetMid_state (x : List Code) (c : Ctl) : (ctlSetMid x c).state = c.state := rfl
@[simp] theorem ctlSetMid_op (x : List Code) (c : Ctl) : (ctlSetMid x c).op = c.op := rfl
@[simp] theorem ctlSetMid_cause (x : List Code) (c : Ctl) : (ctlSetMid x c).cause = c.cause := rfl
@[simp] theorem ctlSetMid_subcause (x : List Code) (c : Ctl) : (ctlSetMid x c).subcause = c.subcause := rfl
@[simp] theorem ctlSetMid_faultPos (x : List Code) (c : Ctl) : (ctlSetMid x c).faultPos = c.faultPos := rfl
@[simp] theorem ctlSetMid_faultCode (x : List Code) (c : Ctl) : (ctlSetMid x c).faultCode = c.faultCode := rfl
@[simp] theorem ctlSetMid_faultLen (x : List Code) (c : Ctl) : (ctlSetMid x c).faultLen = c.faultLen := rfl
@[simp] theorem ctlSetMid_outLen (x : List Code) (c : Ctl) : (ctlSetMid x c).outLen = c.outLen := rfl
@[simp] theorem ctlSetMid_input (x : List Code) (c : Ctl) : (ctlSetMid x c).input = c.input := rfl
@[simp] theorem ctlSetMid_mid (x : List Code) (c : Ctl) : (ctlSetMid x c).mid = x := rfl
@[simp] theorem ctlSetMid_out (x : List Code) (c : Ctl) : (ctlSetMid x c).out = c.out := rfl
@[simp] theorem ctlSetMid_pos (x : List Code) (c : Ctl) : (ctlSetMid x c).pos = c.pos := rfl
@[simp] theorem ctlSetMid_phase (x : List Code) (c : Ctl) : (ctlSetMid x c).phase = c.phase := rfl
@[simp] theorem ctlSetMid_src (x : List Code) (c : Ctl) : (ctlSetMid x c).src = c.src := rfl
@[simp] theorem ctlSetMid_snk (x : List Code) (c : Ctl) : (ctlSetMid x c).snk = c.snk := rfl

@[simp] theorem setCtl_self (s : State) : s.setCtl s.ctl = s := rfl
@[simp] theorem setCtl_setCtl (s : State) (a b : Ctl) : (s.setCtl a).setCtl b = s.setCtl b := rfl
@[simp] theorem ctlSetOut_ctlSetOut (x y : Payload) (c : Ctl) : ctlSetOut y (ctlSetOut x c) = ctlSetOut y c := rfl
@[simp] theorem ctlSetMid_ctlSetMid (x y : List Code) (c : Ctl) : ctlSetMid y (ctlSetMid x c) = ctlSetMid y c := rfl
theorem ctlSetOut_self (c : Ctl) : ctlSetOut c.out c = c := rfl
theorem ctlSetMid_self (c : Ctl) : ctlSetMid c.mid c = c := rfl

/-! ### Reading, entering a phase, completing -/

@[simp] theorem advance_ctl_state (s : State) : (advance s).ctl.state = s.ctl.state := rfl
@[simp] theorem advance_ctl_op (s : State) : (advance s).ctl.op = s.ctl.op := rfl
@[simp] theorem advance_ctl_cause (s : State) : (advance s).ctl.cause = s.ctl.cause := rfl
@[simp] theorem advance_ctl_subcause (s : State) : (advance s).ctl.subcause = s.ctl.subcause := rfl
@[simp] theorem advance_ctl_faultPos (s : State) : (advance s).ctl.faultPos = s.ctl.faultPos := rfl
@[simp] theorem advance_ctl_faultCode (s : State) : (advance s).ctl.faultCode = s.ctl.faultCode := rfl
@[simp] theorem advance_ctl_faultLen (s : State) : (advance s).ctl.faultLen = s.ctl.faultLen := rfl
@[simp] theorem advance_ctl_outLen (s : State) : (advance s).ctl.outLen = s.ctl.outLen := rfl
@[simp] theorem advance_ctl_input (s : State) : (advance s).ctl.input = s.ctl.input := rfl
@[simp] theorem advance_ctl_mid (s : State) : (advance s).ctl.mid = s.ctl.mid := rfl
@[simp] theorem advance_ctl_out (s : State) : (advance s).ctl.out = s.ctl.out := rfl
@[simp] theorem advance_ctl_pos (s : State) : (advance s).ctl.pos = s.ctl.pos + 1 := rfl
@[simp] theorem advance_ctl_phase (s : State) : (advance s).ctl.phase = s.ctl.phase := rfl
@[simp] theorem advance_ctl_src (s : State) : (advance s).ctl.src = s.ctl.src := rfl
@[simp] theorem advance_ctl_snk (s : State) : (advance s).ctl.snk = s.ctl.snk := rfl
@[simp] theorem advance_config (s : State) : (advance s).config = s.config := rfl
@[simp] theorem advance_enc (s : State) : (advance s).enc = s.enc := rfl
@[simp] theorem advance_dec (s : State) : (advance s).dec = s.dec := rfl
@[simp] theorem advance_offered (s : State) : (advance s).offered = s.offered := rfl
@[simp] theorem advance_host (s : State) : (advance s).host = s.host := rfl
@[simp] theorem enterPhase_ctl_state (p : Phase) (src : Source) (snk : Sink) (s : State) :
    (enterPhase p src snk s).ctl.state = s.ctl.state := rfl
@[simp] theorem enterPhase_ctl_op (p : Phase) (src : Source) (snk : Sink) (s : State) :
    (enterPhase p src snk s).ctl.op = s.ctl.op := rfl
@[simp] theorem enterPhase_ctl_cause (p : Phase) (src : Source) (snk : Sink) (s : State) :
    (enterPhase p src snk s).ctl.cause = s.ctl.cause := rfl
@[simp] theorem enterPhase_ctl_subcause (p : Phase) (src : Source) (snk : Sink) (s : State) :
    (enterPhase p src snk s).ctl.subcause = s.ctl.subcause := rfl
@[simp] theorem enterPhase_ctl_faultPos (p : Phase) (src : Source) (snk : Sink) (s : State) :
    (enterPhase p src snk s).ctl.faultPos = s.ctl.faultPos := rfl
@[simp] theorem enterPhase_ctl_faultCode (p : Phase) (src : Source) (snk : Sink) (s : State) :
    (enterPhase p src snk s).ctl.faultCode = s.ctl.faultCode := rfl
@[simp] theorem enterPhase_ctl_faultLen (p : Phase) (src : Source) (snk : Sink) (s : State) :
    (enterPhase p src snk s).ctl.faultLen = s.ctl.faultLen := rfl
@[simp] theorem enterPhase_ctl_outLen (p : Phase) (src : Source) (snk : Sink) (s : State) :
    (enterPhase p src snk s).ctl.outLen = s.ctl.outLen := rfl
@[simp] theorem enterPhase_ctl_input (p : Phase) (src : Source) (snk : Sink) (s : State) :
    (enterPhase p src snk s).ctl.input = s.ctl.input := rfl
@[simp] theorem enterPhase_ctl_mid (p : Phase) (src : Source) (snk : Sink) (s : State) :
    (enterPhase p src snk s).ctl.mid = s.ctl.mid := rfl
@[simp] theorem enterPhase_ctl_out (p : Phase) (src : Source) (snk : Sink) (s : State) :
    (enterPhase p src snk s).ctl.out = s.ctl.out := rfl
@[simp] theorem enterPhase_ctl_pos (p : Phase) (src : Source) (snk : Sink) (s : State) :
    (enterPhase p src snk s).ctl.pos = s.ctl.pos := rfl
@[simp] theorem enterPhase_ctl_phase (p : Phase) (src : Source) (snk : Sink) (s : State) :
    (enterPhase p src snk s).ctl.phase = p := rfl
@[simp] theorem enterPhase_ctl_src (p : Phase) (src : Source) (snk : Sink) (s : State) :
    (enterPhase p src snk s).ctl.src = src := rfl
@[simp] theorem enterPhase_ctl_snk (p : Phase) (src : Source) (snk : Sink) (s : State) :
    (enterPhase p src snk s).ctl.snk = snk := rfl
@[simp] theorem enterPhase_config (p : Phase) (src : Source) (snk : Sink) (s : State) :
    (enterPhase p src snk s).config = s.config := rfl
@[simp] theorem enterPhase_enc (p : Phase) (src : Source) (snk : Sink) (s : State) :
    (enterPhase p src snk s).enc = s.enc := rfl
@[simp] theorem enterPhase_dec (p : Phase) (src : Source) (snk : Sink) (s : State) :
    (enterPhase p src snk s).dec = s.dec := rfl
@[simp] theorem enterPhase_offered (p : Phase) (src : Source) (snk : Sink) (s : State) :
    (enterPhase p src snk s).offered = s.offered := rfl
@[simp] theorem enterPhase_host (p : Phase) (src : Source) (snk : Sink) (s : State) :
    (enterPhase p src snk s).host = s.host := rfl
@[simp] theorem rewind_ctl_state (s : State) : (rewind s).ctl.state = s.ctl.state := rfl
@[simp] theorem rewind_ctl_op (s : State) : (rewind s).ctl.op = s.ctl.op := rfl
@[simp] theorem rewind_ctl_cause (s : State) : (rewind s).ctl.cause = s.ctl.cause := rfl
@[simp] theorem rewind_ctl_subcause (s : State) : (rewind s).ctl.subcause = s.ctl.subcause := rfl
@[simp] theorem rewind_ctl_faultPos (s : State) : (rewind s).ctl.faultPos = s.ctl.faultPos := rfl
@[simp] theorem rewind_ctl_faultCode (s : State) : (rewind s).ctl.faultCode = s.ctl.faultCode := rfl
@[simp] theorem rewind_ctl_faultLen (s : State) : (rewind s).ctl.faultLen = s.ctl.faultLen := rfl
@[simp] theorem rewind_ctl_outLen (s : State) : (rewind s).ctl.outLen = s.ctl.outLen := rfl
@[simp] theorem rewind_ctl_input (s : State) : (rewind s).ctl.input = s.ctl.input := rfl
@[simp] theorem rewind_ctl_mid (s : State) : (rewind s).ctl.mid = s.ctl.mid := rfl
@[simp] theorem rewind_ctl_out (s : State) : (rewind s).ctl.out = s.ctl.out := rfl
@[simp] theorem rewind_ctl_pos (s : State) : (rewind s).ctl.pos = 0 := rfl
@[simp] theorem rewind_ctl_phase (s : State) : (rewind s).ctl.phase = s.ctl.phase := rfl
@[simp] theorem rewind_ctl_src (s : State) : (rewind s).ctl.src = s.ctl.src := rfl
@[simp] theorem rewind_ctl_snk (s : State) : (rewind s).ctl.snk = s.ctl.snk := rfl
@[simp] theorem rewind_config (s : State) : (rewind s).config = s.config := rfl
@[simp] theorem rewind_enc (s : State) : (rewind s).enc = s.enc := rfl
@[simp] theorem rewind_dec (s : State) : (rewind s).dec = s.dec := rfl
@[simp] theorem rewind_offered (s : State) : (rewind s).offered = s.offered := rfl
@[simp] theorem rewind_host (s : State) : (rewind s).host = s.host := rfl
@[simp] theorem complete_ctl_state (s : State) : (complete s).ctl.state = .done := rfl
@[simp] theorem complete_ctl_op (s : State) : (complete s).ctl.op = s.ctl.op := rfl
@[simp] theorem complete_ctl_cause (s : State) : (complete s).ctl.cause = s.ctl.cause := rfl
@[simp] theorem complete_ctl_subcause (s : State) : (complete s).ctl.subcause = s.ctl.subcause := rfl
@[simp] theorem complete_ctl_faultPos (s : State) : (complete s).ctl.faultPos = s.ctl.faultPos := rfl
@[simp] theorem complete_ctl_faultCode (s : State) : (complete s).ctl.faultCode = s.ctl.faultCode := rfl
@[simp] theorem complete_ctl_faultLen (s : State) : (complete s).ctl.faultLen = s.ctl.faultLen := rfl
@[simp] theorem complete_ctl_outLen (s : State) : (complete s).ctl.outLen = payloadLength s.ctl.out := rfl
@[simp] theorem complete_ctl_input (s : State) : (complete s).ctl.input = s.ctl.input := rfl
@[simp] theorem complete_ctl_mid (s : State) : (complete s).ctl.mid = s.ctl.mid := rfl
@[simp] theorem complete_ctl_out (s : State) : (complete s).ctl.out = s.ctl.out := rfl
@[simp] theorem complete_ctl_pos (s : State) : (complete s).ctl.pos = s.ctl.pos := rfl
@[simp] theorem complete_ctl_phase (s : State) : (complete s).ctl.phase = .none := rfl
@[simp] theorem complete_ctl_src (s : State) : (complete s).ctl.src = s.ctl.src := rfl
@[simp] theorem complete_ctl_snk (s : State) : (complete s).ctl.snk = s.ctl.snk := rfl
@[simp] theorem complete_config (s : State) : (complete s).config = s.config := rfl
@[simp] theorem complete_enc (s : State) : (complete s).enc = s.enc := rfl
@[simp] theorem complete_dec (s : State) : (complete s).dec = s.dec := rfl
@[simp] theorem complete_offered (s : State) : (complete s).offered = s.offered := rfl
@[simp] theorem complete_host (s : State) : (complete s).host = s.host := rfl

/-! ### The units -/

@[simp] theorem encBuild_D (e : Enc) : (encBuild e).D = slotBuild := rfl
@[simp] theorem encBuild_L (e : Enc) : (encBuild e).L = 257 := rfl
@[simp] theorem encBuild_R (e : Enc) : (encBuild e).R = revBuild := rfl
@[simp] theorem encBuild_W (e : Enc) : (encBuild e).W = e.W := rfl
@[simp] theorem decBuild_D (d : Dec) : (decBuild d).D = slotBuild := rfl
@[simp] theorem decBuild_L (d : Dec) : (decBuild d).L = 257 := rfl
@[simp] theorem decBuild_W (d : Dec) : (decBuild d).W = d.W := rfl
@[simp] theorem encAppend_D (s : Str) (e : Enc) : (encAppend s e).D = slotWrite e.D e.L (.data s) := rfl
@[simp] theorem encAppend_L (s : Str) (e : Enc) : (encAppend s e).L = e.L + 1 := rfl
@[simp] theorem encAppend_R (s : Str) (e : Enc) : (encAppend s e).R = revPut e.R s e.L := rfl
@[simp] theorem encAppend_W (s : Str) (e : Enc) : (encAppend s e).W = e.W := rfl
@[simp] theorem decAppend_D (s : Str) (d : Dec) : (decAppend s d).D = slotWrite d.D d.L (.data s) := rfl
@[simp] theorem decAppend_L (s : Str) (d : Dec) : (decAppend s d).L = d.L + 1 := rfl
@[simp] theorem decAppend_W (s : Str) (d : Dec) : (decAppend s d).W = d.W := rfl

/-- A fresh generation with an empty match is one value, whatever stood before (40_dictionary_builder.md R100, 41_encoder.md R120). -/
theorem encStart_eq_reset (e : Enc) : encStart e = Enc.reset := rfl

/-- OVERFLOW leaves the unit as EncStart does (41_encoder.md R120, R124). -/
theorem encOverflow_eq_reset (e : Enc) : encOverflow e = Enc.reset := rfl

/-- CLEAR and DecStart leave the unit in one value, whatever stood before (43_decoder.md R170, R172). -/
theorem decFresh_eq_reset (d : Dec) : decFresh d = Dec.reset := rfl

/-! ### Sequencing -/

@[simp] theorem andThen_go (s : State) (k : State → Eff) : (Eff.go s).andThen k = k s := rfl
@[simp] theorem andThen_raised (s : State) (k : State → Eff) : (Eff.raised s).andThen k = .raised s := rfl
@[simp] theorem andThen_stuck (r : Fault) (k : State → Eff) : (Eff.stuck r).andThen k = .stuck r := rfl
@[simp] theorem toOutcome_go (s : State) : (Eff.go s).toOutcome = .next s := rfl
@[simp] theorem toOutcome_raised (s : State) : (Eff.raised s).toOutcome = .next s := rfl
@[simp] theorem toOutcome_stuck (r : Fault) : (Eff.stuck r).toOutcome = .fault r := rfl

/-- Sequencing associates. -/
theorem andThen_assoc (e : Eff) (k l : State → Eff) : (e.andThen k).andThen l = e.andThen (fun s => (k s).andThen l) := by
  cases e <;> rfl

/-! ### Payloads -/

@[simp] theorem payloadKind_emptyPayload (k : Kind) : payloadKind (emptyPayload k) = k := by cases k <;> rfl
@[simp] theorem payloadLength_emptyPayload (k : Kind) : payloadLength (emptyPayload k) = 0 := by cases k <;> rfl
@[simp] theorem payloadKind_bytes (b : List Byte) : payloadKind (.bytes b) = .bytes := rfl
@[simp] theorem payloadKind_codes (c : List Code) : payloadKind (.codes c) = .codes := rfl
@[simp] theorem payloadLength_bytes (b : List Byte) : payloadLength (.bytes b) = b.length := rfl
@[simp] theorem payloadLength_codes (c : List Code) : payloadLength (.codes c) = c.length := rfl

/-- A payload of bytes is a list of bytes. -/
theorem eq_bytes_of_kind (x : Payload) (h : payloadKind x = .bytes) : ∃ l, x = .bytes l := by
  cases x with
  | bytes l => exact ⟨l, rfl⟩
  | codes l => cases h

/-- A payload of codes is a list of codes. -/
theorem eq_codes_of_kind (x : Payload) (h : payloadKind x = .codes) : ∃ l, x = .codes l := by
  cases x with
  | bytes l => cases h
  | codes l => exact ⟨l, rfl⟩

end Sys2Proof.Machine
end

