-- ==== Sys2Proof/Laws/Dictionary.lean ====
section
/-! SUPPORT. What the dictionary's slots and the reverse index do: read after write, the canonical form, and the values
after a Build. -/

namespace Sys2Proof.Machine

/-! ### Slots -/

@[simp] theorem slotRead_nil (i : Nat) : slotRead [] i = .absent := rfl

theorem slotRead_cons (j i : Nat) (e : Entry) (t : Slots) :
    slotRead ((j, e) :: t) i = if j = i then e else slotRead t i := rfl

/-- Every index listed is above `i`. -/
def slotsAbove (i : Nat) (m : Slots) : Prop := ∀ p ∈ m, i < p.1

/-- An index below every listed one reads as Absent. -/
theorem slotRead_of_above (m : Slots) (i k : Nat) (h : slotsAbove i m) (hk : k ≤ i) : slotRead m k = .absent := by
  induction m with
  | nil => rfl
  | cons p t ih =>
    obtain ⟨j, e⟩ := p
    have hj : i < j := h (j, e) (by simp)
    rw [slotRead_cons, if_neg (by omega)]
    exact ih (fun q hq => h q (by simp [hq]))

/-- The canonical form, taken apart: the head is not Absent, the tail lies above it and is canonical itself. -/
theorem slotsWf_cons (i : Nat) (e : Entry) (t : Slots) :
    slotsWf ((i, e) :: t) = true ↔ e ≠ .absent ∧ slotsAbove i t ∧ slotsWf t = true := by
  induction t generalizing i e with
  | nil => simp [slotsWf, slotsAbove]
  | cons p t ih =>
    obtain ⟨j, x⟩ := p
    have h1 : slotsWf ((i, e) :: (j, x) :: t) = true ↔ e ≠ .absent ∧ i < j ∧ slotsWf ((j, x) :: t) = true := by
      rw [slotsWf]
      simp [and_assoc]
    rw [h1]
    constructor
    · rintro ⟨he, hij, hw⟩
      refine ⟨he, ?_, hw⟩
      intro q hq
      rcases List.mem_cons.1 hq with rfl | hq
      · exact hij
      · exact lt_trans hij (((ih j x).1 hw).2.1 q hq)
    · rintro ⟨he, ha, hw⟩
      exact ⟨he, ha (j, x) (by simp), hw⟩

/-- Read after write. -/
theorem slotRead_slotWrite (m : Slots) (i k : Nat) (e : Entry) (h : slotsWf m = true) :
    slotRead (slotWrite m i e) k = if k = i then e else slotRead m k := by
  induction m with
  | nil =>
    by_cases he : e = .absent
    · simp [slotWrite, he]
    · by_cases hk : k = i
      · simp [slotWrite, he, slotRead_cons, hk]
      · simp [slotWrite, he, slotRead_cons, hk, Ne.symm hk]
  | cons p t ih =>
    obtain ⟨j, x⟩ := p
    obtain ⟨hx, ha, hw⟩ := (slotsWf_cons j x t).1 h
    have ih := ih hw
    unfold slotWrite
    by_cases h1 : i < j
    · rw [if_pos h1]
      by_cases he : e = .absent
      · rw [if_pos he]
        by_cases hk : k = i
        · subst hk
          rw [if_pos rfl, he, slotRead_cons, if_neg (by omega)]
          exact slotRead_of_above t j k ha (by omega)
        · rw [if_neg hk]
      · rw [if_neg he, slotRead_cons]
        by_cases hk : k = i
        · simp [hk]
        · rw [if_neg (Ne.symm hk), if_neg hk]
    · rw [if_neg h1]
      by_cases h2 : i = j
      · subst h2
        rw [if_pos rfl]
        by_cases he : e = .absent
        · rw [if_pos he]
          by_cases hk : k = i
          · subst hk
            rw [if_pos rfl, he]
            exact slotRead_of_above t k k ha (le_refl k)
          · rw [if_neg hk, slotRead_cons, if_neg (Ne.symm hk)]
        · rw [if_neg he, slotRead_cons, slotRead_cons]
          by_cases hk : k = i
          · simp [hk]
          · rw [if_neg (Ne.symm hk), if_neg hk, if_neg (Ne.symm hk)]
      · rw [if_neg h2, slotRead_cons, slotRead_cons, ih]
        by_cases hk : k = i
        · subst hk
          rw [if_neg (Ne.symm h2), if_pos rfl, if_pos rfl]
        · rw [if_neg hk, if_neg hk]

/-- A write keeps every listed index above a bound below the written one. -/
theorem slotsAbove_slotWrite (m : Slots) (b i : Nat) (e : Entry) (h : slotsAbove b m) (hb : b < i) :
    slotsAbove b (slotWrite m i e) := by
  induction m with
  | nil =>
    by_cases he : e = .absent
    · simp [slotWrite, he, slotsAbove]
    · simpa [slotWrite, he, slotsAbove] using hb
  | cons p t ih =>
    obtain ⟨j, x⟩ := p
    have hj : b < j := h (j, x) (by simp)
    have ht : slotsAbove b t := fun q hq => h q (by simp [hq])
    have ih := ih ht
    unfold slotWrite
    split
    · split
      · exact h
      · intro q hq
        rcases List.mem_cons.1 hq with rfl | hq
        · exact hb
        · exact h q hq
    · split
      · split
        · exact ht
        · intro q hq
          rcases List.mem_cons.1 hq with rfl | hq
          · exact hb
          · exact ht q hq
      · intro q hq
        rcases List.mem_cons.1 hq with rfl | hq
        · exact hj
        · exact ih q hq

/-- A write keeps the canonical form. -/
theorem slotsWf_slotWrite (m : Slots) (i : Nat) (e : Entry) (h : slotsWf m = true) :
    slotsWf (slotWrite m i e) = true := by
  induction m with
  | nil => by_cases he : e = .absent <;> simp [slotWrite, he, slotsWf]
  | cons p t ih =>
    obtain ⟨j, x⟩ := p
    obtain ⟨hx, ha, hw⟩ := (slotsWf_cons j x t).1 h
    unfold slotWrite
    split
    · rename_i h1
      split
      · exact h
      · rename_i he
        refine (slotsWf_cons i e _).2 ⟨he, ?_, h⟩
        intro q hq
        rcases List.mem_cons.1 hq with rfl | hq
        · exact h1
        · exact lt_trans h1 (ha q hq)
    · split
      · rename_i h1 h2
        subst h2
        split
        · exact hw
        · rename_i he
          exact (slotsWf_cons i e t).2 ⟨he, ha, hw⟩
      · rename_i h1 h2
        exact (slotsWf_cons j x _).2 ⟨hx, slotsAbove_slotWrite t j i e ha (by omega), ih hw⟩

/-! ### The slots after a Build -/

theorem slotRead_range (a n : Nat) (g : Nat → Entry) (t : Slots) (i : Nat) :
    slotRead ((List.range' a n).map (fun j => (j, g j)) ++ t) i =
      if a ≤ i ∧ i < a + n then g i else slotRead t i := by
  induction n generalizing a with
  | zero => simp
  | succ n ih =>
    simp only [List.range'_succ, List.map_cons, List.cons_append, slotRead_cons, ih]
    by_cases h : a = i
    · subst h; simp
    · rw [if_neg h]
      by_cases h2 : a + 1 ≤ i ∧ i < a + 1 + n
      · rw [if_pos h2, if_pos (by omega)]
      · rw [if_neg h2, if_neg (by omega)]

theorem baseSlots_eq : baseSlots =
    (List.range' 0 256).map (fun i => (i, Entry.data (Str.single (BitVec.ofNat 8 i)))) ++ [(256, Entry.reserved)] := by
  rw [baseSlots, List.range_eq_range']

/-- What each slot holds after a Build (40_dictionary_builder.md R100). -/
theorem slotRead_baseSlots (i : Nat) : slotRead baseSlots i =
    if i < 256 then .data (Str.single (BitVec.ofNat 8 i)) else if i = 256 then .reserved else .absent := by
  rw [baseSlots_eq, slotRead_range]
  by_cases h : i < 256
  · simp [h]
  · rw [if_neg (by omega), if_neg h, slotRead_cons]
    by_cases h2 : i = 256
    · simp [h2]
    · rw [if_neg (Ne.symm h2), if_neg h2, slotRead_nil]

theorem slotsWf_range (a n : Nat) (g : Nat → Entry) (t : Slots) (hg : ∀ i, g i ≠ .absent)
    (ht : slotsWf t = true) (ha : ∀ p ∈ t, a + n ≤ p.1) :
    slotsWf ((List.range' a n).map (fun j => (j, g j)) ++ t) = true := by
  induction n generalizing a with
  | zero => simpa using ht
  | succ n ih =>
    simp only [List.range'_succ, List.map_cons, List.cons_append]
    refine (slotsWf_cons _ _ _).2 ⟨hg a, ?_, ih (a + 1) (fun p hp => by have := ha p hp; omega)⟩
    intro p hp
    rcases List.mem_append.1 hp with hp | hp
    · obtain ⟨j, hj, rfl⟩ := List.mem_map.1 hp
      have := (List.mem_range'_1.1 hj).1
      simp only
      omega
    · have := ha p hp
      omega

/-- The slots after a Build are in canonical form. -/
theorem slotsWf_baseSlots : slotsWf baseSlots = true := by
  rw [baseSlots_eq]
  refine slotsWf_range 0 256 _ _ (by intro i; simp) (by simp [slotsWf]) ?_
  intro p hp
  simp only [List.mem_singleton] at hp
  subst hp
  simp

/-! ### The reverse index -/

/-- Without repeated keys, a lookup finds exactly the pairs that are listed. -/
theorem revLookup_eq_some_iff (m : RevIndex) (h : (m.map Prod.fst).Nodup) (s : Str) (i : Nat) :
    revLookup m s = some i ↔ (s, i) ∈ m := by
  induction m with
  | nil => simp [revLookup]
  | cons p t ih =>
    obtain ⟨k, j⟩ := p
    simp only [List.map_cons, List.nodup_cons] at h
    unfold revLookup
    by_cases hk : k = s
    · subst hk
      simp only [if_true, List.mem_cons, Prod.mk.injEq, true_and, Option.some.injEq]
      constructor
      · intro e; exact Or.inl e.symm
      · rintro (e | e)
        · exact e.symm
        · exact absurd (List.mem_map.2 ⟨(k, i), e, rfl⟩) h.1
    · rw [if_neg hk, ih h.2]
      simp [Ne.symm hk]

/-- Lookup after a put. -/
theorem revLookup_revPut (m : RevIndex) (s k : Str) (i : Nat) :
    revLookup (revPut m s i) k = if k = s then some i else revLookup m k := by
  induction m with
  | nil =>
    by_cases h : k = s
    · simp [revPut, revLookup, h]
    · simp [revPut, revLookup, h, Ne.symm h]
  | cons p t ih =>
    obtain ⟨q, j⟩ := p
    unfold revPut
    by_cases hq : q = s
    · subst hq
      rw [if_pos rfl]
      by_cases h : k = q
      · simp [revLookup, h]
      · simp [revLookup, h, Ne.symm h]
    · rw [if_neg hq]
      by_cases h : q = k
      · subst h
        simp [revLookup, hq]
      · simp only [revLookup, if_neg h, ih]

theorem ofNat8_inj {i j : Nat} (hi : i < 256) (hj : j < 256) (h : BitVec.ofNat 8 i = BitVec.ofNat 8 j) : i = j := by
  have := congrArg BitVec.toNat h
  simp only [BitVec.toNat_ofNat] at this
  omega

theorem baseRev_nodup : (baseRev.map Prod.fst).Nodup := by
  rw [baseRev, List.map_map]
  refine List.Nodup.map_on ?_ List.nodup_range
  intro i hi j hj h
  rw [List.mem_range] at hi hj
  simp only [Function.comp, Str.single, Str.mk.injEq, and_true] at h
  exact ofNat8_inj hi hj h

/-- The keys after a Build are the one-byte strings, each its own index (40_dictionary_builder.md R100, R105). -/
theorem revLookup_baseRev (s : Str) (i : Nat) :
    revLookup baseRev s = some i ↔ i < 256 ∧ s = Str.single (BitVec.ofNat 8 i) := by
  rw [revLookup_eq_some_iff _ baseRev_nodup, baseRev]
  simp only [List.mem_map, List.mem_range, Prod.mk.injEq]
  constructor
  · rintro ⟨j, hj, rfl, rfl⟩; exact ⟨hj, rfl⟩
  · rintro ⟨hi, rfl⟩; exact ⟨i, hi, rfl, rfl⟩

/-- `RevLookup([b]) = some(b)` right after a Build (40_dictionary_builder.md R105). -/
theorem revLookup_baseRev_single (b : Byte) : revLookup baseRev (Str.single b) = some b.toNat :=
  (revLookup_baseRev _ _).2 ⟨b.isLt, by simp⟩

end Sys2Proof.Machine
end

