-- ==== Sys2Proof/Laws/Units.lean ====
section
/-! SUPPORT. What one scan step does to ENC and what one code does to DEC, said once each, and that both keep their unit's
invariant. -/

namespace Sys2Proof.Machine

/-! ### A fresh generation -/

theorem dictInv_base : DictInv baseSlots 257 where
  canonical := slotsWf_baseSlots
  literal := by intro i hi; rw [slotRead_baseSlots, if_pos hi]
  clearSlot := by simp [slotRead_baseSlots]
  appended := by intro i h1 h2; omega
  unused := by intro i hi; rw [slotRead_baseSlots, if_neg (by omega), if_neg (by omega)]
  baseLe := le_refl _
  leCapacity := by decide

theorem prefixClosed_base : PrefixClosed baseSlots 257 := by
  intro i h1 h2; omega

/-- ENC after a Build with an empty match meets its invariant (40_dictionary_builder.md R100). -/
theorem encInv_reset : EncInv Enc.reset where
  dict := dictInv_base
  belowCapacity := by decide
  inverse := by
    intro s i
    show revLookup baseRev s = some i ↔ i < 257 ∧ i ≠ 256 ∧ slotRead baseSlots i = .data s
    rw [revLookup_baseRev, slotRead_baseSlots]
    constructor
    · rintro ⟨hi, rfl⟩
      exact ⟨by omega, by omega, by rw [if_pos hi]⟩
    · rintro ⟨h1, h2, h3⟩
      have hi : i < 256 := by omega
      rw [if_pos hi] at h3
      exact ⟨hi, (Entry.data.inj h3).symm⟩
  matchKnown := by intro w h; cases h
  prefixes := prefixClosed_base

/-- DEC after a Build with an empty match meets its invariant (40_dictionary_builder.md R100). -/
theorem decInv_reset : DecInv Dec.reset where
  dict := dictInv_base
  matchStored := by intro w h; cases h
  emptyFresh := by intro _; rfl
  prefixes := prefixClosed_base

/-! ### Appending -/

/-- What slot `i` holds after an append (40_dictionary_builder.md R104). -/
theorem slotRead_append {D : Slots} {L : Nat} (h : DictInv D L) (s : Str) (i : Nat) :
    slotRead (slotWrite D L (.data s)) i = if i = L then .data s else slotRead D i :=
  slotRead_slotWrite D L i _ h.canonical

/-- An append below the capacity keeps the generation invariant (10_state.md R24). -/
theorem dictInv_append {D : Slots} {L : Nat} (h : DictInv D L) (hL : L < 65536) (s : Str) :
    DictInv (slotWrite D L (.data s)) (L + 1) where
  canonical := slotsWf_slotWrite D L _ h.canonical
  literal := by
    intro i hi
    have hb : 257 ≤ L := h.baseLe
    rw [slotRead_append h, if_neg (by omega)]; exact h.literal i hi
  clearSlot := by
    have hb : 257 ≤ L := h.baseLe
    rw [slotRead_append h, if_neg (by omega)]; exact h.clearSlot
  appended := by
    intro i h1 h2
    rw [slotRead_append h]
    by_cases hi : i = L
    · exact ⟨s, by rw [if_pos hi]⟩
    · rw [if_neg hi]; exact h.appended i h1 (by omega)
  unused := by
    intro i hi
    rw [slotRead_append h, if_neg (by omega)]; exact h.unused i (by omega)
  baseLe := by have hb : 257 ≤ L := h.baseLe; show 257 ≤ L + 1; omega
  leCapacity := hL

/-- An append of an entry with one byte more keeps the dictionary prefix-closed (10_state.md R43). -/
theorem prefixClosed_append {D : Slots} {L : Nat} (h : DictInv D L) (hp : PrefixClosed D L) {j : Nat} {p : Str} (b : Byte)
    (hj : j < L) (hc : j ≠ 256) (hd : slotRead D j = .data p) :
    PrefixClosed (slotWrite D L (.data (strSnoc p b))) (L + 1) := by
  intro i h1 h2
  by_cases hi : i = L
  · subst hi
    exact ⟨j, p, b, hj, hc, by rw [slotRead_append h, if_neg (by omega), hd], by rw [slotRead_append h, if_pos rfl]⟩
  · obtain ⟨j', p', b', hj', hc', hd', he'⟩ := hp i h1 (by omega)
    exact ⟨j', p', b', hj', hc', by rw [slotRead_append h, if_neg (by omega), hd'], by rw [slotRead_append h, if_neg hi, he']⟩

/-! ### ENC -/

/-- Every one-byte string is found in every generation (40_dictionary_builder.md R105). -/
theorem EncInv.lookup_single {e : Enc} (h : EncInv e) (b : Byte) : revLookup e.R (Str.single b) = some b.toNat := by
  have hb := b.isLt
  have h257 : 257 ≤ e.L := h.dict.baseLe
  refine (h.inverse _ _).2 ⟨by omega, by omega, ?_⟩
  rw [h.dict.literal _ (by omega)]
  simp

/-- With an Empty match the candidate is found: the first byte of a generation is an EXTEND (41_encoder.md R122, R125). -/
theorem EncInv.empty_extends {e : Enc} (h : EncInv e) (hw : e.W = .empty) (k : Byte) :
    revLookup e.R (candidate e.W k) = some k.toNat := by
  rw [hw]; exact h.lookup_single k

/-- The index of a Building match (10_state.md R29). -/
theorem EncInv.match_index {e : Enc} (h : EncInv e) {w : Str} (hw : e.W = .building w) :
    ∃ i, revLookup e.R w = some i ∧ i < e.L ∧ i ≠ 256 ∧ slotRead e.D i = .data w := by
  cases hr : revLookup e.R w with
  | none => exact absurd hr (h.matchKnown w hw)
  | some i => exact ⟨i, rfl, (h.inverse w i).1 hr⟩

/-- The code of a Building match (10_state.md R29). -/
theorem EncInv.matchCode_eq {e : Enc} (h : EncInv e) {w : Str} (hw : e.W = .building w) :
    ∃ i, matchCode e = some (BitVec.ofNat 16 i) ∧ revLookup e.R w = some i ∧ i < e.L ∧ i ≠ 256 ∧
      slotRead e.D i = .data w := by
  obtain ⟨i, hr, h1, h2, h3⟩ := h.match_index hw
  exact ⟨i, by simp [matchCode, hw, hr], hr, h1, h2, h3⟩

/-- Everything one scan step can do (41_encoder.md R121 to R124): EXTEND, MISS or OVERFLOW. -/
theorem encUnit_cases {e : Enc} (h : EncInv e) (k : Byte) :
    ((∃ i, revLookup e.R (candidate e.W k) = some i) ∧
      encUnit k e = some ([], encExtend (candidate e.W k) e)) ∨
    (∃ w i, e.W = .building w ∧ revLookup e.R w = some i ∧ i < e.L ∧ i ≠ 256 ∧ slotRead e.D i = .data w ∧
      revLookup e.R (strSnoc w k) = none ∧
      ((e.L + 1 < 65536 ∧ encUnit k e = some ([BitVec.ofNat 16 i], encMiss (strSnoc w k) k e)) ∨
       (e.L + 1 = 65536 ∧ encUnit k e = some ([BitVec.ofNat 16 i, litCode k, clearCode], Enc.reset)))) := by
  cases hc : revLookup e.R (candidate e.W k) with
  | some i => exact Or.inl ⟨⟨i, rfl⟩, by simp [encUnit, hc]⟩
  | none =>
    right
    cases hw : e.W with
    | empty => rw [h.empty_extends hw k] at hc; cases hc
    | building w =>
      obtain ⟨i, hm, hr, h1, h2, h3⟩ := h.matchCode_eq hw
      rw [hw] at hc
      refine ⟨w, i, rfl, hr, h1, h2, h3, hc, ?_⟩
      have hL : e.L < 65536 := h.belowCapacity
      by_cases ho : e.L + 1 = 65536
      · right
        refine ⟨ho, ?_⟩
        have hc' : revLookup e.R (candidate (.building w) k) = none := hc
        simp only [encUnit, hw, hc', hm, Config.capacity, if_pos ho]
        rfl
      · left
        refine ⟨by omega, ?_⟩
        have hc' : revLookup e.R (candidate (.building w) k) = none := hc
        simp only [encUnit, hw, hc', hm, Config.capacity, if_neg ho]
        rfl

/-- EXTEND keeps the invariant of ENC. -/
theorem EncInv.extend {e : Enc} (h : EncInv e) {cand : Str} {i : Nat} (hc : revLookup e.R cand = some i) :
    EncInv (encExtend cand e) where
  dict := h.dict
  belowCapacity := h.belowCapacity
  inverse := h.inverse
  matchKnown := by
    intro w hw
    have : cand = w := Match.building.inj hw
    subst this
    show revLookup e.R cand ≠ none
    rw [hc]; simp
  prefixes := h.prefixes

/-- MISS keeps the invariant of ENC. -/
theorem EncInv.miss {e : Enc} (h : EncInv e) {w : Str} {i : Nat} (k : Byte) (h1 : i < e.L) (h2 : i ≠ 256)
    (h3 : slotRead e.D i = .data w) (hn : revLookup e.R (strSnoc w k) = none) (hL : e.L + 1 < 65536) :
    EncInv (encMiss (strSnoc w k) k e) where
  dict := dictInv_append h.dict (by omega) _
  belowCapacity := hL
  inverse := by
    intro s j
    have h257 : 257 ≤ e.L := h.dict.baseLe
    show revLookup (revPut e.R (strSnoc w k) e.L) s = some j ↔
      j < e.L + 1 ∧ j ≠ 256 ∧ slotRead (slotWrite e.D e.L (.data (strSnoc w k))) j = .data s
    rw [revLookup_revPut, slotRead_append h.dict]
    by_cases hs : s = strSnoc w k
    · subst hs
      rw [if_pos rfl]
      constructor
      · intro hj
        obtain rfl := Option.some.inj hj
        exact ⟨by omega, by omega, by rw [if_pos rfl]⟩
      · rintro ⟨hj1, hj2, hj3⟩
        by_cases hj : j = e.L
        · rw [hj]
        · rw [if_neg hj] at hj3
          have := (h.inverse (strSnoc w k) j).2 ⟨by omega, hj2, hj3⟩
          rw [hn] at this; cases this
    · rw [if_neg hs, h.inverse]
      constructor
      · rintro ⟨hj1, hj2, hj3⟩
        exact ⟨by omega, hj2, by rw [if_neg (by omega)]; exact hj3⟩
      · rintro ⟨hj1, hj2, hj3⟩
        by_cases hj : j = e.L
        · rw [if_pos hj] at hj3
          exact absurd (Entry.data.inj hj3).symm hs
        · rw [if_neg hj] at hj3
          exact ⟨by omega, hj2, hj3⟩
  matchKnown := by
    intro v hv
    have : Str.single k = v := Match.building.inj hv
    subst this
    show revLookup (revPut e.R (strSnoc w k) e.L) (Str.single k) ≠ none
    rw [revLookup_revPut]
    split
    · simp
    · rw [h.lookup_single]; simp
  prefixes := prefixClosed_append h.dict h.prefixes k h1 h2 h3

/-- A scan step never gets stuck and keeps the invariant of ENC. -/
theorem encUnit_inv {e : Enc} (h : EncInv e) (k : Byte) : ∃ cs e1, encUnit k e = some (cs, e1) ∧ EncInv e1 := by
  rcases encUnit_cases h k with ⟨⟨i, hi⟩, he⟩ | ⟨w, i, hw, hr, h1, h2, h3, hn, (⟨hL, he⟩ | ⟨_, he⟩)⟩
  · exact ⟨_, _, he, h.extend hi⟩
  · exact ⟨_, _, he, h.miss k h1 h2 h3 hn hL⟩
  · exact ⟨_, _, he, encInv_reset⟩

/-- FLUSH never gets stuck (41_encoder.md R126). -/
theorem flushCodes_cases {e : Enc} (h : EncInv e) :
    (e.W = .empty ∧ flushCodes e = some []) ∨
    (∃ w i, e.W = .building w ∧ revLookup e.R w = some i ∧ i < e.L ∧ i ≠ 256 ∧ slotRead e.D i = .data w ∧
      flushCodes e = some [BitVec.ofNat 16 i]) := by
  cases hw : e.W with
  | empty => exact Or.inl ⟨rfl, by simp [flushCodes, hw]⟩
  | building w =>
    obtain ⟨i, hm, hr, h1, h2, h3⟩ := h.matchCode_eq hw
    exact Or.inr ⟨w, i, rfl, hr, h1, h2, h3, by simp [flushCodes, hw, hm]⟩

/-! ### DEC -/

/-- A code below DEC.L that is not CLEAR has a Data entry (40_dictionary_builder.md R103). -/
theorem DecInv.slot_data {d : Dec} (h : DecInv d) {i : Nat} (h1 : i < d.L) (h2 : i ≠ 256) :
    ∃ s, slotRead d.D i = .data s := by
  by_cases hi : i < 256
  · exact ⟨_, h.dict.literal i hi⟩
  · exact h.dict.appended i (by omega) h1

/-- A slot that holds Data is not the CLEAR slot and lies below the next free index. -/
theorem DictInv.data_index {D : Slots} {L i : Nat} {s : Str} (h : DictInv D L) (hd : slotRead D i = .data s) :
    i < L ∧ i ≠ 256 := by
  constructor
  · by_contra hn
    rw [h.unused i (by omega)] at hd; cases hd
  · rintro rfl
    rw [h.clearSlot] at hd; cases hd

theorem toNat_clearCode : clearCode.toNat = 256 := rfl

theorem toNat_ne_clear {c : Code} (h : c ≠ clearCode) : c.toNat ≠ 256 := by
  intro hn
  exact h (BitVec.eq_of_toNat_eq (by rw [hn, toNat_clearCode]))

/-- Everything the Building half of the dispatch can do (43_decoder.md R175 to R178). -/
theorem decBuilding_cases {d : Dec} (h : DecInv d) {c : Code} (hc : c ≠ clearCode) (w : Str) :
    (d.L < c.toNat ∧ decBuilding c w d = .malformed 1#4) ∨
    (c.toNat ≤ d.L ∧ d.L = 65536 ∧ decBuilding c w d = .malformed 3#4) ∨
    (c.toNat < d.L ∧ d.L < 65536 ∧ ∃ e, slotRead d.D c.toNat = .data e ∧
      decBuilding c w d = .emits (strBytes e) { decAppend (strSnoc w e.head) d with W := .building e }) ∨
    (c.toNat = d.L ∧ d.L < 65536 ∧
      decBuilding c w d = .emits (strBytes (strSnoc w w.head))
        { decAppend (strSnoc w w.head) d with W := .building (strSnoc w w.head) }) := by
  have hcap : d.L ≤ 65536 := h.dict.leCapacity
  unfold decBuilding
  by_cases h1 : d.L < c.toNat
  · exact Or.inl ⟨h1, by rw [if_pos h1]⟩
  · rw [if_neg h1]
    by_cases h2 : d.L = 65536
    · exact Or.inr (Or.inl ⟨by omega, h2, by rw [if_pos h2]⟩)
    · rw [if_neg h2]
      by_cases h3 : c.toNat < d.L
      · obtain ⟨e, he⟩ := h.slot_data h3 (toNat_ne_clear hc)
        refine Or.inr (Or.inr (Or.inl ⟨h3, by omega, e, he, ?_⟩))
        rw [if_pos h3, decDirect, he]
      · refine Or.inr (Or.inr (Or.inr ⟨by omega, by omega, ?_⟩))
        rw [if_neg h3]
        rfl

/-- A DIRECT step keeps the invariant of DEC. -/
theorem DecInv.direct {d : Dec} (h : DecInv d) {w e : Str} {i : Nat} (hw : d.W = .building w)
    (he : slotRead d.D i = .data e) (hi : i < d.L) (hL : d.L < 65536) (b : Byte) :
    DecInv { decAppend (strSnoc w b) d with W := .building e } := by
  obtain ⟨j, hj, hd⟩ := h.matchStored w hw
  refine ⟨dictInv_append h.dict hL _, ?_, ?_,
    prefixClosed_append h.dict h.prefixes b hj (h.dict.data_index hd).2 hd⟩
  · intro v hv
    have : e = v := Match.building.inj hv
    subst this
    refine ⟨i, Nat.lt_succ_of_lt hi, ?_⟩
    show slotRead (slotWrite d.D d.L (.data (strSnoc w b))) i = .data e
    rw [slotRead_append h.dict, if_neg (by omega)]
    exact he
  · intro hv; cases hv

/-- A WELCH step keeps the invariant of DEC. -/
theorem DecInv.welch {d : Dec} (h : DecInv d) {w : Str} (hw : d.W = .building w) (hL : d.L < 65536) (b : Byte) :
    DecInv { decAppend (strSnoc w b) d with W := .building (strSnoc w b) } := by
  obtain ⟨j, hj, hd⟩ := h.matchStored w hw
  refine ⟨dictInv_append h.dict hL _, ?_, ?_,
    prefixClosed_append h.dict h.prefixes b hj (h.dict.data_index hd).2 hd⟩
  · intro v hv
    have : strSnoc w b = v := Match.building.inj hv
    subst this
    refine ⟨d.L, Nat.lt_succ_self _, ?_⟩
    show slotRead (slotWrite d.D d.L (.data (strSnoc w b))) d.L = .data (strSnoc w b)
    rw [slotRead_append h.dict, if_pos rfl]
  · intro hv; cases hv

/-- A START step keeps the invariant of DEC. -/
theorem DecInv.start {d : Dec} (h : DecInv d) (b : Byte) : DecInv { d with W := .building (Str.single b) } := by
  refine ⟨h.dict, ?_, ?_, h.prefixes⟩
  · intro v hv
    have : Str.single b = v := Match.building.inj hv
    subst this
    have hb := b.isLt
    have h257 : 257 ≤ d.L := h.dict.baseLe
    refine ⟨b.toNat, by show b.toNat < d.L; omega, ?_⟩
    show slotRead d.D b.toNat = _
    rw [h.dict.literal _ (by omega)]
    simp
  · intro hv; cases hv

/-- The Building half keeps the invariant of DEC and never gets stuck. -/
theorem decBuilding_inv {d : Dec} (h : DecInv d) {c : Code} (hc : c ≠ clearCode) {w : Str} (hw : d.W = .building w) :
    (∃ out d1, decBuilding c w d = .emits out d1 ∧ DecInv d1) ∨
    (∃ sub, decBuilding c w d = .malformed sub ∧ (sub = 1#4 ∨ sub = 2#4 ∨ sub = 3#4)) := by
  rcases decBuilding_cases h hc w with ⟨_, he⟩ | ⟨_, _, he⟩ | ⟨h1, h2, e, hd, he⟩ | ⟨_, h2, he⟩
  · exact Or.inr ⟨_, he, by simp⟩
  · exact Or.inr ⟨_, he, by simp⟩
  · exact Or.inl ⟨_, _, he, h.direct hw hd h1 h2 _⟩
  · exact Or.inl ⟨_, _, he, h.welch hw h2 _⟩

theorem litCode_toNat (b : Byte) : (litCode b).toNat = b.toNat := by
  have := b.isLt
  simp only [litCode, BitVec.toNat_setWidth, BitVec.zeroExtend]
  omega

theorem litCode_ne_clear (b : Byte) : litCode b ≠ clearCode := by
  intro h
  have h1 := congrArg BitVec.toNat h
  rw [litCode_toNat, toNat_clearCode] at h1
  have := b.isLt
  omega

/-- A literal at DEC keeps its invariant and never gets stuck. -/
theorem decLit_inv {d : Dec} (h : DecInv d) (b : Byte) :
    (∃ out d1, decLit b d = .emits out d1 ∧ DecInv d1) ∨
    (∃ sub, decLit b d = .malformed sub ∧ (sub = 1#4 ∨ sub = 2#4 ∨ sub = 3#4)) := by
  cases hw : d.W with
  | empty => exact Or.inl ⟨[b], _, by rw [decLit, hw]; rfl, h.start b⟩
  | building w =>
    have := decBuilding_inv h (litCode_ne_clear b) hw
    simpa only [decLit, hw] using this

/-- A reference at DEC keeps its invariant and never gets stuck. -/
theorem decRef_inv {d : Dec} (h : DecInv d) {c : Code} (hc : c ≠ clearCode) :
    (∃ out d1, decRef c d = .emits out d1 ∧ DecInv d1) ∨
    (∃ sub, decRef c d = .malformed sub ∧ (sub = 1#4 ∨ sub = 2#4 ∨ sub = 3#4)) := by
  cases hw : d.W with
  | empty => exact Or.inr ⟨2#4, by rw [decRef, hw], by simp⟩
  | building w =>
    have := decBuilding_inv h hc hw
    simpa only [decRef, hw] using this

/-- The whole dispatch keeps the invariant of DEC and never gets stuck (43_decoder.md R171). -/
theorem decDispatch_inv {d : Dec} (h : DecInv d) (c : Code) :
    (∃ out d1, decDispatch c d = .emits out d1 ∧ DecInv d1) ∨
    (∃ sub, decDispatch c d = .malformed sub ∧ (sub = 1#4 ∨ sub = 2#4 ∨ sub = 3#4)) := by
  unfold decDispatch
  by_cases hc : c = clearCode
  · rw [if_pos hc]
    exact Or.inl ⟨[], _, rfl, decInv_reset⟩
  · rw [if_neg hc]
    cases hw : d.W with
    | empty =>
      simp only
      split
      · exact Or.inl ⟨_, _, rfl, h.start _⟩
      · exact Or.inr ⟨_, rfl, by simp⟩
    | building w => exact decBuilding_inv h hc hw

end Sys2Proof.Machine
end

