-- ==== Sys2Proof/Laws/Streams.lean ====
section
/-! SUPPORT. What the stream primitives do: InNext, and OutWrite of one unit and of several (44_entry_points.md R206, R207). -/

namespace Sys2Proof.Machine

/-! ### Bounds -/

@[simp] theorem exceeds_none (n : Nat) : exceeds n none = false := rfl

theorem exceeds_some (n m : Nat) : exceeds n (some m) = true ↔ m < n := by simp [exceeds]

/-- A bound passed by a length is passed by every longer one. -/
theorem exceeds_mono {n k : Nat} {limit : Option Nat} (h : n ≤ k) (hn : exceeds k limit = false) :
    exceeds n limit = false := by
  cases limit with
  | none => rfl
  | some m => simp only [exceeds, decide_eq_false_iff_not, not_lt] at hn ⊢; omega

/-! ### InNext -/

/-- InNext of a byte: the source is a byte buffer that has a byte at CTL.POS, and only CTL.POS changes. -/
theorem inByte_eq_some (s s1 : State) (b : Byte) :
    inByte s = some (b, s1) ↔ byteAt s.ctl.pos (sourcePayload s.ctl) = some b ∧ s1 = advance s := by
  unfold inByte
  cases byteAt s.ctl.pos (sourcePayload s.ctl) <;> simp [eq_comm]

/-- InNext of a code: the source is a code stream that has a code at CTL.POS, and only CTL.POS changes. -/
theorem inCode_eq_some (s s1 : State) (c : Code) :
    inCode s = some (c, s1) ↔ codeAt s.ctl.pos (sourcePayload s.ctl) = some c ∧ s1 = advance s := by
  unfold inCode
  cases codeAt s.ctl.pos (sourcePayload s.ctl) <;> simp [eq_comm]

/-- A byte source has a byte at every position below its length. -/
theorem byteAt_of_lt {x : Payload} {p : Nat} (hk : payloadKind x = .bytes) (h : p < payloadLength x) :
    ∃ b, byteAt p x = some b := by
  obtain ⟨l, rfl⟩ := eq_bytes_of_kind x hk
  exact ⟨l[p], by simp only [byteAt]; exact List.getElem?_eq_getElem h⟩

/-- A code source has a code at every position below its length. -/
theorem codeAt_of_lt {x : Payload} {p : Nat} (hk : payloadKind x = .codes) (h : p < payloadLength x) :
    ∃ c, codeAt p x = some c := by
  obtain ⟨l, rfl⟩ := eq_codes_of_kind x hk
  exact ⟨l[p], by simp only [codeAt]; exact List.getElem?_eq_getElem h⟩

theorem atEnd_iff (c : Ctl) : atEnd c = true ↔ c.pos = payloadLength (sourcePayload c) := by simp [atEnd]

theorem atEnd_false_iff (c : Ctl) : atEnd c = false ↔ c.pos ≠ payloadLength (sourcePayload c) := by simp [atEnd]

/-! ### OutWrite -/

/-- Raising a fault does not depend on the units already in CTL.OUT, only on their kind (60_exceptions.md R238). -/
theorem raise_out (cause : Cause) (sub : BitVec 4) (pos : Nat) (code : Code) (len : Nat) (s : State) (x : Payload)
    (h : payloadKind x = payloadKind s.ctl.out) :
    raise cause sub pos code len (s.setCtl (ctlSetOut x s.ctl)) = raise cause sub pos code len s := by
  simp [raise, ctlFault, ctlSetOut, h]

/-- OutWrite of bytes that stay within the bound: they are appended, in order, and nothing else changes. -/
theorem outBytes_fits (xs l : List Byte) (s : State) (hs : s.ctl.snk = .out) (ho : s.ctl.out = .bytes l)
    (hf : exceeds (l.length + xs.length) s.config.maxOutUnits = false) :
    outBytes xs s = .go (s.setCtl (ctlSetOut (.bytes (l ++ xs)) s.ctl)) := by
  induction xs generalizing l s with
  | nil => rw [List.append_nil, ← ho]; rfl
  | cons x xs ih =>
    have h1 : exceeds (l.length + 1) s.config.maxOutUnits = false :=
      exceeds_mono (by simp) hf
    have h2 := ih (l ++ [x]) (s.setCtl (ctlSetOut (.bytes (l ++ [x])) s.ctl)) hs rfl
      (by simpa [Nat.add_assoc, Nat.add_comm 1] using hf)
    simpa [outBytes, outByte, hs, ho, h1] using h2

/-- OutWrite of bytes that pass the bound: LIMIT_EXCEEDED at the first one that does not fit (44_entry_points.md R207). -/
theorem outBytes_over (xs l : List Byte) (s : State) (m : Nat) (hs : s.ctl.snk = .out) (ho : s.ctl.out = .bytes l)
    (hm : s.config.maxOutUnits = some m) (hl : l.length ≤ m) (hf : m < l.length + xs.length) :
    outBytes xs s = raise .limitExceeded 2#4 m 0#16 0 s := by
  induction xs generalizing l s with
  | nil => simp at hf; omega
  | cons x xs ih =>
    by_cases h1 : l.length = m
    · subst h1
      have h2 : exceeds (l.length + 1) (some l.length) = true := (exceeds_some _ _).2 (by omega)
      simp [outBytes, outByte, hs, ho, hm, h2, raise]
    · have h2 : exceeds (l.length + 1) (some m) = false := by simp [exceeds]; omega
      have h3 := ih (l ++ [x]) (s.setCtl (ctlSetOut (.bytes (l ++ [x])) s.ctl)) hs rfl hm
          (by simp; omega) (by simp at hf ⊢; omega)
      rw [raise_out _ _ _ _ _ s _ (by rw [ho]; rfl)] at h3
      simpa [outBytes, outByte, hs, ho, hm, h2] using h3

/-- Everything OutWrite of bytes to CTL.OUT can do. -/
theorem outBytes_cases (xs l : List Byte) (s : State) (hs : s.ctl.snk = .out) (ho : s.ctl.out = .bytes l) :
    outBytes xs s = .go (s.setCtl (ctlSetOut (.bytes (l ++ xs)) s.ctl)) ∨
    ∃ n, outBytes xs s = raise .limitExceeded 2#4 n 0#16 0 s := by
  induction xs generalizing l s with
  | nil => left; rw [List.append_nil, ← ho]; rfl
  | cons x xs ih =>
    cases h1 : exceeds (l.length + 1) s.config.maxOutUnits with
    | true => exact Or.inr ⟨l.length, by simp [outBytes, outByte, hs, ho, h1, raise]⟩
    | false =>
      rcases ih (l ++ [x]) (s.setCtl (ctlSetOut (.bytes (l ++ [x])) s.ctl)) hs rfl with h | ⟨n, h⟩
      · left; simpa [outBytes, outByte, hs, ho, h1] using h
      · right
        rw [raise_out _ _ _ _ _ s _ (by rw [ho]; rfl)] at h
        exact ⟨n, by simpa [outBytes, outByte, hs, ho, h1] using h⟩

/-- OutWrite of codes that stay within the bound: they are appended, in order, and nothing else changes. -/
theorem outCodes_fits (xs l : List Code) (s : State) (hs : s.ctl.snk = .out) (ho : s.ctl.out = .codes l)
    (hf : exceeds (l.length + xs.length) s.config.maxOutUnits = false) :
    outCodes xs s = .go (s.setCtl (ctlSetOut (.codes (l ++ xs)) s.ctl)) := by
  induction xs generalizing l s with
  | nil => rw [List.append_nil, ← ho]; rfl
  | cons x xs ih =>
    have h1 : exceeds (l.length + 1) s.config.maxOutUnits = false :=
      exceeds_mono (by simp) hf
    have h2 := ih (l ++ [x]) (s.setCtl (ctlSetOut (.codes (l ++ [x])) s.ctl)) hs rfl
      (by simpa [Nat.add_assoc, Nat.add_comm 1] using hf)
    simpa [outCodes, outCode, hs, ho, h1] using h2

/-- OutWrite of codes that pass the bound: LIMIT_EXCEEDED at the first one that does not fit (44_entry_points.md R207). -/
theorem outCodes_over (xs l : List Code) (s : State) (m : Nat) (hs : s.ctl.snk = .out) (ho : s.ctl.out = .codes l)
    (hm : s.config.maxOutUnits = some m) (hl : l.length ≤ m) (hf : m < l.length + xs.length) :
    outCodes xs s = raise .limitExceeded 2#4 m 0#16 0 s := by
  induction xs generalizing l s with
  | nil => simp at hf; omega
  | cons x xs ih =>
    by_cases h1 : l.length = m
    · subst h1
      have h2 : exceeds (l.length + 1) (some l.length) = true := (exceeds_some _ _).2 (by omega)
      simp [outCodes, outCode, hs, ho, hm, h2, raise]
    · have h2 : exceeds (l.length + 1) (some m) = false := by simp [exceeds]; omega
      have h3 := ih (l ++ [x]) (s.setCtl (ctlSetOut (.codes (l ++ [x])) s.ctl)) hs rfl hm
          (by simp; omega) (by simp at hf ⊢; omega)
      rw [raise_out _ _ _ _ _ s _ (by rw [ho]; rfl)] at h3
      simpa [outCodes, outCode, hs, ho, hm, h2] using h3

/-- Everything OutWrite of codes to CTL.OUT can do. -/
theorem outCodes_cases (xs l : List Code) (s : State) (hs : s.ctl.snk = .out) (ho : s.ctl.out = .codes l) :
    outCodes xs s = .go (s.setCtl (ctlSetOut (.codes (l ++ xs)) s.ctl)) ∨
    ∃ n, outCodes xs s = raise .limitExceeded 2#4 n 0#16 0 s := by
  induction xs generalizing l s with
  | nil => left; rw [List.append_nil, ← ho]; rfl
  | cons x xs ih =>
    cases h1 : exceeds (l.length + 1) s.config.maxOutUnits with
    | true => exact Or.inr ⟨l.length, by simp [outCodes, outCode, hs, ho, h1, raise]⟩
    | false =>
      rcases ih (l ++ [x]) (s.setCtl (ctlSetOut (.codes (l ++ [x])) s.ctl)) hs rfl with h | ⟨n, h⟩
      · left; simpa [outCodes, outCode, hs, ho, h1] using h
      · right
        rw [raise_out _ _ _ _ _ s _ (by rw [ho]; rfl)] at h
        exact ⟨n, by simpa [outCodes, outCode, hs, ho, h1] using h⟩

/-- OutWrite of codes to CTL.MID: they are appended, whatever the bounds (60_exceptions.md R236). -/
theorem outCodes_mid (cs : List Code) (s : State) (hs : s.ctl.snk = .mid) :
    outCodes cs s = .go (s.setCtl (ctlSetMid (s.ctl.mid ++ cs) s.ctl)) := by
  induction cs generalizing s with
  | nil => rw [List.append_nil]; rfl
  | cons c cs ih =>
    have h := ih (s.setCtl (ctlSetMid (s.ctl.mid ++ [c]) s.ctl)) hs
    simpa [outCodes, outCode, hs] using h

/-- A single byte is a list of one. -/
theorem outByte_eq (b : Byte) (s : State) : outByte b s = outBytes [b] s := by
  simp only [outBytes]
  cases outByte b s <;> rfl

/-- Two bytes in a row are a list of two. -/
theorem outByte_pair (a b : Byte) (s : State) : (outByte a s).andThen (outByte b) = outBytes [a, b] s := by
  simp only [outBytes]
  cases outByte a s with
  | go s1 => simp only [andThen_go]; cases outByte b s1 <;> rfl
  | raised s1 => rfl
  | stuck r => rfl

/-- A single code is a list of one. -/
theorem outCode_eq (c : Code) (s : State) : outCode c s = outCodes [c] s := by
  simp only [outCodes]
  cases outCode c s <;> rfl

end Sys2Proof.Machine
end

