-- ==== Sys2Proof/Laws/Invariant.lean ====
section
/-! SUPPORT. The pieces of the machine's invariant: each operation a step is made of keeps it and never gets stuck. -/

namespace Sys2Proof.Machine

/-! ### The phases a command can be in (44_entry_points.md R208 to R213) -/

theorem legal_encode (op : BitVec 3) (src : Source) (snk : Sink) : phaseLegal op .encode src snk = true ↔
    src = .input ∧ ((op = opCompress ∧ snk = .mid) ∨ (op = opEncode ∧ snk = .out)) := by
  cases src <;> cases snk <;> simp [phaseLegal]

theorem legal_pack (op : BitVec 3) (src : Source) (snk : Sink) : phaseLegal op .pack src snk = true ↔
    snk = .out ∧ ((op = opCompress ∧ src = .mid) ∨ (op = opPack ∧ src = .input)) := by
  cases src <;> cases snk <;> simp [phaseLegal]

theorem legal_unpack (op : BitVec 3) (src : Source) (snk : Sink) : phaseLegal op .unpack src snk = true ↔
    src = .input ∧ ((op = opDecompress ∧ snk = .mid) ∨ (op = opUnpack ∧ snk = .out)) := by
  cases src <;> cases snk <;> simp [phaseLegal]

theorem legal_decode (op : BitVec 3) (src : Source) (snk : Sink) : phaseLegal op .decode src snk = true ↔
    snk = .out ∧ ((op = opDecompress ∧ src = .mid) ∨ (op = opDecode ∧ src = .input)) := by
  cases src <;> cases snk <;> simp [phaseLegal]

theorem legal_not_none (op : BitVec 3) (src : Source) (snk : Sink) : phaseLegal op .none src snk = false := by
  cases src <;> cases snk <;> simp [phaseLegal]

/-! ### The status fields -/

/-- While BUSY the fault record and OUT_LEN are 0 (44_entry_points.md R201, R218). -/
theorem statusInv_of_busy {c : Ctl} (hs : c.state = .busy) (h1 : c.cause = .none) (h2 : c.subcause = 0#4)
    (h3 : c.faultPos = 0) (h4 : c.faultCode = 0#16) (h5 : c.faultLen = 0#17) (h6 : c.outLen = 0) : StatusInv c where
  phaseNone := by intro h; exact absurd hs h
  listed := by rw [h1, h2]; rfl
  noFault := by intro _; exact ⟨h1, h2, h3, h4, h5⟩
  isFault := by intro h; rw [hs] at h; cases h
  outLen := by rw [hs, h6]; simp
  faultLenRange := by left; rw [h5]; rfl
  doneKind := by intro h; rw [hs] at h; cases h

/-- A fault entry leaves the status fields legal, whatever stood before (60_exceptions.md R231, R238). -/
theorem statusInv_ctlFault {cause : Cause} {sub : BitVec 4} {len : Nat} (hc : cause ≠ .none)
    (hl : causeListed cause sub = true) (hlen : len = 0 ∨ (257 ≤ len ∧ len ≤ 65536)) (pos : Nat) (code : Code) (c : Ctl) :
    StatusInv (ctlFault cause sub pos code len c) where
  phaseNone := by intro _; rfl
  listed := hl
  noFault := by intro h; exact absurd rfl h
  isFault := by intro _; exact ⟨hc, payloadLength_emptyPayload _⟩
  outLen := by simp
  faultLenRange := by
    rcases hlen with rfl | ⟨h1, h2⟩
    · left; rfl
    · right
      simp only [ctlFault_faultLen, BitVec.toNat_ofNat]
      rw [Nat.mod_eq_of_lt (by omega)]
      exact ⟨h1, h2⟩
  doneKind := by intro h; cases h

/-- A fault entry keeps the invariant of the whole machine (60_exceptions.md R238). -/
theorem inv_raised {s : State} (he : EncInv s.enc) (hd : DecInv s.dec) {cause : Cause} {sub : BitVec 4} {len : Nat}
    (hc : cause ≠ .none) (hl : causeListed cause sub = true) (hlen : len = 0 ∨ (257 ≤ len ∧ len ≤ 65536))
    (pos : Nat) (code : Code) : Inv (s.setCtl (ctlFault cause sub pos code len s.ctl)) where
  enc := he
  dec := hd
  busy := by intro h; cases h
  status := statusInv_ctlFault hc hl hlen pos code s.ctl

/-- A step that goes on while BUSY: the position, the sinks and the units may change, within the invariant. -/
theorem inv_continue {s : State} (h : Inv s) (hb : s.ctl.state = .busy) {e : Enc} {d : Dec} (he : EncInv e) (hd : DecInv d)
    (m : List Code) (o : Payload) (p : Nat) (ho : payloadKind o = payloadKind s.ctl.out)
    (hm : m = s.ctl.mid ∨ s.ctl.src = .input) (hp : p ≤ payloadLength (sourcePayload s.ctl))
    (hq : s.ctl.phase = .unpack → p % 2 = 0) :
    Inv (((s.setCtl (ctlSetMid m (ctlSetOut o (ctlSetPos p s.ctl)))).setEnc e).setDec d) := by
  have hB := h.busy hb
  have hS := h.status
  have hnf := hS.noFault (by rw [hb]; simp)
  have hsrc : sourcePayload (ctlSetMid m (ctlSetOut o (ctlSetPos p s.ctl))) = sourcePayload s.ctl := by
    rcases hm with rfl | hi
    · rfl
    · simp [sourcePayload, hi]
  refine ⟨he, hd, fun _ => ⟨hB.legal, hB.inKind, ?_, ?_, ?_⟩, ?_⟩
  · simpa [ho] using hB.outKind
  · simpa [hsrc] using hp
  · intro hu
    have hu' : s.ctl.phase = .unpack := by simpa using hu
    simpa [hsrc] using ⟨(hB.pairs hu').1, hq hu'⟩
  · refine statusInv_of_busy (by simpa using hb) ?_ ?_ ?_ ?_ ?_ ?_
    · simpa using hnf.1
    · simpa using hnf.2.1
    · simpa using hnf.2.2.1
    · simpa using hnf.2.2.2.1
    · simpa using hnf.2.2.2.2
    · have := hS.outLen
      rw [hb] at this
      simpa using this

/-- A BUSY machine that meets the invariant enters a phase of its command. -/
theorem inv_enter {s : State} (h : Inv s) (hb : s.ctl.state = .busy) {d : Dec} (hd : DecInv d) {ph : Phase} {src : Source}
    {snk : Sink} (hl : phaseLegal s.ctl.op ph src snk = true) (hu : ph ≠ .unpack) :
    Inv ((rewind (enterPhase ph src snk s)).setDec d) := by
  have hB := h.busy hb
  have hS := h.status
  have hnf := hS.noFault (by rw [hb]; simp)
  refine ⟨h.enc, hd, fun _ => ⟨by simpa using hl, by simpa using hB.inKind, by simpa using hB.outKind, by simp, ?_⟩, ?_⟩
  · intro he
    exact absurd (by simpa using he) hu
  · refine statusInv_of_busy (by simpa using hb) ?_ ?_ ?_ ?_ ?_ ?_
    · simpa using hnf.1
    · simpa using hnf.2.1
    · simpa using hnf.2.2.1
    · simpa using hnf.2.2.2.1
    · simpa using hnf.2.2.2.2
    · have := hS.outLen
      rw [hb] at this
      simpa using this

/-- Completion keeps the invariant (44_entry_points.md R215). -/
theorem inv_complete {s : State} (h : Inv s) (hb : s.ctl.state = .busy) : Inv (complete s) := by
  have hB := h.busy hb
  have hS := h.status
  have hnf := hS.noFault (by rw [hb]; simp)
  refine ⟨h.enc, h.dec, ?_, ?_⟩
  · intro hc; cases hc
  · refine ⟨fun _ => rfl, hS.listed, fun _ => hnf, ?_, ?_, hS.faultLenRange, fun _ => hB.outKind⟩
    · intro hc; cases hc
    · simp

/-- What follows the end of a phase keeps the invariant, never gets stuck, and leaves the parameters and the host's turns
alone. -/
theorem phaseEnd_inv {s : State} (h : Inv s) (hb : s.ctl.state = .busy) :
    ∃ t, (phaseEnd s).toOutcome = .next t ∧ Inv t ∧ t.config = s.config ∧ t.host = s.host := by
  unfold phaseEnd
  split
  · rename_i hc
    have := inv_enter h hb h.dec (ph := .pack) (src := .mid) (snk := .out) (by rw [hc.1]; rfl) (by simp)
    exact ⟨_, rfl, this, rfl, rfl⟩
  · split
    · rename_i hc
      have := inv_enter h hb (d := decFresh s.dec) decInv_reset (ph := .decode) (src := .mid) (snk := .out)
        (by rw [hc.1]; rfl) (by simp)
      exact ⟨_, rfl, this, rfl, rfl⟩
    · exact ⟨_, rfl, inv_complete h hb, rfl, rfl⟩

/-! ### Writes -/

/-- OutWrite of codes where the sink takes codes: appended, or LIMIT_EXCEEDED. -/
theorem outCodes_legal (cs : List Code) (s : State)
    (h : s.ctl.snk = .mid ∨ (s.ctl.snk = .out ∧ payloadKind s.ctl.out = .codes)) :
    (∃ m o, outCodes cs s = .go (s.setCtl (ctlSetMid m (ctlSetOut o s.ctl))) ∧ payloadKind o = payloadKind s.ctl.out ∧
      (s.ctl.snk = .out → m = s.ctl.mid)) ∨
    ∃ n, outCodes cs s = raise .limitExceeded 2#4 n 0#16 0 s := by
  rcases h with hs | ⟨hs, hk⟩
  · left
    exact ⟨s.ctl.mid ++ cs, s.ctl.out, outCodes_mid cs s hs, rfl, by rw [hs]; intro h; cases h⟩
  · obtain ⟨l, hl⟩ := eq_codes_of_kind _ hk
    rcases outCodes_cases cs l s hs hl with h | h
    · left
      exact ⟨s.ctl.mid, .codes (l ++ cs), h, by rw [hl]; rfl, fun _ => rfl⟩
    · exact Or.inr h

/-- OutWrite of bytes where the sink takes bytes: appended, or LIMIT_EXCEEDED. -/
theorem outBytes_legal (bs : List Byte) (s : State) (hs : s.ctl.snk = .out) (hk : payloadKind s.ctl.out = .bytes) :
    (∃ o, outBytes bs s = .go (s.setCtl (ctlSetOut o s.ctl)) ∧ payloadKind o = payloadKind s.ctl.out) ∨
    ∃ n, outBytes bs s = raise .limitExceeded 2#4 n 0#16 0 s := by
  obtain ⟨l, hl⟩ := eq_bytes_of_kind _ hk
  rcases outBytes_cases bs l s hs hl with h | h
  · left
    exact ⟨.bytes (l ++ bs), h, by rw [hl]; rfl⟩
  · exact Or.inr h

/-! ### The engine's turns -/

/-- A turn that ends in a next state which meets the invariant and keeps the parameters and the host's turns. -/
def TurnOk (s : State) (o : Host.Outcome State Fault Refusal) : Prop :=
  ∃ t, o = .next t ∧ Inv t ∧ t.config = s.config ∧ t.host = s.host

/-- LIMIT_EXCEEDED in OutWrite is a next state that meets the invariant. -/
theorem turnOk_limit {s s1 : State} (he : EncInv s1.enc) (hd : DecInv s1.dec) (hc : s1.config = s.config)
    (hh : s1.host = s.host) (n : Nat) (k : State → Eff) :
    TurnOk s (((raise .limitExceeded 2#4 n 0#16 0 s1).andThen k).toOutcome) :=
  ⟨_, rfl, inv_raised he hd (by simp) rfl (Or.inl rfl) n 0#16, hc, hh⟩

/-- A BUSY machine in the ENCODE phase takes a step (41_encoder.md R121, R126). -/
theorem runEncode_ok {s : State} (h : Inv s) (hb : s.ctl.state = .busy) (hp : s.ctl.phase = .encode) :
    TurnOk s (runEncode s) := by
  have hB := h.busy hb
  have hleg := hB.legal
  rw [hp, legal_encode] at hleg
  obtain ⟨hsrc, hcase⟩ := hleg
  have hsnk : s.ctl.snk = .mid ∨ (s.ctl.snk = .out ∧ payloadKind s.ctl.out = .codes) := by
    rcases hcase with ⟨ho, hs⟩ | ⟨ho, hs⟩
    · exact Or.inl hs
    · right; exact ⟨hs, by rw [hB.outKind, ho]; rfl⟩
  have hkind : payloadKind (sourcePayload s.ctl) = .bytes := by
    simp only [sourcePayload, hsrc]
    rcases hcase with ⟨ho, _⟩ | ⟨ho, _⟩ <;> rw [hB.inKind, ho] <;> rfl
  unfold runEncode
  cases ha : atEnd s.ctl with
  | true =>
    simp only [if_true]
    have key : ∀ cs, TurnOk s (((outCodes cs s).andThen phaseEnd).toOutcome) := by
      intro cs
      rcases outCodes_legal cs s hsnk with ⟨m, o, he, hk, _⟩ | ⟨n, he⟩
      · rw [he, andThen_go]
        have h1 := inv_continue h hb h.enc h.dec m o s.ctl.pos hk (Or.inr hsrc) hB.posLe (by rw [hp]; simp)
        obtain ⟨t, ht, hi, hc, hh⟩ := phaseEnd_inv h1 hb
        exact ⟨t, ht, hi, hc, hh⟩
      · rw [he]
        exact turnOk_limit h.enc h.dec rfl rfl n _
    unfold encFlush
    rcases flushCodes_cases h.enc with ⟨_, hf⟩ | ⟨w, i, _, _, _, _, _, hf⟩
    · rw [hf]; exact key []
    · rw [hf]; exact key _
  | false =>
    simp only [Bool.false_eq_true, if_false]
    have hne := (atEnd_false_iff _).1 ha
    have hlt : s.ctl.pos < payloadLength (sourcePayload s.ctl) := by have := hB.posLe; omega
    obtain ⟨k, hk⟩ := byteAt_of_lt hkind hlt
    have hin : inByte s = some (k, advance s) := (inByte_eq_some _ _ _).2 ⟨hk, rfl⟩
    obtain ⟨cs, e1, hu, he1⟩ := encUnit_inv h.enc k
    unfold encStep
    simp only [hin, advance_enc, hu]
    rcases outCodes_legal cs (advance s) hsnk with ⟨m, o, he, hk, _⟩ | ⟨n, he⟩
    · rw [he, andThen_go]
      exact ⟨_, rfl, inv_continue h hb he1 h.dec m o (s.ctl.pos + 1) hk (Or.inr hsrc) hlt (by rw [hp]; simp), rfl, rfl⟩
    · rw [he]
      exact turnOk_limit (s1 := advance s) h.enc h.dec rfl rfl n _

/-- A BUSY machine in the PACK phase takes a step (42_bit_packer.md R151). -/
theorem runPack_ok {s : State} (h : Inv s) (hb : s.ctl.state = .busy) (hp : s.ctl.phase = .pack) :
    TurnOk s (runPack s) := by
  have hB := h.busy hb
  have hleg := hB.legal
  rw [hp, legal_pack] at hleg
  obtain ⟨hsnk, hcase⟩ := hleg
  have hout : payloadKind s.ctl.out = .bytes := by
    rcases hcase with ⟨ho, _⟩ | ⟨ho, _⟩ <;> rw [hB.outKind, ho] <;> rfl
  have hkind : payloadKind (sourcePayload s.ctl) = .codes := by
    rcases hcase with ⟨ho, hs⟩ | ⟨ho, hs⟩
    · simp [sourcePayload, hs]
    · simp only [sourcePayload, hs]; rw [hB.inKind, ho]; rfl
  unfold runPack
  cases ha : atEnd s.ctl with
  | true => simp only [if_true]; exact phaseEnd_inv h hb
  | false =>
    simp only [Bool.false_eq_true, if_false]
    have hne := (atEnd_false_iff _).1 ha
    have hlt : s.ctl.pos < payloadLength (sourcePayload s.ctl) := by have := hB.posLe; omega
    obtain ⟨c, hc⟩ := codeAt_of_lt hkind hlt
    have hin : inCode s = some (c, advance s) := (inCode_eq_some _ _ _).2 ⟨hc, rfl⟩
    unfold packStep
    simp only [hin, outByte_pair]
    rcases outBytes_legal [hiByte c, loByte c] (advance s) hsnk hout with ⟨o, he, hk⟩ | ⟨n, he⟩
    · rw [he]
      exact ⟨_, rfl, inv_continue h hb h.enc h.dec s.ctl.mid o (s.ctl.pos + 1) hk (Or.inl rfl) hlt (by rw [hp]; simp),
        rfl, rfl⟩
    · rw [he]
      exact ⟨_, rfl, inv_raised (s := advance s) h.enc h.dec (by simp) rfl (Or.inl rfl) n 0#16, rfl, rfl⟩

/-- A BUSY machine in the UNPACK phase takes a step (42_bit_packer.md R156). -/
theorem runUnpack_ok {s : State} (h : Inv s) (hb : s.ctl.state = .busy) (hp : s.ctl.phase = .unpack) :
    TurnOk s (runUnpack s) := by
  have hB := h.busy hb
  have hleg := hB.legal
  rw [hp, legal_unpack] at hleg
  obtain ⟨hsrc, hcase⟩ := hleg
  have hsnk : s.ctl.snk = .mid ∨ (s.ctl.snk = .out ∧ payloadKind s.ctl.out = .codes) := by
    rcases hcase with ⟨ho, hs⟩ | ⟨ho, hs⟩
    · exact Or.inl hs
    · right; exact ⟨hs, by rw [hB.outKind, ho]; rfl⟩
  have hkind : payloadKind (sourcePayload s.ctl) = .bytes := by
    simp only [sourcePayload, hsrc]
    rcases hcase with ⟨ho, _⟩ | ⟨ho, _⟩ <;> rw [hB.inKind, ho] <;> rfl
  obtain ⟨hev, hpe⟩ := hB.pairs hp
  unfold runUnpack
  cases ha : atEnd s.ctl with
  | true => simp only [if_true]; exact phaseEnd_inv h hb
  | false =>
    simp only [Bool.false_eq_true, if_false]
    have hne := (atEnd_false_iff _).1 ha
    have hlt : s.ctl.pos + 1 < payloadLength (sourcePayload s.ctl) := by have := hB.posLe; omega
    obtain ⟨hi, hhi⟩ := byteAt_of_lt hkind (Nat.lt_of_succ_lt hlt)
    obtain ⟨lo, hlo⟩ := byteAt_of_lt hkind hlt
    have hin : inByte s = some (hi, advance s) := (inByte_eq_some _ _ _).2 ⟨hhi, rfl⟩
    have hin2 : inByte (advance s) = some (lo, advance (advance s)) := (inByte_eq_some _ _ _).2 ⟨hlo, rfl⟩
    unfold unpackStep
    simp only [hin, hin2, outCode_eq]
    rcases outCodes_legal [joinBytes hi lo] (advance (advance s)) hsnk with ⟨m, o, he, hk, _⟩ | ⟨n, he⟩
    · rw [he]
      exact ⟨_, rfl, inv_continue h hb h.enc h.dec m o (s.ctl.pos + 1 + 1) hk (Or.inr hsrc) hlt (by intro _; omega),
        rfl, rfl⟩
    · rw [he]
      exact ⟨_, rfl, inv_raised (s := advance (advance s)) h.enc h.dec (by simp) rfl (Or.inl rfl) n 0#16, rfl, rfl⟩

/-- One code's effect, joined to the streams, on a BUSY machine in the DECODE phase. -/
theorem decApply_ok {s : State} (h : Inv s) (hb : s.ctl.state = .busy) (hp : s.ctl.phase = .decode) (c : Code) (r : DecRes)
    (hr : (∃ out d1, r = .emits out d1 ∧ DecInv d1) ∨ (∃ sub, r = .malformed sub ∧ (sub = 1#4 ∨ sub = 2#4 ∨ sub = 3#4)))
    (hlt : s.ctl.pos < payloadLength (sourcePayload s.ctl)) :
    TurnOk s ((decApply c r (advance s)).toOutcome) := by
  have hB := h.busy hb
  have hleg := hB.legal
  rw [hp, legal_decode] at hleg
  obtain ⟨hsnk, hcase⟩ := hleg
  have hout : payloadKind s.ctl.out = .bytes := by
    rcases hcase with ⟨ho, _⟩ | ⟨ho, _⟩ <;> rw [hB.outKind, ho] <;> rfl
  rcases hr with ⟨out, d1, rfl, hd1⟩ | ⟨sub, rfl, hsub⟩
  · unfold decApply
    rcases outBytes_legal out (advance s) hsnk hout with ⟨o, he, hk⟩ | ⟨n, he⟩
    · simp only [he, andThen_go]
      exact ⟨_, rfl, inv_continue h hb h.enc hd1 s.ctl.mid o (s.ctl.pos + 1) hk (Or.inl rfl) hlt (by rw [hp]; simp),
        rfl, rfl⟩
    · simp only [he]
      exact turnOk_limit (s1 := advance s) h.enc h.dec rfl rfl n _
  · refine ⟨_, rfl, inv_raised (s := advance s) h.enc h.dec (by simp) ?_ (Or.inr ⟨h.dec.dict.baseLe, h.dec.dict.leCapacity⟩)
      _ _, rfl, rfl⟩
    rcases hsub with rfl | rfl | rfl <;> rfl

theorem decodeCode_ne_clear_of_ref (c c' : Code) (h : decodeCode c = .ref c') : c' = c ∧ c ≠ clearCode := by
  unfold decodeCode at h
  split at h
  · cases h
  · split at h
    · cases h
    · rename_i h1 h2
      exact ⟨(Instr.ref.inj h).symm, h2⟩

/-- The decoder of code words gives one of the three classes (30_encoding.md R72). -/
theorem decodeCode_cases (c : Code) :
    (c.toNat < 256 ∧ decodeCode c = .lit (loByte c)) ∨ (c = clearCode ∧ decodeCode c = .clear) ∨
    (257 ≤ c.toNat ∧ c ≠ clearCode ∧ decodeCode c = .ref c) := by
  have hmask : (c &&& 0xFF00#16 = 0x0000#16) ↔ c.toNat < 256 := by
    constructor
    · intro h
      have h1 : c.toNat / 256 = 0 := by
        have h2 : (c >>> 8) = 0#16 := by
          have h3 : (c &&& 0xFF00#16) >>> 8 = 0#16 := by rw [h]; rfl
          have h4 : (c &&& 0xFF00#16) >>> 8 = c >>> 8 := by
            apply BitVec.eq_of_getLsbD_eq
            intro i hi
            have : i < 8 ∨ 8 ≤ i := by omega
            rcases this with h8 | h8 <;> interval_cases i <;> simp
          rw [← h4, h3]
        have := congrArg BitVec.toNat h2
        simpa [BitVec.toNat_ushiftRight, Nat.shiftRight_eq_div_pow] using this
      omega
    · intro h
      apply BitVec.eq_of_getLsbD_eq
      intro i hi
      have hbit : ∀ j, 8 ≤ j → c.getLsbD j = false := by
        intro j hj
        rw [BitVec.getLsbD]
        apply Nat.testBit_lt_two_pow
        exact lt_of_lt_of_le h (by calc 256 = 2 ^ 8 := rfl
          _ ≤ 2 ^ j := Nat.pow_le_pow_right (by omega) hj)
      have : i < 8 ∨ 8 ≤ i := by omega
      rcases this with h8 | h8
      · interval_cases i <;> simp
      · rw [BitVec.getLsbD_and, hbit i h8]; simp
  unfold decodeCode
  by_cases h1 : c.toNat < 256
  · exact Or.inl ⟨h1, by rw [if_pos (hmask.2 h1)]⟩
  · rw [if_neg (fun h => h1 (hmask.1 h))]
    by_cases h2 : c = clearCode
    · exact Or.inr (Or.inl ⟨h2, by rw [if_pos h2]⟩)
    · exact Or.inr (Or.inr ⟨by have := toNat_ne_clear h2; omega, h2, by rw [if_neg h2]⟩)

theorem litCode_loByte {c : Code} (h : c.toNat < 256) : litCode (loByte c) = c := by
  apply BitVec.eq_of_toNat_eq
  rw [litCode_toNat]
  simp only [loByte, BitVec.extractLsb'_toNat, Nat.shiftRight_zero]
  omega

/-- The instruction of a code word does what the dispatch of R171 says, joined to the streams. -/
theorem exec_decodeCode (c : Code) (s : State) :
    exec (decodeCode c) s = (decApply c (decDispatch c s.dec) s).toOutcome := by
  rcases decodeCode_cases c with ⟨h1, h2⟩ | ⟨h1, h2⟩ | ⟨h1, h2, h3⟩
  · have hc : c ≠ clearCode := by rintro rfl; rw [toNat_clearCode] at h1; omega
    rw [h2]
    show (decApply (litCode (loByte c)) (decLit (loByte c) s.dec) s).toOutcome = _
    rw [litCode_loByte h1, decDispatch, if_neg hc, decLit]
    cases s.dec.W with
    | empty => simp [Config.alphabet, h1]
    | building w => simp only [litCode_loByte h1]
  · rw [h2, h1]
    show (decApply clearCode (decClear s.dec) s).toOutcome = _
    rw [decDispatch, if_pos rfl]
  · rw [h3]
    show (decApply c (decRef c s.dec) s).toOutcome = _
    rw [decDispatch, if_neg h2, decRef]
    cases s.dec.W with
    | empty => simp only [Config.alphabet]; rw [if_neg (by omega)]
    | building w => rfl

/-- A BUSY machine in the DECODE phase takes a step (43_decoder.md R171). -/
theorem runDecode_ok {s : State} (h : Inv s) (hb : s.ctl.state = .busy) (hp : s.ctl.phase = .decode) :
    TurnOk s (runDecode s) := by
  have hB := h.busy hb
  have hleg := hB.legal
  rw [hp, legal_decode] at hleg
  obtain ⟨hsnk, hcase⟩ := hleg
  have hkind : payloadKind (sourcePayload s.ctl) = .codes := by
    rcases hcase with ⟨ho, hs⟩ | ⟨ho, hs⟩
    · simp [sourcePayload, hs]
    · simp only [sourcePayload, hs]; rw [hB.inKind, ho]; rfl
  unfold runDecode
  cases ha : atEnd s.ctl with
  | true => simp only [if_true]; exact phaseEnd_inv h hb
  | false =>
    simp only [Bool.false_eq_true, if_false]
    have hne := (atEnd_false_iff _).1 ha
    have hlt : s.ctl.pos < payloadLength (sourcePayload s.ctl) := by have := hB.posLe; omega
    obtain ⟨c, hc⟩ := codeAt_of_lt hkind hlt
    have hin : inCode s = some (c, advance s) := (inCode_eq_some _ _ _).2 ⟨hc, rfl⟩
    simp only [hin, exec_decodeCode]
    exact decApply_ok h hb hp c _ (decDispatch_inv h.dec c) hlt

/-- The engine takes its turn from every state that meets the invariant. -/
theorem engine_ok {s : State} (h : Inv s) : TurnOk s (engine s) := by
  unfold engine
  cases hs : s.ctl.state with
  | busy =>
    cases hp : s.ctl.phase with
    | none =>
      have := (h.busy hs).legal
      rw [hp, legal_not_none] at this; cases this
    | encode => exact runEncode_ok h hs hp
    | pack => exact runPack_ok h hs hp
    | unpack => exact runUnpack_ok h hs hp
    | decode => exact runDecode_ok h hs hp
  | idle => exact ⟨s, rfl, h, rfl, rfl⟩
  | done => exact ⟨s, rfl, h, rfl, rfl⟩
  | fault => exact ⟨s, rfl, h, rfl, rfl⟩

/-! ### Acceptance -/

/-- What an acceptance leaves when it starts a phase other than UNPACK. -/
theorem accepted_inv {s : State} (he : EncInv s.enc) (hd : DecInv s.dec) {op : BitVec 3} {ph : Phase} {src : Source} {snk : Sink}
    {e : Enc} {d : Dec} (he' : EncInv e) (hd' : DecInv d) (hl : phaseLegal op ph src snk = true)
    (hk : payloadKind s.offered = inKindOf op) (hu : ph = .unpack → payloadLength s.offered % 2 = 0)
    (hsrc : src = .input) :
    Inv (((rewind (enterPhase ph src snk (s.setCtl (ctlAccept op (outKindOf op) s.offered s.ctl)))).setEnc e).setDec d) := by
  have _ := he
  have _ := hd
  subst hsrc
  refine ⟨he', hd', fun _ => ⟨hl, hk, payloadKind_emptyPayload _, Nat.zero_le _, ?_⟩, ?_⟩
  · intro h
    exact ⟨hu h, rfl⟩
  · exact statusInv_of_busy rfl rfl rfl rfl rfl rfl rfl

/-- An acceptance of a defined command on a block that is not BUSY, with a payload of its kind, is a next state that meets
the invariant. -/
theorem accept_ok {s : State} (h : Inv s) (hq : s.ctl.state ≠ .busy) {op : BitVec 3} {start : State → Eff}
    (hk : payloadKind s.offered = inKindOf op)
    (hstart : TurnOk s (start (s.setCtl (ctlAccept op (outKindOf op) s.offered s.ctl))).toOutcome) :
    TurnOk s (accept op (inKindOf op) (outKindOf op) start s).toOutcome := by
  unfold accept
  rw [if_neg hq, if_neg (by simpa using hk)]
  simp only
  split
  · exact ⟨_, rfl, inv_raised (s := s.setCtl (ctlAccept op (outKindOf op) s.offered s.ctl)) h.enc h.dec (by simp) rfl
      (Or.inl rfl) _ _, rfl, rfl⟩
  · exact hstart

/-- An acceptance of a reserved command word is a next state that meets the invariant (30_encoding.md R82). -/
theorem acceptReserved_ok {s : State} (h : Inv s) (hq : s.ctl.state ≠ .busy) (op : BitVec 3) :
    TurnOk s (acceptReserved op s).toOutcome := by
  unfold acceptReserved
  rw [if_neg hq]
  exact ⟨_, rfl, inv_raised (s := s.setCtl (ctlAccept op .bytes s.offered s.ctl)) h.enc h.dec (by simp) rfl
    (Or.inl rfl) _ _, rfl, rfl⟩

/-- UnpackStart after an acceptance: the phase starts, or the odd buffer is refused (42_bit_packer.md R155). -/
theorem startUnpack_ok {s : State} (h : Inv s) {op : BitVec 3} {snk : Sink}
    (hk : payloadKind s.offered = inKindOf op) (hl : phaseLegal op .unpack .input snk = true) :
    TurnOk s (startUnpack snk (s.setCtl (ctlAccept op (outKindOf op) s.offered s.ctl))).toOutcome := by
  unfold startUnpack unpackStart
  split
  · exact ⟨_, rfl, inv_raised (s := rewind (enterPhase .unpack .input snk
      (s.setCtl (ctlAccept op (outKindOf op) s.offered s.ctl)))) h.enc h.dec (by simp) rfl (Or.inl rfl) _ _, rfl, rfl⟩
  · rename_i hodd
    refine ⟨_, rfl, accepted_inv h.enc h.dec h.enc h.dec hl hk ?_ rfl, rfl, rfl⟩
    intro _
    have : ¬ payloadLength s.offered % 2 = 1 := hodd
    omega

theorem execCompress_ok {s : State} (h : Inv s) (hq : s.ctl.state ≠ .busy) (hk : payloadKind s.offered = .bytes) :
    TurnOk s (execCompress s) := by
  have h1 := accepted_inv h.enc h.dec (d := s.dec) encInv_reset h.dec (op := opCompress) (ph := .encode) (src := .input) (snk := .mid)
    rfl hk (by simp) rfl
  exact accept_ok h hq (op := opCompress) hk ⟨_, rfl, h1, rfl, rfl⟩

theorem execEncode_ok {s : State} (h : Inv s) (hq : s.ctl.state ≠ .busy) (hk : payloadKind s.offered = .bytes) :
    TurnOk s (execEncode s) := by
  have h1 := accepted_inv h.enc h.dec (d := s.dec) encInv_reset h.dec (op := opEncode) (ph := .encode) (src := .input) (snk := .out)
    rfl hk (by simp) rfl
  exact accept_ok h hq (op := opEncode) hk ⟨_, rfl, h1, rfl, rfl⟩

theorem execDecompress_ok {s : State} (h : Inv s) (hq : s.ctl.state ≠ .busy) (hk : payloadKind s.offered = .bytes) :
    TurnOk s (execDecompress s) := by
  exact accept_ok h hq (op := opDecompress) hk (startUnpack_ok h (op := opDecompress) (snk := .mid) hk rfl)

theorem execUnpack_ok {s : State} (h : Inv s) (hq : s.ctl.state ≠ .busy) (hk : payloadKind s.offered = .bytes) :
    TurnOk s (execUnpack s) := by
  exact accept_ok h hq (op := opUnpack) hk (startUnpack_ok h (op := opUnpack) (snk := .out) hk rfl)

theorem execPack_ok {s : State} (h : Inv s) (hq : s.ctl.state ≠ .busy) (hk : payloadKind s.offered = .codes) :
    TurnOk s (execPack s) := by
  have h1 := accepted_inv h.enc h.dec (e := s.enc) (d := s.dec) h.enc h.dec (op := opPack) (ph := .pack) (src := .input)
    (snk := .out) rfl hk (by simp) rfl
  exact accept_ok h hq (op := opPack) hk ⟨_, rfl, h1, rfl, rfl⟩

theorem execDecode_ok {s : State} (h : Inv s) (hq : s.ctl.state ≠ .busy) (hk : payloadKind s.offered = .codes) :
    TurnOk s (execDecode s) := by
  have h1 := accepted_inv h.enc h.dec (e := s.enc) h.enc decInv_reset (op := opDecode) (ph := .decode) (src := .input)
    (snk := .out) rfl hk (by simp) rfl
  exact accept_ok h hq (op := opDecode) hk ⟨_, rfl, h1, rfl, rfl⟩

/-- A reserved command word: a bit of [7:3] set, or OP 0 or 7 (30_encoding.md R82). -/
def isReserved (v : Byte) : Prop := reservedField v ≠ 0#5 ∨ opField v = 0#3 ∨ opField v = 7#3

/-- A word whose bits [7:3] are clear has each of them clear. -/
theorem reserved_bits {v : Byte} (h : reservedField v = 0#5) (i : Nat) (hi : i < 5) : v.getLsbD (3 + i) = false := by
  have h1 : (reservedField v).getLsbD i = v.getLsbD (3 + i) := by
    simp [reservedField, hi]
  rw [← h1, h]; simp

/-- A defined command word decodes to its command (30_encoding.md R79). -/
theorem decodeCmd_defined {v : Byte} (h : ¬ isReserved v) :
    (opField v = opCompress ∧ decodeCmd v = .compress) ∨ (opField v = opDecompress ∧ decodeCmd v = .decompress) ∨
    (opField v = opEncode ∧ decodeCmd v = .encode) ∨ (opField v = opDecode ∧ decodeCmd v = .decode) ∨
    (opField v = opPack ∧ decodeCmd v = .pack) ∨ (opField v = opUnpack ∧ decodeCmd v = .unpack) := by
  simp only [isReserved, not_or, not_not] at h
  obtain ⟨hz, h0, h7⟩ := h
  have b3 := reserved_bits hz 0 (by omega)
  have b4 := reserved_bits hz 1 (by omega)
  have b5 := reserved_bits hz 2 (by omega)
  have b6 := reserved_bits hz 3 (by omega)
  have b7 := reserved_bits hz 4 (by omega)
  have hcase : ∀ o : BitVec 3, o ≠ 0#3 → o ≠ 7#3 → o = opCompress ∨ o = opDecompress ∨ o = opEncode ∨ o = opDecode ∨
      o = opPack ∨ o = opUnpack := by decide
  unfold decodeCmd
  simp only [Nat.add_zero] at b3 b4 b5 b6 b7
  simp only [b3, b4, b5, b6, b7, Bool.false_eq_true, if_false]
  rcases hcase _ h0 h7 with h | h | h | h | h | h <;> rw [h] <;> decide

/-- A reserved command word decodes to a reserved instruction, whose meaning is the shared refusal with the word's own OP
(30_encoding.md R82, 60_exceptions.md R234). -/
theorem exec_reserved {v : Byte} (h : isReserved v) (s : State) :
    exec (decodeCmd v) s = (acceptReserved (opField v) s).toOutcome := by
  cases b3 : v.getLsbD 3 with
  | true => simp only [decodeCmd, b3, if_true]; rfl
  | false =>
  cases b4 : v.getLsbD 4 with
  | true => simp only [decodeCmd, b3, b4, Bool.false_eq_true, if_false, if_true]; rfl
  | false =>
  cases b5 : v.getLsbD 5 with
  | true => simp only [decodeCmd, b3, b4, b5, Bool.false_eq_true, if_false, if_true]; rfl
  | false =>
  cases b6 : v.getLsbD 6 with
  | true => simp only [decodeCmd, b3, b4, b5, b6, Bool.false_eq_true, if_false, if_true]; rfl
  | false =>
  cases b7 : v.getLsbD 7 with
  | true => simp only [decodeCmd, b3, b4, b5, b6, b7, Bool.false_eq_true, if_false, if_true]; rfl
  | false =>
  have hz : reservedField v = 0#5 := by
    apply BitVec.eq_of_getLsbD_eq
    intro i hi
    have h1 : (reservedField v).getLsbD i = v.getLsbD (3 + i) := by
      simp [reservedField, hi]
    rw [h1]
    interval_cases i
    · exact b3
    · exact b4
    · exact b5
    · exact b6
    · exact b7
  have hop : opField v = 0#3 ∨ opField v = 7#3 := by
    rcases h with h | h | h
    · exact absurd hz h
    · exact Or.inl h
    · exact Or.inr h
  rcases hop with ho | ho
  · have hd : decodeCmd v = .reservedOp0 := by
      simp only [decodeCmd, b3, b4, b5, b6, b7, Bool.false_eq_true, if_false, ho]; decide
    rw [hd, ho]; rfl
  · have hd : decodeCmd v = .reservedOp7 := by
      simp only [decodeCmd, b3, b4, b5, b6, b7, Bool.false_eq_true, if_false, ho]; decide
    rw [hd, ho]; rfl

/-- Every command word offered to a block that is not BUSY, with a payload of its kind, is a next state that meets the
invariant. -/
theorem exec_decodeCmd_ok {s : State} (h : Inv s) (hq : s.ctl.state ≠ .busy) (v : Byte)
    (hk : reservedField v = 0#5 → opField v ≠ 0#3 → opField v ≠ 7#3 → payloadKind s.offered = inputKind v) :
    TurnOk s (exec (decodeCmd v) s) := by
  by_cases hr : isReserved v
  · rw [exec_reserved hr]
    exact acceptReserved_ok h hq _
  · have hd := decodeCmd_defined hr
    simp only [isReserved, not_or, not_not] at hr
    have hk := hk hr.1 hr.2.1 hr.2.2
    rcases hd with ⟨ho, hi⟩ | ⟨ho, hi⟩ | ⟨ho, hi⟩ | ⟨ho, hi⟩ | ⟨ho, hi⟩ | ⟨ho, hi⟩ <;>
      rw [inputKind, ho] at hk <;> rw [hi]
    · exact execCompress_ok h hq hk
    · exact execDecompress_ok h hq hk
    · exact execEncode_ok h hq hk
    · exact execDecode_ok h hq hk
    · exact execPack_ok h hq hk
    · exact execUnpack_ok h hq hk

/-- The parameters, the offered payload and the host's turns play no part in the invariant. -/
theorem inv_setHost {s : State} (h : Inv s) (x : List HostAct) : Inv (s.setHost x) := ⟨h.enc, h.dec, h.busy, h.status⟩
theorem inv_setOffered {s : State} (h : Inv s) (x : Payload) : Inv (s.setOffered x) := ⟨h.enc, h.dec, h.busy, h.status⟩

end Sys2Proof.Machine
end

