-- ==== Sys2Proof/Laws/Coding.lean ====
section
/-! SUPPORT. The byte order of codes, and the encoder and decoder of instruction words, field by field. -/

namespace Sys2Proof

/-! ### Byte order (20_memory.md R56, 30_encoding.md R77) -/

theorem hiByte_toNat (c : Code) : (hiByte c).toNat = c.toNat / 256 := by
  have := c.isLt
  simp only [hiByte, BitVec.extractLsb'_toNat, Nat.shiftRight_eq_div_pow]
  omega

theorem loByte_toNat (c : Code) : (loByte c).toNat = c.toNat % 256 := by
  simp only [loByte, BitVec.extractLsb'_toNat, Nat.shiftRight_zero]

theorem joinBytes_toNat (hi lo : Byte) : (joinBytes hi lo).toNat = hi.toNat * 256 + lo.toNat := by
  have h1 := hi.isLt
  have h2 := lo.isLt
  simp only [joinBytes, BitVec.toNat_add, BitVec.toNat_mul, BitVec.toNat_setWidth, BitVec.zeroExtend, BitVec.toNat_ofNat]
  omega

/-- A code is rebuilt from its two bytes. -/
@[simp] theorem joinBytes_hi_lo (c : Code) : joinBytes (hiByte c) (loByte c) = c := by
  apply BitVec.eq_of_toNat_eq
  rw [joinBytes_toNat, hiByte_toNat, loByte_toNat]
  omega

@[simp] theorem hiByte_joinBytes (hi lo : Byte) : hiByte (joinBytes hi lo) = hi := by
  apply BitVec.eq_of_toNat_eq
  have h2 := lo.isLt
  rw [hiByte_toNat, joinBytes_toNat]
  omega

@[simp] theorem loByte_joinBytes (hi lo : Byte) : loByte (joinBytes hi lo) = lo := by
  apply BitVec.eq_of_toNat_eq
  have h2 := lo.isLt
  rw [loByte_toNat, joinBytes_toNat]
  omega

theorem loByte_litCode (b : Byte) : loByte (litCode b) = b := by
  apply BitVec.eq_of_toNat_eq
  have := b.isLt
  rw [loByte_toNat, Machine.litCode_toNat]
  omega

/-! ### Code words -/

theorem decodeCode_lit (b : Byte) : decodeCode (litCode b) = .lit b := by
  have hb := b.isLt
  have hn := Machine.litCode_toNat b
  rcases Machine.decodeCode_cases (litCode b) with ⟨_, h⟩ | ⟨h, _⟩ | ⟨h, _, _⟩
  · rw [h, loByte_litCode]
  · exact absurd h (Machine.litCode_ne_clear b)
  · omega

theorem decodeCode_clear : decodeCode clearCode = .clear := by decide

theorem decodeCode_ref (c : Code) (h : 257 ≤ c.toNat) : decodeCode c = .ref c := by
  rcases Machine.decodeCode_cases c with ⟨h1, _⟩ | ⟨h1, _⟩ | ⟨_, _, h3⟩
  · omega
  · rw [h1, Machine.toNat_clearCode] at h; omega
  · exact h3

/-- Encoding what a code word decodes to gives the word back. -/
theorem encodeCode_decodeCode (c : Code) : encodeCode (decodeCode c) = c := by
  rcases Machine.decodeCode_cases c with ⟨h, e⟩ | ⟨h, e⟩ | ⟨_, _, e⟩
  · rw [e]; exact Machine.litCode_loByte h
  · rw [e, h]; rfl
  · rw [e]; rfl

theorem format_decodeCode (c : Code) : (decodeCode c).format = .code16 := by
  rcases Machine.decodeCode_cases c with ⟨_, e⟩ | ⟨_, e⟩ | ⟨_, _, e⟩ <;> rw [e] <;> rfl

/-! ### Command words -/

theorem decodeCmd_bit3 (op : BitVec 3) (u : BitVec 4) : decodeCmd ((u ++ 1#1) ++ op) = .reservedBit3 op u := by
  revert op u; decide

theorem decodeCmd_bit4 (op : BitVec 3) (u : BitVec 3) : decodeCmd ((u ++ 2#2) ++ op) = .reservedBit4 op u := by
  revert op u; decide

theorem decodeCmd_bit5 (op : BitVec 3) (u : BitVec 2) : decodeCmd ((u ++ 4#3) ++ op) = .reservedBit5 op u := by
  revert op u; decide

theorem decodeCmd_bit6 (op : BitVec 3) (u : BitVec 1) : decodeCmd ((u ++ 8#4) ++ op) = .reservedBit6 op u := by
  revert op u; decide

theorem decodeCmd_bit7 (op : BitVec 3) : decodeCmd (16#5 ++ op) = .reservedBit7 op := by
  revert op; decide

/-- Encoding what a command word decodes to gives the word back. -/
theorem encodeCmd_decodeCmd : ∀ v : Byte, encodeCmd (decodeCmd v) = v := by decide

theorem format_decodeCmd : ∀ v : Byte, (decodeCmd v).format = .cmd8 := by decide

end Sys2Proof
end

