-- ==== Sys2Proof/Laws/Bits.lean ====
section
/-! SUPPORT. The bit-string form of the packer and the unpacker equals the step form (42_bit_packer.md R151, R154 to R156). -/

namespace Sys2Proof.Machine

/-- Each code as its two bytes, high byte first: the step form of PACK (42_bit_packer.md R151). -/
def packPairs (cs : List Code) : List Byte :=
  match cs with
  | [] => []
  | c :: rest => hiByte c :: loByte c :: packPairs rest

/-- Each pair of bytes as a code: the step form of UNPACK (42_bit_packer.md R156). -/
def unpackPairs (bs : List Byte) : List Code :=
  match bs with
  | hi :: lo :: rest => joinBytes hi lo :: unpackPairs rest
  | _ => []

/-! ### Bit strings -/

@[simp] theorem binStr_length {n : Nat} (v : BitVec n) : (binStr v).length = n := by simp [binStr]

/-- A code's bit string is its high byte's and then its low byte's. -/
theorem binStr_code (c : Code) : binStr c = binStr (hiByte c) ++ binStr (loByte c) := by
  apply List.ext_getElem
  · simp
  · intro i h1 h2
    simp only [binStr_length] at h1
    rw [List.getElem_append]
    split
    · rename_i h
      simp only [binStr_length] at h
      simp only [binStr, List.getElem_map, List.getElem_range, hiByte, BitVec.getMsbD_eq_getLsbD,
        BitVec.getLsbD_extractLsb']
      interval_cases i <;> simp
    · rename_i h
      simp only [binStr_length, not_lt] at h
      simp only [binStr, List.getElem_map, List.getElem_range, loByte, BitVec.getMsbD_eq_getLsbD,
        BitVec.getLsbD_extractLsb']
      interval_cases i <;> simp

/-- A byte's bit string has the byte as its value. -/
theorem bitVal_binStr_byte : ∀ b : Byte, bitVal (binStr b) = b.toNat := by decide

theorem bitVal_foldl (t : List Bool) (a : Nat) :
    t.foldl (fun a b => 2 * a + b.toNat) a = a * 2 ^ t.length + bitVal t := by
  induction t generalizing a with
  | nil => simp [bitVal]
  | cons b t ih =>
    have h1 : bitVal (b :: t) = t.foldl (fun a b => 2 * a + b.toNat) b.toNat := by simp [bitVal]
    rw [h1, ih b.toNat, List.foldl_cons, ih, List.length_cons, pow_succ]
    ring

/-- The value of a concatenation. -/
theorem bitVal_append (s t : List Bool) : bitVal (s ++ t) = bitVal s * 2 ^ t.length + bitVal t := by
  rw [bitVal, List.foldl_append, bitVal_foldl]; rfl

theorem bitSlice_append_left (s t : List Bool) (n : Nat) (h : s.length = n) : bitSlice (s ++ t) 0 n = s := by
  subst h; simp [bitSlice]

theorem bitSlice_append_right (s t : List Bool) (i j : Nat) (h : s.length ≤ i) :
    bitSlice (s ++ t) i j = bitSlice t (i - s.length) (j - s.length) := by
  simp only [bitSlice, List.drop_append, List.drop_eq_nil_of_le h, List.nil_append]
  congr 1
  omega

/-! ### PACK -/

/-- The bytes of a bit string cut from the left into `n` groups of eight. -/
def cut8 (n : Nat) (t : List Bool) : List Byte :=
  (List.range n).map (fun j => BitVec.ofNat 8 (bitVal (bitSlice t (8 * j) (8 * j + 8))))

theorem cut8_succ (n : Nat) (b : Byte) (t : List Bool) : cut8 (n + 1) (binStr b ++ t) = b :: cut8 n t := by
  simp only [cut8, List.range_succ_eq_map, List.map_cons, List.map_map]
  congr 1
  · rw [Nat.mul_zero, Nat.zero_add, bitSlice_append_left _ _ 8 (binStr_length b), bitVal_binStr_byte]
    simp
  · apply List.map_congr_left
    intro j _
    simp only [Function.comp]
    rw [bitSlice_append_right _ _ _ _ (by rw [binStr_length]; omega), binStr_length]
    congr 3

theorem cut8_codes (cs : List Code) : cut8 (2 * cs.length) (cs.flatMap binStr) = packPairs cs := by
  induction cs with
  | nil => rfl
  | cons c cs ih =>
    rw [List.flatMap_cons, binStr_code, List.append_assoc, List.length_cons,
      show 2 * (cs.length + 1) = 2 * cs.length + 1 + 1 by ring, cut8_succ, cut8_succ, ih]
    rfl

theorem flatMap_binStr_length (cs : List Code) : (cs.flatMap binStr).length = 16 * cs.length := by
  induction cs with
  | nil => rfl
  | cons c cs ih => rw [List.flatMap_cons, List.length_append, ih, binStr_length, List.length_cons]; ring

/-- PACK's bit-string definition is its step form; the trailing remainder never occurs (42_bit_packer.md R151, R152). -/
theorem packBits_eq (cs : List Code) : packBits cs = packPairs cs := by
  have h1 := flatMap_binStr_length cs
  have h2 : (cs.flatMap binStr).length % 8 = 0 := by omega
  have h3 : (cs.flatMap binStr).length / 8 = 2 * cs.length := by omega
  have h4 := cut8_codes cs
  simp only [packBits, h2, h3]
  simpa [cut8] using h4

theorem packPairs_length (cs : List Code) : (packPairs cs).length = 2 * cs.length := by
  induction cs with
  | nil => rfl
  | cons c cs ih => simp only [packPairs, List.length_cons, ih]; ring

/-! ### UNPACK -/

/-- The codes of a bit string cut from the left into `n` groups of sixteen. -/
def cut16 (n : Nat) (t : List Bool) : List Code :=
  (List.range n).map (fun j => BitVec.ofNat 16 (bitVal (bitSlice t (16 * j) (16 * j + 16))))

theorem cut16_succ (n : Nat) (hi lo : Byte) (t : List Bool) :
    cut16 (n + 1) (binStr hi ++ (binStr lo ++ t)) = joinBytes hi lo :: cut16 n t := by
  have hl : (binStr hi ++ binStr lo).length = 16 := by simp
  rw [← List.append_assoc]
  simp only [cut16, List.range_succ_eq_map, List.map_cons, List.map_map]
  congr 1
  · rw [Nat.mul_zero, Nat.zero_add, bitSlice_append_left _ _ 16 hl, bitVal_append, bitVal_binStr_byte,
      bitVal_binStr_byte, binStr_length]
    apply BitVec.eq_of_toNat_eq
    have h1 := hi.isLt
    have h2 := lo.isLt
    rw [joinBytes_toNat, BitVec.toNat_ofNat]
    omega
  · apply List.map_congr_left
    intro j _
    simp only [Function.comp]
    rw [bitSlice_append_right _ _ _ _ (by rw [hl]; omega), hl]
    congr 3

/-- UNPACK's bit-string definition is its step form (42_bit_packer.md R154, R156). -/
theorem unpackBits_eq (bs : List Byte) : unpackBits bs = unpackPairs bs := by
  have key : ∀ bs : List Byte, cut16 (bs.length / 2) (bs.flatMap binStr) = unpackPairs bs := by
    intro bs
    induction bs using unpackPairs.induct with
    | case1 hi lo rest ih =>
      rw [List.length_cons, List.length_cons, show (rest.length + 1 + 1) / 2 = rest.length / 2 + 1 by omega,
        List.flatMap_cons, List.flatMap_cons, cut16_succ, ih]
      rfl
    | case2 bs h =>
      match bs, h with
      | [], _ => rfl
      | [b], _ => simp [cut16, unpackPairs]
      | a :: b :: r, h => exact absurd rfl (h a b r)
  exact key bs

theorem unpackPairs_length (bs : List Byte) : (unpackPairs bs).length = bs.length / 2 := by
  induction bs using unpackPairs.induct with
  | case1 hi lo rest ih => simp only [unpackPairs, List.length_cons, ih]; omega
  | case2 bs h =>
    match bs, h with
    | [], _ => rfl
    | [b], _ => simp [unpackPairs]
    | a :: b :: r, h => exact absurd rfl (h a b r)

/-- Unpacking what was packed gives the codes back (42_bit_packer.md R158). -/
theorem unpackPairs_packPairs (cs : List Code) : unpackPairs (packPairs cs) = cs := by
  induction cs with
  | nil => rfl
  | cons c cs ih => simp only [packPairs, unpackPairs, ih, joinBytes_hi_lo]

/-- Packing what was unpacked gives an even buffer back (42_bit_packer.md R158). -/
theorem packPairs_unpackPairs (bs : List Byte) (h : bs.length % 2 = 0) : packPairs (unpackPairs bs) = bs := by
  induction bs using unpackPairs.induct with
  | case1 hi lo rest ih =>
    have h1 : rest.length % 2 = 0 := by simp only [List.length_cons] at h; omega
    simp only [unpackPairs, packPairs, ih h1, hiByte_joinBytes, loByte_joinBytes]
  | case2 bs hn =>
    match bs, hn with
    | [], _ => rfl
    | [b], _ => simp at h
    | a :: b :: r, hn => exact absurd rfl (hn a b r)

end Sys2Proof.Machine
end

