-- ==== Sys2Proof/Laws/Lockstep.lean ====
section
/-! SUPPORT. The decoder follows the encoder: the relation between the two units that the lag law and table agreement
(43_decoder.md R182, R183) describe, and that one code carries it from step to step. -/

namespace Sys2Proof.Machine

/-- The bytes the encoder has read and not yet emitted a code for. -/
def pending (e : Enc) : List Byte :=
  match e.W with
  | .empty => []
  | .building w => strBytes w

/-- Between a scan step and the codes it emitted, the decoder's table is one entry behind the encoder's: before the first
code of a generation both are fresh; after it, every slot below DEC.L agrees, and the entry the decoder lacks is its
match followed by the first byte of the encoder's match (R182, R183, R188). -/
structure Lockstep (e : Enc) (d : Dec) : Prop where
  encInv : EncInv e
  decInv : DecInv d
  lag : (d.W = .empty ∧ e.L = 257) ∨
    (∃ v w, d.W = .building v ∧ e.W = .building w ∧ e.L = d.L + 1 ∧
      (∀ i, i < d.L → slotRead e.D i = slotRead d.D i) ∧ slotRead e.D d.L = .data (strSnoc v w.head))

/-- Two fresh generations are in lockstep. -/
theorem lockstep_reset : Lockstep Enc.reset Dec.reset := ⟨encInv_reset, decInv_reset, Or.inl ⟨rfl, rfl⟩⟩

theorem strBytes_strSnoc (s : Str) (b : Byte) : strBytes (strSnoc s b) = strBytes s ++ [b] := rfl
@[simp] theorem strSnoc_head (s : Str) (b : Byte) : (strSnoc s b).head = s.head := rfl
@[simp] theorem strBytes_single (b : Byte) : strBytes (Str.single b) = [b] := rfl

theorem code_toNat {i : Nat} (h : i < 65536) : (BitVec.ofNat 16 i).toNat = i := by
  simp only [BitVec.toNat_ofNat]
  exact Nat.mod_eq_of_lt h

theorem code_ne_clear {i : Nat} (h : i < 65536) (hc : i ≠ 256) : (BitVec.ofNat 16 i : Code) ≠ clearCode := by
  intro he
  have := congrArg BitVec.toNat he
  rw [code_toNat h, toNat_clearCode] at this
  exact hc this

/-- A code other than CLEAR, while Building and below or at DEC.L, goes through the Building half of the dispatch. -/
theorem decDispatch_building {d : Dec} {c : Code} {v : Str} (hc : c ≠ clearCode) (hv : d.W = .building v) :
    decDispatch c d = decBuilding c v d := by
  rw [decDispatch, if_neg hc, hv]

/-- The code of the encoder's match makes the decoder write exactly that match, and lets its table catch up. -/
theorem lockstep_emit {e : Enc} {d : Dec} (h : Lockstep e d) {w : Str} (hw : e.W = .building w) {i : Nat}
    (hi : i < e.L) (hc : i ≠ 256) (hd : slotRead e.D i = .data w) :
    ∃ d1, decDispatch (BitVec.ofNat 16 i) d = .emits (strBytes w) d1 ∧ DecInv d1 ∧ d1.W = .building w ∧ d1.L = e.L ∧
      ∀ j, j < e.L → slotRead d1.D j = slotRead e.D j := by
  have hE : e.L < 65536 := h.encInv.belowCapacity
  have hi16 : i < 65536 := by omega
  have hn := code_toNat hi16
  have hcc := code_ne_clear hi16 hc
  rcases h.lag with ⟨hde, he⟩ | ⟨v, w', hv, hw', hL, hag, hlast⟩
  · have hi2 : i < 256 := by omega
    have hdL : d.L = 257 := h.decInv.emptyFresh hde
    have hlit := h.encInv.dict.literal i hi2
    rw [hd] at hlit
    have hwb := Entry.data.inj hlit
    have hlo : loByte (BitVec.ofNat 16 i : Code) = BitVec.ofNat 8 i := by
      apply BitVec.eq_of_toNat_eq
      simp only [loByte, BitVec.extractLsb'_toNat, Nat.shiftRight_zero, hn, BitVec.toNat_ofNat]
    refine ⟨{ d with W := .building w }, ?_, ?_, rfl, by show d.L = e.L; omega, ?_⟩
    · rw [decDispatch, if_neg hcc, hde]
      simp only [hn, Config.alphabet, hi2, if_true, decStartCode, hlo]
      rw [hwb]; rfl
    · rw [hwb]; exact h.decInv.start _
    · intro j hj
      show slotRead d.D j = slotRead e.D j
      by_cases h1 : j < 256
      · rw [h.decInv.dict.literal j h1, h.encInv.dict.literal j h1]
      · have : j = 256 := by omega
        subst this
        rw [h.decInv.dict.clearSlot, h.encInv.dict.clearSlot]
  · obtain rfl : w = w' := Match.building.inj (hw.symm.trans hw')
    have hcap : d.L < 65536 := by omega
    have key : decBuilding (BitVec.ofNat 16 i) v d =
        .emits (strBytes w) { decAppend (strSnoc v w.head) d with W := .building w } ∧
        DecInv { decAppend (strSnoc v w.head) d with W := .building w } := by
      rcases decBuilding_cases h.decInv hcc v with ⟨h1, _⟩ | ⟨_, h2, _⟩ | ⟨h1, h2, x, hx, hr⟩ | ⟨h1, h2, hr⟩
      · rw [hn] at h1; omega
      · omega
      · rw [hn] at h1 hx
        rw [← hag i h1, hd] at hx
        obtain rfl := Entry.data.inj hx
        exact ⟨hr, h.decInv.direct hv (by rw [← hag i h1, hd]) h1 h2 _⟩
      · rw [hn] at h1
        rw [← h1, hd] at hlast
        have hwv := Entry.data.inj hlast
        have hh : w.head = v.head := by rw [hwv]; rfl
        rw [hh] at hwv ⊢
        rw [← hwv] at hr
        refine ⟨by rw [hr, ← hwv], ?_⟩
        have := h.decInv.welch hv h2 v.head
        rw [← hwv] at this ⊢
        exact this
    refine ⟨_, by rw [decDispatch_building hcc hv]; exact key.1, key.2, rfl, hL.symm, ?_⟩
    intro j hj
    show slotRead (slotWrite d.D d.L (.data (strSnoc v w.head))) j = slotRead e.D j
    rw [slotRead_append h.decInv.dict]
    by_cases hjL : j = d.L
    · rw [if_pos hjL, hjL, hlast]
    · rw [if_neg hjL, hag j (by omega)]

/-- EXTEND keeps the lockstep, and the byte read is pending. -/
theorem lockstep_extend {e : Enc} {d : Dec} (h : Lockstep e d) (k : Byte) {i : Nat}
    (hi : revLookup e.R (candidate e.W k) = some i) :
    Lockstep (encExtend (candidate e.W k) e) d ∧ pending (encExtend (candidate e.W k) e) = pending e ++ [k] := by
  refine ⟨⟨h.encInv.extend hi, h.decInv, ?_⟩, ?_⟩
  · rcases h.lag with h1 | ⟨v, w, hv, hw, hL, hag, hlast⟩
    · exact Or.inl h1
    · refine Or.inr ⟨v, strSnoc w k, hv, ?_, hL, hag, by rw [strSnoc_head]; exact hlast⟩
      show Match.building (candidate e.W k) = _
      rw [hw]; rfl
  · cases hw : e.W with
    | empty => simp [pending, encExtend, candidate, hw]
    | building w => simp [pending, encExtend, candidate, hw, strBytes_strSnoc]

/-- A MISS and its code keep the lockstep. -/
theorem lockstep_miss {e : Enc} {d : Dec} (h : Lockstep e d) {w : Str} (hw : e.W = .building w) {i : Nat} (k : Byte)
    (hi : i < e.L) (hc : i ≠ 256) (hd : slotRead e.D i = .data w) (hn : revLookup e.R (strSnoc w k) = none)
    (hL : e.L + 1 < 65536) :
    ∃ d1, decDispatch (BitVec.ofNat 16 i) d = .emits (strBytes w) d1 ∧ Lockstep (encMiss (strSnoc w k) k e) d1 := by
  obtain ⟨d1, hr, hI, hW, hdL, hag⟩ := lockstep_emit h hw hi hc hd
  refine ⟨d1, hr, h.encInv.miss k hi hc hd hn hL, hI, Or.inr ⟨w, Str.single k, hW, rfl, ?_, ?_, ?_⟩⟩
  · show e.L + 1 = d1.L + 1
    rw [hdL]
  · intro j hj
    show slotRead (slotWrite e.D e.L (.data (strSnoc w k))) j = slotRead d1.D j
    rw [slotRead_append h.encInv.dict, if_neg (by omega), hag j (by omega)]
  · show slotRead (slotWrite e.D e.L (.data (strSnoc w k))) d1.L = .data (strSnoc w k)
    rw [slotRead_append h.encInv.dict, if_pos hdL]

/-- An OVERFLOW's three codes make the decoder write the match and the byte, fill its last slot, and start afresh. Below
that slot its table agrees with the encoder's throughout (43_decoder.md R182, R183). -/
theorem lockstep_overflow {e : Enc} {d : Dec} (h : Lockstep e d) {w : Str} (hw : e.W = .building w) {i : Nat} (k : Byte)
    (hi : i < e.L) (hc : i ≠ 256) (hd : slotRead e.D i = .data w) (hL : e.L + 1 = 65536) :
    ∃ d1 d2, decDispatch (BitVec.ofNat 16 i) d = .emits (strBytes w) d1 ∧ d1.L = 65535 ∧
      decDispatch (litCode k) d1 = .emits [k] d2 ∧ d2.L = 65536 ∧
      decDispatch clearCode d2 = .emits [] Dec.reset ∧
      (∀ j, j < 65535 → slotRead d1.D j = slotRead e.D j) ∧
      ∀ j, slotRead d2.D j = if j = 65535 then .data (strSnoc w k) else slotRead d1.D j := by
  obtain ⟨d1, hr, hI, hW, hdL, hag⟩ := lockstep_emit h hw hi hc hd
  have hk := k.isLt
  have hd1 : d1.L = 65535 := by omega
  rcases decBuilding_cases hI (litCode_ne_clear k) w with ⟨h1, _⟩ | ⟨_, h2, _⟩ | ⟨_, _, x, hx, hb⟩ | ⟨h1, _, _⟩
  · rw [litCode_toNat] at h1; omega
  · omega
  · rw [litCode_toNat, hI.dict.literal _ (by omega)] at hx
    have hxk : x = Str.single k := by
      have := Entry.data.inj hx
      rw [← this]; simp
    subst hxk
    refine ⟨d1, { decAppend (strSnoc w k) d1 with W := .building (Str.single k) }, hr, hd1, ?_, ?_, ?_,
      fun j hj => hag j (by omega), ?_⟩
    · rw [decDispatch_building (litCode_ne_clear k) hW]; exact hb
    · show d1.L + 1 = 65536
      omega
    · rw [decDispatch, if_pos rfl]; rfl
    · intro j
      show slotRead (slotWrite d1.D d1.L (.data (strSnoc w k))) j = _
      rw [slotRead_append hI.dict, hd1]
  · rw [litCode_toNat] at h1; omega

/-- What the encoder emits from a state in lockstep decodes to the pending bytes and the rest of the input
(43_decoder.md R186). -/
theorem decodeFrom_encodeFrom (ks : List Byte) (e : Enc) (d : Dec) (p : Nat) (cs : List Code) (h : Lockstep e d)
    (he : encodeFrom e ks = some cs) : decodeFrom d p cs = some (pending e ++ ks, none) := by
  induction ks generalizing e d p cs with
  | nil =>
    rw [encodeFrom] at he
    rcases flushCodes_cases h.encInv with ⟨hw, hf⟩ | ⟨w, i, hw, _, h1, h2, h3, hf⟩
    · rw [hf] at he
      obtain rfl := Option.some.inj he
      simp [decodeFrom, pending, hw]
    · rw [hf] at he
      obtain rfl := Option.some.inj he
      obtain ⟨d1, hr, _⟩ := lockstep_emit h hw h1 h2 h3
      simp [decodeFrom, hr, pending, hw]
  | cons k ks ih =>
    rw [encodeFrom] at he
    rcases encUnit_cases h.encInv k with ⟨⟨i, hi⟩, hu⟩ | ⟨w, i, hw, _, h1, h2, h3, hn, (⟨hL, hu⟩ | ⟨hL, hu⟩)⟩
    · rw [hu] at he
      simp only [Option.map_eq_some_iff, List.nil_append, exists_eq_right] at he
      obtain ⟨hl, hp⟩ := lockstep_extend h k hi
      rw [ih _ d p cs hl he, hp]
      simp
    · rw [hu] at he
      simp only [Option.map_eq_some_iff] at he
      obtain ⟨out, ho, rfl⟩ := he
      obtain ⟨d1, hr, hl⟩ := lockstep_miss h hw k h1 h2 h3 hn hL
      have h4 := ih _ d1 (p + 1) out hl ho
      simp only [List.singleton_append, decodeFrom, hr, h4]
      simp [pending, hw, encMiss]
    · rw [hu] at he
      simp only [Option.map_eq_some_iff] at he
      obtain ⟨out, ho, rfl⟩ := he
      obtain ⟨d1, d2, hr1, _, hr2, _, hr3, _⟩ := lockstep_overflow h hw k h1 h2 h3 hL
      have h4 := ih _ Dec.reset (p + 1 + 1 + 1) out lockstep_reset ho
      simp only [List.cons_append, List.nil_append, decodeFrom, hr1, hr2, hr3, h4]
      simp [pending, hw, Enc.reset]

/-- The scan of a whole input never gets stuck (41_encoder.md R129, R132). -/
theorem encodeFrom_some (ks : List Byte) (e : Enc) (h : EncInv e) : ∃ cs, encodeFrom e ks = some cs := by
  induction ks generalizing e with
  | nil =>
    rcases flushCodes_cases h with ⟨_, hf⟩ | ⟨_, _, _, _, _, _, _, hf⟩ <;> exact ⟨_, hf⟩
  | cons k ks ih =>
    obtain ⟨cs, e1, hu, h1⟩ := encUnit_inv h k
    obtain ⟨out, ho⟩ := ih e1 h1
    exact ⟨cs ++ out, by rw [encodeFrom, hu]; simp [ho]⟩

/-- The decode of a whole stream never gets stuck. -/
theorem decodeFrom_some (cs : List Code) (d : Dec) (p : Nat) (h : DecInv d) : ∃ r, decodeFrom d p cs = some r := by
  induction cs generalizing d p with
  | nil => exact ⟨_, rfl⟩
  | cons c cs ih =>
    rcases decDispatch_inv h c with ⟨out, d1, hr, h1⟩ | ⟨sub, hr, _⟩
    · obtain ⟨r, hr2⟩ := ih d1 (p + 1) h1
      exact ⟨(out ++ r.1, r.2), by rw [decodeFrom, hr]; simp [hr2]⟩
    · exact ⟨_, by rw [decodeFrom, hr]⟩

/-! ### The two units side by side -/

@[simp] theorem decAfter_nil (d : Dec) : decAfter d [] = some d := rfl

theorem decAfter_cons {d d1 : Dec} {c : Code} {out : List Byte} (h : decDispatch c d = .emits out d1) (cs : List Code) :
    decAfter d (c :: cs) = decAfter d1 cs := by
  rw [decAfter, h]

@[simp] theorem unitsAfter_nil (e : Enc) (d : Dec) : unitsAfter e d [] = some (e, d) := rfl

theorem unitsAfter_cons {e e1 : Enc} {d d1 : Dec} {k : Byte} {cs : List Code} (h1 : encUnit k e = some (cs, e1))
    (h2 : decAfter d cs = some d1) (ks : List Byte) : unitsAfter e d (k :: ks) = unitsAfter e1 d1 ks := by
  rw [unitsAfter, h1]
  simp only [h2]

theorem unitsAfter_append {e e1 : Enc} {d d1 : Dec} {ks : List Byte} (h : unitsAfter e d ks = some (e1, d1))
    (ks2 : List Byte) : unitsAfter e d (ks ++ ks2) = unitsAfter e1 d1 ks2 := by
  induction ks generalizing e d with
  | nil => cases h; rfl
  | cons k ks ih =>
    rw [unitsAfter] at h
    rw [List.cons_append, unitsAfter]
    cases hu : encUnit k e with
    | none => rw [hu] at h; cases h
    | some r =>
      rw [hu] at h
      cases hd : decAfter d r.1 with
      | none => simp only [hd] at h; cases h
      | some d2 =>
        simp only [hd] at h ⊢
        exact ih h

/-- A scan of any input from units in lockstep goes through at both, and leaves them in lockstep (43_decoder.md R183). -/
theorem unitsAfter_lockstep (ks : List Byte) {e : Enc} {d : Dec} (h : Lockstep e d) :
    ∃ e1 d1, unitsAfter e d ks = some (e1, d1) ∧ Lockstep e1 d1 := by
  induction ks generalizing e d with
  | nil => exact ⟨e, d, rfl, h⟩
  | cons k ks ih =>
    rcases encUnit_cases h.encInv k with ⟨⟨i, hi⟩, hu⟩ | ⟨w, i, hw, _, h1, h2, h3, hn, (⟨hL, hu⟩ | ⟨hL, hu⟩)⟩
    · rw [unitsAfter_cons hu (decAfter_nil d)]
      exact ih (lockstep_extend h k hi).1
    · obtain ⟨d1, hr, hl⟩ := lockstep_miss h hw k h1 h2 h3 hn hL
      rw [unitsAfter_cons hu (decAfter_cons hr [])]
      exact ih hl
    · obtain ⟨d1, d2, hr1, _, hr2, _, hr3, _⟩ := lockstep_overflow h hw k h1 h2 h3 hL
      rw [unitsAfter_cons hu (d1 := Dec.reset) (by rw [decAfter_cons hr1, decAfter_cons hr2, decAfter_cons hr3, decAfter_nil])]
      exact ih lockstep_reset

/-- Units in lockstep have tables that agree, one entry apart (43_decoder.md R182, R183). -/
theorem Lockstep.tablesAgree {e : Enc} {d : Dec} (h : Lockstep e d) : TablesAgree e d ∧ Lags e d := by
  rcases h.lag with ⟨hw, hL⟩ | ⟨v, w, _, _, hL, hag, _⟩
  · have hd : d.L = 257 := h.decInv.emptyFresh hw
    exact ⟨fun i h1 h2 => by omega, Or.inl ⟨hw, hd, hL⟩⟩
  · refine ⟨fun i h1 h2 => ?_, Or.inr hL⟩
    obtain ⟨s, hs⟩ := h.decInv.dict.appended i h1 h2
    exact ⟨s, hs, by rw [hag i h2, hs]⟩

/-- An entry is no longer than its index allows (10_state.md R43; R44 has the sharper bound). -/
theorem entry_length_le {D : Slots} {L : Nat} (h : DictInv D L) (hp : PrefixClosed D L) (i : Nat) :
    ∀ s, slotRead D i = .data s → (strBytes s).length ≤ i + 1 := by
  induction i using Nat.strong_induction_on with
  | _ i ih =>
    intro s hs
    obtain ⟨hi, hc⟩ := h.data_index hs
    by_cases h256 : i < 256
    · rw [h.literal i h256] at hs
      cases hs
      simp
    · obtain ⟨j, p, b, hj, _, hjp, hib⟩ := hp i (by omega) hi
      rw [hs] at hib
      cases hib
      have := ih j hj p hjp
      rw [strBytes_strSnoc, List.length_append, List.length_singleton]
      omega

/-- From every match, some zero bytes extend it to one that a further zero byte misses (41_encoder.md R131). -/
theorem zeros_reach_miss (n : Nat) {e : Enc} {d : Dec} {w : Str} (h : Lockstep e d) (hw : e.W = .building w)
    (hn : 65537 ≤ (strBytes w).length + n) :
    ∃ ks e1 w1, unitsAfter e d ks = some (e1, d) ∧ Lockstep e1 d ∧ e1.L = e.L ∧ e1.W = .building w1 ∧
      revLookup e1.R (strSnoc w1 0#8) = none := by
  induction n generalizing e w with
  | zero =>
    obtain ⟨i, _, hi, _, hd⟩ := h.encInv.match_index hw
    have := entry_length_le h.encInv.dict h.encInv.prefixes i w hd
    have : e.L < 65536 := h.encInv.belowCapacity
    omega
  | succ n ih =>
    rcases encUnit_cases h.encInv 0#8 with ⟨⟨i, hi⟩, hu⟩ | ⟨w', _, hw', _, _, _, _, hnone, _⟩
    · have hc : candidate e.W 0#8 = strSnoc w 0#8 := by rw [hw]; rfl
      have hl := (lockstep_extend h 0#8 hi).1
      obtain ⟨ks, e1, w1, h1, h2, h3, h4⟩ := ih (w := strSnoc w 0#8) hl (by show Match.building _ = _; rw [hc])
        (by rw [strBytes_strSnoc, List.length_append, List.length_singleton]; omega)
      exact ⟨0#8 :: ks, e1, w1, by rw [unitsAfter_cons hu (decAfter_nil d)]; exact h1, h2, h3, h4⟩
    · obtain rfl := Match.building.inj (hw.symm.trans hw')
      exact ⟨[], e, w, rfl, h, rfl, hw, hnone⟩

/-- Every length of ENC's table below the capacity is reached by some input (41_encoder.md R130, R131). -/
theorem every_length_reached (n : Nat) (hn : n < 65279) :
    ∃ ks e d w, unitsAfter Enc.reset Dec.reset ks = some (e, d) ∧ Lockstep e d ∧ e.L = 257 + n ∧ e.W = .building w := by
  induction n with
  | zero =>
    have hi : revLookup Enc.reset.R (candidate Enc.reset.W 0#8) = some 0 := revLookup_baseRev_single 0#8
    have hu : encUnit 0#8 Enc.reset = some ([], encExtend (candidate Enc.reset.W 0#8) Enc.reset) := by
      simp only [encUnit, hi]
    exact ⟨[0#8], _, _, _, by rw [unitsAfter_cons hu (decAfter_nil _)]; rfl, (lockstep_extend lockstep_reset 0#8 hi).1, rfl, rfl⟩
  | succ n ih =>
    obtain ⟨ks, e, d, w, h1, h2, h3, h4⟩ := ih (by omega)
    obtain ⟨ks2, e1, w1, g1, g2, g3, g4, g5⟩ := zeros_reach_miss 65537 h2 h4 (by omega)
    rcases encUnit_cases g2.encInv 0#8 with ⟨⟨i, hi⟩, _⟩ | ⟨w', i, hw', _, a1, a2, a3, a4, (⟨hL, hu⟩ | ⟨hL, hu⟩)⟩
    · rw [g4] at hi
      rw [show candidate (.building w1) 0#8 = strSnoc w1 0#8 from rfl, g5] at hi
      cases hi
    · obtain ⟨d1, hr, hl⟩ := lockstep_miss g2 hw' 0#8 a1 a2 a3 a4 hL
      refine ⟨ks ++ (ks2 ++ [0#8]), _, d1, Str.single 0#8, ?_, hl, ?_, rfl⟩
      · rw [unitsAfter_append h1, unitsAfter_append g1, unitsAfter_cons hu (decAfter_cons hr []), unitsAfter_nil]
      · show e1.L + 1 = _
        omega
    · omega

end Sys2Proof.Machine
end

