-- ==== Sys2Proof/Laws/PerInstr.lean ====
section
/-! SUPPORT. The family DecodesBack: each instruction's own bytes decode to it, one lemma per constructor. -/

namespace Sys2Proof.Laws

/-- The bytes of a well-formed instruction decode to it, with nothing left over. -/
def DecodesBack.Statement (i : Instr) : Prop := WellFormed i → Sys2Proof.decode i.format (Sys2Proof.encode i) = .ok (i, [])

/-- A command instruction decodes back when its word does. -/
theorem decodesBack_cmd {i : Instr} (hf : i.format = .cmd8) (h : decodeCmd (encodeCmd i) = i) : DecodesBack.Statement i := by
  intro _
  simp only [Sys2Proof.encode, hf, Sys2Proof.decode, h]

/-- A code instruction decodes back when its word does. -/
theorem decodesBack_code {i : Instr} (hf : i.format = .code16) (h : WellFormed i → decodeCode (encodeCode i) = i) :
    DecodesBack.Statement i := by
  intro hw
  simp only [Sys2Proof.encode, hf, Sys2Proof.decode, joinBytes_hi_lo, h hw]

theorem DecodesBack.compress : DecodesBack.Statement .compress := decodesBack_cmd rfl (by decide)
theorem DecodesBack.decompress : DecodesBack.Statement .decompress := decodesBack_cmd rfl (by decide)
theorem DecodesBack.encode : DecodesBack.Statement .encode := decodesBack_cmd rfl (by decide)
theorem DecodesBack.decode : DecodesBack.Statement .decode := decodesBack_cmd rfl (by decide)
theorem DecodesBack.pack : DecodesBack.Statement .pack := decodesBack_cmd rfl (by decide)
theorem DecodesBack.unpack : DecodesBack.Statement .unpack := decodesBack_cmd rfl (by decide)
theorem DecodesBack.reservedOp0 : DecodesBack.Statement .reservedOp0 := decodesBack_cmd rfl (by decide)
theorem DecodesBack.reservedOp7 : DecodesBack.Statement .reservedOp7 := decodesBack_cmd rfl (by decide)
theorem DecodesBack.reservedBit3 (op : BitVec 3) (u : BitVec 4) : DecodesBack.Statement (.reservedBit3 op u) :=
  decodesBack_cmd rfl (decodeCmd_bit3 op u)
theorem DecodesBack.reservedBit4 (op : BitVec 3) (u : BitVec 3) : DecodesBack.Statement (.reservedBit4 op u) :=
  decodesBack_cmd rfl (decodeCmd_bit4 op u)
theorem DecodesBack.reservedBit5 (op : BitVec 3) (u : BitVec 2) : DecodesBack.Statement (.reservedBit5 op u) :=
  decodesBack_cmd rfl (decodeCmd_bit5 op u)
theorem DecodesBack.reservedBit6 (op : BitVec 3) (u : BitVec 1) : DecodesBack.Statement (.reservedBit6 op u) :=
  decodesBack_cmd rfl (decodeCmd_bit6 op u)
theorem DecodesBack.reservedBit7 (op : BitVec 3) : DecodesBack.Statement (.reservedBit7 op) :=
  decodesBack_cmd rfl (decodeCmd_bit7 op)
theorem DecodesBack.lit (b : Byte) : DecodesBack.Statement (.lit b) := decodesBack_code rfl (fun _ => decodeCode_lit b)
theorem DecodesBack.clear : DecodesBack.Statement .clear := decodesBack_code rfl (fun _ => decodeCode_clear)
theorem DecodesBack.ref (c : Code) : DecodesBack.Statement (.ref c) :=
  decodesBack_code rfl (fun h => decodeCode_ref c (of_decide_eq_true h))

end Sys2Proof.Laws
end

