-- ==== Sys2Proof/Laws/Runs.lean ====
section
/-! SUPPORT. Runs of the machine: each phase, from its start to its end, and each command, from its acceptance to its end
(44_entry_points.md R204 to R221). -/

namespace Sys2Proof.Machine

/-! ### Running -/

theorem runSteps_zero (s : State) : runSteps 0 s = .next s := rfl

theorem runSteps_succ_eq (n : Nat) (s : State) : runSteps (n + 1) s =
    match step s with
    | .next t => runSteps n t
    | .fault r => .fault r
    | .refused r => .refused r := by
  refine (Host.Core.run.eq_def Sys2Proof.core (n + 1) s).trans ?_
  dsimp only
  cases h : step s with
  | next t => rw [show Sys2Proof.core.step s = .next t from h]; rfl
  | fault r => rw [show Sys2Proof.core.step s = .fault r from h]; rfl
  | refused r => rw [show Sys2Proof.core.step s = .refused r from h]; rfl

theorem runSteps_succ (n : Nat) (s t : State) (h : step s = .next t) : runSteps (n + 1) s = runSteps n t := by
  rw [runSteps_succ_eq, h]

/-- Steps add up. -/
theorem runSteps_add (m n : Nat) (s t : State) (h : runSteps m s = .next t) : runSteps (m + n) s = runSteps n t := by
  induction m generalizing s with
  | zero =>
    cases h
    rw [Nat.zero_add]
  | succ m ih =>
    rw [runSteps_succ_eq] at h
    cases hs : step s with
    | next s' =>
      rw [hs] at h
      rw [show m + 1 + n = m + n + 1 by omega, runSteps_succ _ _ _ hs]
      exact ih s' h
    | fault r => rw [hs] at h; cases h
    | refused r => rw [hs] at h; cases h

/-- OUT_LEN after a command that ended so (10_state.md R37). -/
def resultLen (r : CmdResult) : Nat :=
  match r with
  | .done out => payloadLength out
  | .faulted _ => 0

/-- Within `n` steps the machine reaches the end of its command, with this OP and this result. -/
def EndsWithin (n : Nat) (s : State) (op : BitVec 3) (r : CmdResult) : Prop :=
  ∃ k t, k ≤ n ∧ runSteps k s = .next t ∧ resultOf t = some r ∧ t.ctl.op = op ∧ t.ctl.outLen = resultLen r

theorem EndsWithin.mono {n m : Nat} {s : State} {op : BitVec 3} {r : CmdResult} (h : EndsWithin n s op r) (hm : n ≤ m) :
    EndsWithin m s op r := by
  obtain ⟨k, t, hk, h1⟩ := h
  exact ⟨k, t, le_trans hk hm, h1⟩

theorem EndsWithin.step {n : Nat} {s t : State} {op : BitVec 3} {r : CmdResult} (h : EndsWithin n t op r)
    (hs : Sys2Proof.Machine.step s = .next t) : EndsWithin (n + 1) s op r := by
  obtain ⟨k, u, hk, hr, h1⟩ := h
  exact ⟨k + 1, u, by omega, by rw [runSteps_succ _ _ _ hs]; exact hr, h1⟩

theorem EndsWithin.steps {n m : Nat} {s t : State} {op : BitVec 3} {r : CmdResult} (h : EndsWithin n t op r)
    (hs : runSteps m s = .next t) : EndsWithin (m + n) s op r := by
  obtain ⟨k, u, hk, hr, h1⟩ := h
  exact ⟨m + k, u, by omega, by rw [runSteps_add _ _ _ _ hs]; exact hr, h1⟩

/-- A step to an ended command. -/
theorem endsWithin_one {s t : State} {op : BitVec 3} {r : CmdResult} (hs : step s = .next t) (h1 : resultOf t = some r)
    (h2 : t.ctl.op = op) (h3 : t.ctl.outLen = resultLen r) : EndsWithin 1 s op r :=
  ⟨1, t, le_refl _, by rw [runSteps_succ 0 s t hs]; rfl, h1, h2, h3⟩

theorem step_of_host_nil {s : State} (h : s.host = []) : step s = engine s := by
  unfold step; rw [h]

/-! ### The bound on CTL.OUT -/

theorem finish_fits {lim : Option Nat} {x : Payload} (h : exceeds (payloadLength x) lim = false) :
    finish lim x none = .done x := by
  cases lim with
  | none => rfl
  | some m =>
    simp only [exceeds, decide_eq_false_iff_not] at h
    simp [finish, h]

theorem finish_fits_fault {lim : Option Nat} {x : Payload} {r : FaultRecord}
    (h : exceeds (payloadLength x) lim = false) : finish lim x (some r) = .faulted r := by
  cases lim with
  | none => rfl
  | some m =>
    simp only [exceeds, decide_eq_false_iff_not] at h
    simp [finish, h]

theorem finish_over {m : Nat} {x : Payload} (f : Option FaultRecord) (h : m < payloadLength x) :
    finish (some m) x f = .faulted ⟨.limitExceeded, 2#4, m, 0#16, 0⟩ := by
  cases f <;> simp [finish, h]

/-- LIMIT_EXCEEDED in OutWrite ends the command with its record. -/
theorem endsWithin_limit {s s1 : State} {m : Nat} {op : BitVec 3} {k : State → Eff}
    (hs : step s = (((raise .limitExceeded 2#4 m 0#16 0 s1).andThen k).toOutcome)) (ho : s1.ctl.op = op) :
    EndsWithin 1 s op (.faulted ⟨.limitExceeded, 2#4, m, 0#16, 0⟩) :=
  endsWithin_one hs rfl ho rfl

/-- Completion ends the command with its output. -/
theorem endsWithin_complete {s s1 : State} {op : BitVec 3} (hs : step s = .next (complete s1)) (ho : s1.ctl.op = op) :
    EndsWithin 1 s op (.done s1.ctl.out) := endsWithin_one hs rfl ho rfl

/-! ### A phase in progress -/

/-- The engine runs phase `ph`, reading `x` and writing to `snk`, with no host turn to come. -/
structure Running (s : State) (ph : Phase) (snk : Sink) (x : Payload) : Prop where
  host : s.host = []
  busy : s.ctl.state = .busy
  phase : s.ctl.phase = ph
  sink : s.ctl.snk = snk
  source : sourcePayload s.ctl = x

theorem getElem?_of_drop {α : Type} {l r : List α} {x : α} {p : Nat} (h : l.drop p = x :: r) : l[p]? = some x := by
  rw [← List.head?_drop, h]; rfl

theorem drop_succ_of_drop {α : Type} {l r : List α} {x : α} {p : Nat} (h : l.drop p = x :: r) : l.drop (p + 1) = r := by
  rw [← List.tail_drop, h]; rfl

theorem lt_of_drop {α : Type} {l r : List α} {x : α} {p : Nat} (h : l.drop p = x :: r) : p < l.length := by
  by_contra hn
  rw [List.drop_eq_nil_of_le (by omega)] at h
  cases h

theorem Running.atEnd_nil {s : State} {ph : Phase} {snk : Sink} {α : Type} {l : List α} {x : Payload}
    (h : Running s ph snk x) (hx : payloadLength x = l.length) (hp : s.ctl.pos ≤ l.length) (hd : l.drop s.ctl.pos = []) :
    atEnd s.ctl = true := by
  rw [atEnd_iff, h.source, hx]
  have := List.drop_eq_nil_iff.1 hd
  omega

theorem Running.atEnd_cons {s : State} {ph : Phase} {snk : Sink} {α : Type} {l r : List α} {a : α} {x : Payload}
    (h : Running s ph snk x) (hx : payloadLength x = l.length) (hd : l.drop s.ctl.pos = a :: r) :
    atEnd s.ctl = false := by
  rw [atEnd_false_iff, h.source, hx]
  have := lt_of_drop hd
  omega

theorem Running.inCode {s : State} {ph : Phase} {snk : Sink} {l r : List Code} {c : Code}
    (h : Running s ph snk (.codes l)) (hd : l.drop s.ctl.pos = c :: r) : inCode s = some (c, advance s) := by
  rw [inCode_eq_some, h.source]
  exact ⟨getElem?_of_drop hd, rfl⟩

theorem Running.inByte {s : State} {ph : Phase} {snk : Sink} {l r : List Byte} {b : Byte}
    (h : Running s ph snk (.bytes l)) (hd : l.drop s.ctl.pos = b :: r) : inByte s = some (b, advance s) := by
  rw [inByte_eq_some, h.source]
  exact ⟨getElem?_of_drop hd, rfl⟩

/-- Reading, writing CTL.OUT and changing the units leave the phase running. -/
theorem Running.next_out {s : State} {ph : Phase} {x : Payload} (h : Running s ph .out x) (o : Payload) (p : Nat)
    (e : Enc) (d : Dec) :
    Running (((s.setCtl (ctlSetOut o (ctlSetPos p s.ctl))).setEnc e).setDec d) ph .out x :=
  ⟨h.host, h.busy, h.phase, h.sink, h.source⟩

/-- Reading CTL.IN, writing CTL.MID and changing ENC leave the phase running. -/
theorem Running.next_mid {s : State} {ph : Phase} {x : Payload} (h : Running s ph .mid x) (hs : s.ctl.src = .input)
    (m : List Code) (p : Nat) (e : Enc) :
    Running ((s.setCtl (ctlSetMid m (ctlSetPos p s.ctl))).setEnc e) ph .mid x := by
  refine ⟨h.host, h.busy, h.phase, h.sink, ?_⟩
  have h1 := h.source
  simp only [sourcePayload, hs] at h1
  simp [sourcePayload, hs, h1]

/-! ### The last phase of a command -/

/-- A PACK phase ends its command (42_bit_packer.md R151). -/
theorem pack_ends (rest : List Code) : ∀ (s : State) (cs : List Code) (l : List Byte), Running s .pack .out (.codes cs) →
    s.ctl.pos ≤ cs.length → cs.drop s.ctl.pos = rest → s.ctl.out = .bytes l →
    exceeds l.length s.config.maxOutUnits = false →
    EndsWithin (rest.length + 1) s s.ctl.op (finish s.config.maxOutUnits (.bytes (l ++ packPairs rest)) none) := by
  induction rest with
  | nil =>
    intro s cs l h hp hd ho hl
    have hstep : step s = .next (complete s) := by
      rw [step_of_host_nil h.host, engine, h.busy, h.phase]
      simp [runPack, h.atEnd_nil rfl hp hd, phaseEnd, h.phase]
    have := endsWithin_complete hstep rfl
    rw [ho] at this
    rw [packPairs, List.append_nil, finish_fits (x := .bytes l) hl]
    exact this
  | cons c rest ih =>
    intro s cs l h hp hd ho hl
    have hstep : step s = (outBytes [hiByte c, loByte c] (advance s)).toOutcome := by
      rw [step_of_host_nil h.host, engine, h.busy, h.phase]
      simp only [runPack, h.atEnd_cons rfl hd, Bool.false_eq_true, if_false, packStep, h.inCode hd, outByte_pair]
    cases hx : exceeds (l.length + [hiByte c, loByte c].length) s.config.maxOutUnits with
    | false =>
      rw [outBytes_fits [hiByte c, loByte c] l (advance s) h.sink ho hx] at hstep
      have h2 := ih _ cs _ (h.next_out (.bytes (l ++ [hiByte c, loByte c])) (s.ctl.pos + 1) s.enc s.dec) (lt_of_drop hd)
        (drop_succ_of_drop hd) rfl (by simpa using hx)
      have h3 := h2.step hstep
      simpa [packPairs] using h3
    | true =>
      cases hm : s.config.maxOutUnits with
      | none => rw [hm] at hx; cases hx
      | some m =>
        rw [hm] at hx hl
        have hx := (exceeds_some _ _).1 hx
        simp only [exceeds, decide_eq_false_iff_not, not_lt] at hl
        rw [outBytes_over [hiByte c, loByte c] l (advance s) m h.sink ho hm hl hx] at hstep
        rw [finish_over _ (by simp [packPairs] at hx ⊢; omega)]
        exact (endsWithin_limit (k := .go) hstep rfl).mono (by omega)

/-- A DECODE phase ends its command (43_decoder.md R171, R180). -/
theorem decode_ends (rest : List Code) : ∀ (s : State) (cs : List Code) (l : List Byte) (r : List Byte × Option FaultRecord),
    Running s .decode .out (.codes cs) → DecInv s.dec → s.ctl.pos ≤ cs.length → cs.drop s.ctl.pos = rest →
    s.ctl.out = .bytes l → exceeds l.length s.config.maxOutUnits = false →
    decodeFrom s.dec s.ctl.pos rest = some r →
    EndsWithin (rest.length + 1) s s.ctl.op (finish s.config.maxOutUnits (.bytes (l ++ r.1)) r.2) := by
  induction rest with
  | nil =>
    intro s cs l r h hI hp hd ho hl hr
    have hstep : step s = .next (complete s) := by
      rw [step_of_host_nil h.host, engine, h.busy, h.phase]
      simp [runDecode, h.atEnd_nil rfl hp hd, phaseEnd, h.phase]
    have := endsWithin_complete hstep rfl
    rw [ho] at this
    obtain rfl := Option.some.inj hr
    rw [List.append_nil, finish_fits (x := .bytes l) hl]
    exact this
  | cons c rest ih =>
    intro s cs l r h hI hp hd ho hl hr
    have hstep : step s = (decApply c (decDispatch c s.dec) (advance s)).toOutcome := by
      rw [step_of_host_nil h.host, engine, h.busy, h.phase]
      simp only [runDecode, h.atEnd_cons rfl hd, Bool.false_eq_true, if_false, h.inCode hd, exec_decodeCode, advance_dec]
    rw [decodeFrom] at hr
    rcases decDispatch_inv hI c with ⟨out, d1, he, h1⟩ | ⟨sub, he, _⟩
    · rw [he] at hr hstep
      simp only [Option.map_eq_some_iff] at hr
      obtain ⟨r1, hr1, rfl⟩ := hr
      simp only [decApply] at hstep
      cases hx : exceeds (l.length + out.length) s.config.maxOutUnits with
      | false =>
        rw [outBytes_fits out l (advance s) h.sink ho hx] at hstep
        have h2 := ih _ cs _ r1 (h.next_out (.bytes (l ++ out)) (s.ctl.pos + 1) s.enc d1) h1 (lt_of_drop hd)
          (drop_succ_of_drop hd) rfl (by simpa using hx) hr1
        have h3 := h2.step hstep
        simpa using h3
      | true =>
        cases hm : s.config.maxOutUnits with
        | none => rw [hm] at hx; cases hx
        | some m =>
          rw [hm] at hx hl
          have hx := (exceeds_some _ _).1 hx
          simp only [exceeds, decide_eq_false_iff_not, not_lt] at hl
          rw [outBytes_over out l (advance s) m h.sink ho hm hl hx] at hstep
          rw [finish_over _ (by simp; omega)]
          exact (endsWithin_limit hstep rfl).mono (by omega)
    · rw [he] at hr hstep
      obtain rfl := Option.some.inj hr
      rw [List.append_nil, finish_fits_fault (x := .bytes l) hl]
      refine (endsWithin_one hstep ?_ rfl rfl).mono (by omega)
      have hL : s.dec.L ≤ 65536 := hI.dict.leCapacity
      simp only [resultOf, State.setCtl_ctl, ctlFault_state, ctlFault_cause, ctlFault_subcause, ctlFault_faultPos,
        ctlFault_faultCode, ctlFault_faultLen, advance_ctl_pos, advance_dec, Nat.add_sub_cancel, BitVec.toNat_ofNat]
      rw [Nat.mod_eq_of_lt (by omega)]

/-- An ENCODE phase that writes CTL.OUT ends its command (41_encoder.md R121, R126). -/
theorem encode_ends (rest : List Byte) : ∀ (s : State) (ks : List Byte) (l cs : List Code),
    Running s .encode .out (.bytes ks) → s.ctl.op ≠ opCompress → EncInv s.enc → s.ctl.pos ≤ ks.length →
    ks.drop s.ctl.pos = rest → s.ctl.out = .codes l → exceeds l.length s.config.maxOutUnits = false →
    encodeFrom s.enc rest = some cs →
    EndsWithin (rest.length + 1) s s.ctl.op (finish s.config.maxOutUnits (.codes (l ++ cs)) none) := by
  induction rest with
  | nil =>
    intro s ks l cs h hop hI hp hd ho hl hr
    rw [encodeFrom] at hr
    have hstep : step s = ((outCodes cs s).andThen phaseEnd).toOutcome := by
      rw [step_of_host_nil h.host, engine, h.busy, h.phase]
      simp [runEncode, h.atEnd_nil rfl hp hd, encFlush, hr]
    cases hx : exceeds (l.length + cs.length) s.config.maxOutUnits with
    | false =>
      rw [outCodes_fits cs l s h.sink ho hx, andThen_go, phaseEnd, if_neg (by intro hc; exact hop hc.1),
        if_neg (by intro hc; have := hc.2; simp [h.phase] at this)] at hstep
      rw [finish_fits (by simpa using hx)]
      exact endsWithin_complete hstep rfl
    | true =>
      cases hm : s.config.maxOutUnits with
      | none => rw [hm] at hx; cases hx
      | some m =>
        rw [hm] at hx hl
        have hx := (exceeds_some _ _).1 hx
        simp only [exceeds, decide_eq_false_iff_not, not_lt] at hl
        rw [outCodes_over cs l s m h.sink ho hm hl hx] at hstep
        rw [finish_over _ (by simp; omega)]
        exact endsWithin_limit hstep rfl
  | cons k rest ih =>
    intro s ks l cs h hop hI hp hd ho hl hr
    obtain ⟨out, e1, hu, h1⟩ := encUnit_inv hI k
    have hstep : step s = ((outCodes out (advance s)).andThen (fun s2 => .go (s2.setEnc e1))).toOutcome := by
      rw [step_of_host_nil h.host, engine, h.busy, h.phase]
      simp only [runEncode, h.atEnd_cons rfl hd, Bool.false_eq_true, if_false, encStep, h.inByte hd, advance_enc, hu]
    rw [encodeFrom, hu] at hr
    simp only [Option.map_eq_some_iff] at hr
    obtain ⟨cs1, hr1, rfl⟩ := hr
    cases hx : exceeds (l.length + out.length) s.config.maxOutUnits with
    | false =>
      rw [outCodes_fits out l (advance s) h.sink ho hx] at hstep
      have h2 := ih _ ks _ cs1 (h.next_out (.codes (l ++ out)) (s.ctl.pos + 1) e1 s.dec) hop h1 (lt_of_drop hd)
        (drop_succ_of_drop hd) rfl (by simpa using hx) hr1
      have h3 := h2.step hstep
      simpa using h3
    | true =>
      cases hm : s.config.maxOutUnits with
      | none => rw [hm] at hx; cases hx
      | some m =>
        rw [hm] at hx hl
        have hx := (exceeds_some _ _).1 hx
        simp only [exceeds, decide_eq_false_iff_not, not_lt] at hl
        rw [outCodes_over out l (advance s) m h.sink ho hm hl hx] at hstep
        rw [finish_over _ (by simp; omega)]
        exact (endsWithin_limit hstep rfl).mono (by omega)

/-- An UNPACK phase that writes CTL.OUT ends its command (42_bit_packer.md R156). -/
theorem unpack_ends (rest : List Byte) : ∀ (s : State) (bs : List Byte) (l : List Code),
    Running s .unpack .out (.bytes bs) → s.ctl.op ≠ opDecompress → rest.length % 2 = 0 → s.ctl.pos ≤ bs.length →
    bs.drop s.ctl.pos = rest → s.ctl.out = .codes l → exceeds l.length s.config.maxOutUnits = false →
    EndsWithin (rest.length + 1) s s.ctl.op (finish s.config.maxOutUnits (.codes (l ++ unpackPairs rest)) none) := by
  induction rest using unpackPairs.induct with
  | case1 hi lo rest ih =>
    intro s bs l h hop hev hp hd ho hl
    have hd1 : bs.drop (s.ctl.pos + 1) = lo :: rest := drop_succ_of_drop hd
    have hin2 : inByte (advance s) = some (lo, advance (advance s)) := by
      rw [inByte_eq_some]
      refine ⟨?_, rfl⟩
      have : sourcePayload (advance s).ctl = .bytes bs := h.source
      rw [this]
      exact getElem?_of_drop hd1
    have hstep : step s = (outCodes [joinBytes hi lo] (advance (advance s))).toOutcome := by
      rw [step_of_host_nil h.host, engine, h.busy, h.phase]
      simp only [runUnpack, h.atEnd_cons rfl hd, Bool.false_eq_true, if_false, unpackStep, h.inByte hd, hin2, outCode_eq]
    cases hx : exceeds (l.length + [joinBytes hi lo].length) s.config.maxOutUnits with
    | false =>
      rw [outCodes_fits [joinBytes hi lo] l (advance (advance s)) h.sink ho hx] at hstep
      have h2 := ih _ bs _ (h.next_out (.codes (l ++ [joinBytes hi lo])) (s.ctl.pos + 1 + 1) s.enc s.dec) hop
        (by simp only [List.length_cons] at hev; omega) (lt_of_drop hd1) (drop_succ_of_drop hd1) rfl (by simpa using hx)
      have h3 := h2.step hstep
      refine EndsWithin.mono ?_ (show rest.length + 1 + 1 ≤ _ by simp)
      simpa [unpackPairs] using h3
    | true =>
      cases hm : s.config.maxOutUnits with
      | none => rw [hm] at hx; cases hx
      | some m =>
        rw [hm] at hx hl
        have hx := (exceeds_some _ _).1 hx
        simp only [exceeds, decide_eq_false_iff_not, not_lt] at hl
        rw [outCodes_over [joinBytes hi lo] l (advance (advance s)) m h.sink ho hm hl hx] at hstep
        rw [finish_over _ (by simp [unpackPairs] at hx ⊢; omega)]
        exact (endsWithin_limit (k := .go) hstep rfl).mono (by omega)
  | case2 rest hn =>
    intro s bs l h hop hev hp hd ho hl
    have hnil : rest = [] := by
      match rest, hn with
      | [], _ => rfl
      | [b], _ => simp at hev
      | a :: b :: r, hn => exact absurd rfl (hn a b r)
    subst hnil
    have hstep : step s = .next (complete s) := by
      rw [step_of_host_nil h.host, engine, h.busy, h.phase]
      simp [runUnpack, h.atEnd_nil rfl hp hd, phaseEnd, hop, h.phase]
    have := endsWithin_complete hstep rfl
    rw [ho] at this
    rw [unpackPairs, List.append_nil, finish_fits (x := .codes l) hl]
    · exact this
    · exact hn

/-! ### The first phase of COMPRESS and DECOMPRESS -/

/-- The ENCODE phase of COMPRESS fills CTL.MID and starts PACK (44_entry_points.md R208). -/
theorem encode_to_pack (rest : List Byte) : ∀ (s : State) (ks : List Byte) (cs : List Code),
    Running s .encode .mid (.bytes ks) → s.ctl.src = .input → s.ctl.op = opCompress → EncInv s.enc →
    s.ctl.pos ≤ ks.length → ks.drop s.ctl.pos = rest → encodeFrom s.enc rest = some cs →
    ∃ t, runSteps (rest.length + 1) s = .next t ∧ Running t .pack .out (.codes (s.ctl.mid ++ cs)) ∧ t.ctl.pos = 0 ∧
      t.ctl.out = s.ctl.out ∧ t.ctl.op = s.ctl.op ∧ t.config = s.config := by
  induction rest with
  | nil =>
    intro s ks cs h hsrc hop hI hp hd hr
    rw [encodeFrom] at hr
    have hstep : step s = ((outCodes cs s).andThen phaseEnd).toOutcome := by
      rw [step_of_host_nil h.host, engine, h.busy, h.phase]
      simp [runEncode, h.atEnd_nil rfl hp hd, encFlush, hr]
    rw [outCodes_mid cs s h.sink, andThen_go, phaseEnd, if_pos ⟨hop, h.phase⟩] at hstep
    exact ⟨_, runSteps_succ 0 s _ hstep, ⟨h.host, h.busy, rfl, rfl, rfl⟩, rfl, rfl, rfl, rfl⟩
  | cons k rest ih =>
    intro s ks cs h hsrc hop hI hp hd hr
    obtain ⟨out, e1, hu, h1⟩ := encUnit_inv hI k
    have hstep : step s = ((outCodes out (advance s)).andThen (fun s2 => .go (s2.setEnc e1))).toOutcome := by
      rw [step_of_host_nil h.host, engine, h.busy, h.phase]
      simp only [runEncode, h.atEnd_cons rfl hd, Bool.false_eq_true, if_false, encStep, h.inByte hd, advance_enc, hu]
    rw [encodeFrom, hu] at hr
    simp only [Option.map_eq_some_iff] at hr
    obtain ⟨cs1, hr1, rfl⟩ := hr
    rw [outCodes_mid out (advance s) h.sink] at hstep
    obtain ⟨t, h2, h3, h4⟩ := ih _ ks cs1 (h.next_mid hsrc (s.ctl.mid ++ out) (s.ctl.pos + 1) e1) hsrc hop h1 (lt_of_drop hd)
      (drop_succ_of_drop hd) hr1
    refine ⟨t, ?_, by simpa using h3, h4⟩
    rw [List.length_cons, runSteps_succ _ _ _ hstep]
    exact h2

/-- The UNPACK phase of DECOMPRESS fills CTL.MID and starts DECODE (44_entry_points.md R209). -/
theorem unpack_to_decode (rest : List Byte) : ∀ (s : State) (bs : List Byte),
    Running s .unpack .mid (.bytes bs) → s.ctl.src = .input → s.ctl.op = opDecompress → rest.length % 2 = 0 →
    s.ctl.pos ≤ bs.length → bs.drop s.ctl.pos = rest →
    ∃ t k, k ≤ rest.length + 1 ∧ runSteps k s = .next t ∧ Running t .decode .out (.codes (s.ctl.mid ++ unpackPairs rest)) ∧
      t.ctl.pos = 0 ∧ t.ctl.out = s.ctl.out ∧ t.ctl.op = s.ctl.op ∧ t.config = s.config ∧ t.dec = Dec.reset := by
  induction rest using unpackPairs.induct with
  | case1 hi lo rest ih =>
    intro s bs h hsrc hop hev hp hd
    have hd1 : bs.drop (s.ctl.pos + 1) = lo :: rest := drop_succ_of_drop hd
    have hin2 : inByte (advance s) = some (lo, advance (advance s)) := by
      rw [inByte_eq_some]
      refine ⟨?_, rfl⟩
      have : sourcePayload (advance s).ctl = .bytes bs := h.source
      rw [this]
      exact getElem?_of_drop hd1
    have hstep : step s = (outCodes [joinBytes hi lo] (advance (advance s))).toOutcome := by
      rw [step_of_host_nil h.host, engine, h.busy, h.phase]
      simp only [runUnpack, h.atEnd_cons rfl hd, Bool.false_eq_true, if_false, unpackStep, h.inByte hd, hin2, outCode_eq]
    rw [outCodes_mid _ (advance (advance s)) h.sink] at hstep
    obtain ⟨t, k, hk, h2, h3, h4⟩ := ih _ bs
      (h.next_mid hsrc (s.ctl.mid ++ [joinBytes hi lo]) (s.ctl.pos + 1 + 1) s.enc) hsrc hop
      (by simp only [List.length_cons] at hev; omega) (lt_of_drop hd1) (drop_succ_of_drop hd1)
    refine ⟨t, k + 1, by simp only [List.length_cons]; omega, ?_, by simpa [unpackPairs] using h3, h4⟩
    rw [runSteps_succ _ _ _ hstep]
    exact h2
  | case2 rest hn =>
    intro s bs h hsrc hop hev hp hd
    have hnil : rest = [] := by
      match rest, hn with
      | [], _ => rfl
      | [b], _ => simp at hev
      | a :: b :: r, hn => exact absurd rfl (hn a b r)
    subst hnil
    have hstep : step s = (startDecode .mid s).toOutcome := by
      rw [step_of_host_nil h.host, engine, h.busy, h.phase]
      simp [runUnpack, h.atEnd_nil rfl hp hd, phaseEnd, hop, h.phase, opCompress, opDecompress]
    refine ⟨_, 1, by simp, runSteps_succ 0 s _ hstep, ⟨h.host, h.busy, rfl, rfl, ?_⟩, rfl, rfl, rfl, rfl, rfl⟩
    rw [unpackPairs, List.append_nil]
    · rfl
    · exact hn

/-! ### The round trip at the units -/

/-- Every input round-trips (43_decoder.md R186). -/
theorem roundTrips (ks : List Byte) : RoundTrips ks := by
  obtain ⟨cs, hcs⟩ := encodeFrom_some ks Enc.reset encInv_reset
  have hd : decodeAll cs = some (ks, none) := decodeFrom_encodeFrom ks _ _ 0 cs lockstep_reset hcs
  exact ⟨cs, hcs, hd, by rw [packBits_eq, unpackBits_eq, unpackPairs_packPairs, hd]⟩

end Sys2Proof.Machine
end

