-- ==== Sys2Proof/Laws/Turns.lean ====
section
/-! SUPPORT. What one turn can do, said once: an acceptance (44_entry_points.md R201), a write to a sink (R207), a turn of the
engine (R204). Nothing here assumes the invariant. -/

namespace Sys2Proof.Machine

/-! ### Whose turn it is -/

/-- Where the engine's turn comes next, the step is the engine's, from the state that has the turn taken (44_entry_points.md
R218). -/
theorem EngineTurn.step_eq {s0 s : State} (h : EngineTurn s0 s) : step s0 = engine s := by
  rcases h with ⟨h, rfl⟩ | rfl
  · unfold step; rw [h]
  · rfl

/-! ### Acceptance -/

/-- A write of register 0 runs the command it names, with the turn taken and its payload offered (R200). -/
theorem step_write0 {s : State} {v : Byte} {x : Payload} {rest : List HostAct} (h : s.host = .write 0 v x :: rest) :
    step s = exec (decodeCmd v) ((s.setHost rest).setOffered x) := by
  unfold step
  rw [h]
  rfl

/-- UnpackStart refuses a source of odd length (42_bit_packer.md R155). -/
theorem startUnpack_odd (snk : Sink) (s : State) (h : payloadLength s.ctl.input % 2 = 1) :
    startUnpack snk s =
      raise .misalignedStream 0#4 (payloadLength s.ctl.input) 0#16 0 (rewind (enterPhase .unpack .input snk s)) := by
  unfold startUnpack unpackStart
  simp only [enterPhase, State.setCtl_ctl, sourcePayload, h, if_true]
  rfl

/-- UnpackStart accepts a source of even length (42_bit_packer.md R155). -/
theorem startUnpack_even (snk : Sink) (s : State) (h : ¬ payloadLength s.ctl.input % 2 = 1) :
    startUnpack snk s = .go (rewind (enterPhase .unpack .input snk s)) := by
  unfold startUnpack unpackStart
  simp only [enterPhase, State.setCtl_ctl, sourcePayload, h, if_false]
  rfl

/-- A payload within the bound: the first phase starts on the accepted state. -/
theorem accept_within {op : BitVec 3} {ik ok : Kind} {start : State → Eff} {s : State} (hq : s.ctl.state ≠ .busy)
    (hk : payloadKind s.offered = ik) (hx : exceeds (payloadLength s.offered) s.config.maxInUnits = false) :
    accept op ik ok start s = start (s.setCtl (ctlAccept op ok s.offered s.ctl)) := by
  unfold accept
  rw [if_neg hq, if_neg (by simp [hk])]
  simp only [hx, Bool.false_eq_true, if_false]

/-- A payload over the bound: LIMIT_EXCEEDED, subcause 1 (60_exceptions.md R236). -/
theorem accept_over {op : BitVec 3} {ik ok : Kind} {start : State → Eff} {s : State} (hq : s.ctl.state ≠ .busy)
    (hk : payloadKind s.offered = ik) (hx : exceeds (payloadLength s.offered) s.config.maxInUnits = true) :
    accept op ik ok start s =
      raise .limitExceeded 1#4 (payloadLength s.offered) 0#16 0 (s.setCtl (ctlAccept op ok s.offered s.ctl)) := by
  unfold accept
  rw [if_neg hq, if_neg (by simp [hk])]
  simp only [hx, if_true]

/-- An accepted command in its first phase: BUSY, no fault record, at the start of its captured payload (R201, R204). -/
structure Fresh (x : Payload) (t : State) : Prop where
  state : t.ctl.state = .busy
  cause : t.ctl.cause = .none
  subcause : t.ctl.subcause = 0#4
  faultPos : t.ctl.faultPos = 0
  faultCode : t.ctl.faultCode = 0#16
  faultLen : t.ctl.faultLen = 0#17
  pos : t.ctl.pos = 0
  source : sourcePayload t.ctl = x

/-- An acceptance that answers is of a block that was not BUSY, and leaves a fault or a command in its first phase. -/
theorem accept_cases {op : BitVec 3} {ik ok : Kind} {start : State → Eff} {s t : State}
    (h : (accept op ik ok start s).toOutcome = .next t)
    (hst : ∀ u : State, (start (s.setCtl (ctlAccept op ok s.offered s.ctl))).toOutcome = .next u →
      u.ctl.state = .fault ∨ Fresh s.offered u) :
    s.ctl.state ≠ .busy ∧ (t.ctl.state = .fault ∨ Fresh s.offered t) := by
  by_cases hb : s.ctl.state = .busy
  · simp [accept, hb, Eff.toOutcome] at h
  · refine ⟨hb, ?_⟩
    by_cases hk : payloadKind s.offered = ik
    · cases hx : exceeds (payloadLength s.offered) s.config.maxInUnits with
      | true => rw [accept_over hb hk hx] at h; cases h; exact Or.inl rfl
      | false => rw [accept_within hb hk hx] at h; exact hst t h
    · simp [accept, hb, hk, Eff.toOutcome] at h

theorem startUnpack_cases {snk : Sink} {s t : State} {op : BitVec 3} {ok : Kind} {x : Payload}
    (h : (startUnpack snk (s.setCtl (ctlAccept op ok x s.ctl))).toOutcome = .next t) :
    t.ctl.state = .fault ∨ Fresh x t := by
  by_cases ho : payloadLength (s.setCtl (ctlAccept op ok x s.ctl)).ctl.input % 2 = 1
  · rw [startUnpack_odd _ _ ho] at h
    cases h
    exact Or.inl rfl
  · rw [startUnpack_even _ _ ho] at h
    cases h
    exact Or.inr ⟨rfl, rfl, rfl, rfl, rfl, rfl, rfl, rfl⟩

/-- A write of register 0 that answers is an acceptance (R200, R201). -/
theorem write0_cases {s t : State} {v : Byte} {x : Payload} {rest : List HostAct} (hh : s.host = .write 0 v x :: rest)
    (h : step s = .next t) : s.ctl.state ≠ .busy ∧ (t.ctl.state = .fault ∨ Fresh x t) := by
  rw [step_write0 hh] at h
  by_cases hr : isReserved v
  · rw [exec_reserved hr] at h
    unfold acceptReserved at h
    split at h
    · cases h
    · cases h; exact ⟨‹_›, Or.inl rfl⟩
  · rcases decodeCmd_defined hr with ⟨_, hi⟩ | ⟨_, hi⟩ | ⟨_, hi⟩ | ⟨_, hi⟩ | ⟨_, hi⟩ | ⟨_, hi⟩ <;> rw [hi] at h
    · exact accept_cases (s := (s.setHost rest).setOffered x) h
        (fun u hu => by cases hu; exact Or.inr ⟨rfl, rfl, rfl, rfl, rfl, rfl, rfl, rfl⟩)
    · exact accept_cases (s := (s.setHost rest).setOffered x) h (fun u hu => startUnpack_cases hu)
    · exact accept_cases (s := (s.setHost rest).setOffered x) h
        (fun u hu => by cases hu; exact Or.inr ⟨rfl, rfl, rfl, rfl, rfl, rfl, rfl, rfl⟩)
    · exact accept_cases (s := (s.setHost rest).setOffered x) h
        (fun u hu => by cases hu; exact Or.inr ⟨rfl, rfl, rfl, rfl, rfl, rfl, rfl, rfl⟩)
    · exact accept_cases (s := (s.setHost rest).setOffered x) h
        (fun u hu => by cases hu; exact Or.inr ⟨rfl, rfl, rfl, rfl, rfl, rfl, rfl, rfl⟩)
    · exact accept_cases (s := (s.setHost rest).setOffered x) h (fun u hu => startUnpack_cases hu)

/-! ### Writing to a sink -/

/-- What writing units to a sink changes when it goes on: the sinks grow, and nothing else (R207). -/
structure Grow (s t : State) : Prop where
  mid : ∃ m, t.ctl.mid = s.ctl.mid ++ m
  out : (∃ l x, s.ctl.out = .bytes l ∧ t.ctl.out = .bytes (l ++ x)) ∨ (∃ l x, s.ctl.out = .codes l ∧ t.ctl.out = .codes (l ++ x))
  state : t.ctl.state = s.ctl.state
  phase : t.ctl.phase = s.ctl.phase
  op : t.ctl.op = s.ctl.op
  enc : t.enc = s.enc
  dec : t.dec = s.dec
  pos : t.ctl.pos = s.ctl.pos
  host : t.host = s.host
  config : t.config = s.config
  offered : t.offered = s.offered

theorem Grow.refl (s : State) : Grow s s := by
  refine ⟨⟨[], by simp⟩, ?_, rfl, rfl, rfl, rfl, rfl, rfl, rfl, rfl, rfl⟩
  cases h : s.ctl.out with
  | bytes l => exact Or.inl ⟨l, [], rfl, by simp⟩
  | codes l => exact Or.inr ⟨l, [], rfl, by simp⟩

theorem Grow.trans {s t u : State} (h : Grow s t) (h' : Grow t u) : Grow s u where
  mid := by
    obtain ⟨m, hm⟩ := h.mid
    obtain ⟨m', hm'⟩ := h'.mid
    exact ⟨m ++ m', by rw [hm', hm, List.append_assoc]⟩
  out := by
    rcases h.out with ⟨l, x, h1, h2⟩ | ⟨l, x, h1, h2⟩ <;> rcases h'.out with ⟨l', x', h3, h4⟩ | ⟨l', x', h3, h4⟩ <;>
      rw [h2] at h3 <;> cases h3
    · exact Or.inl ⟨l, x ++ x', h1, by rw [h4, List.append_assoc]⟩
    · exact Or.inr ⟨l, x ++ x', h1, by rw [h4, List.append_assoc]⟩
  state := h'.state.trans h.state
  phase := h'.phase.trans h.phase
  op := h'.op.trans h.op
  enc := h'.enc.trans h.enc
  dec := h'.dec.trans h.dec
  pos := h'.pos.trans h.pos
  host := h'.host.trans h.host
  config := h'.config.trans h.config
  offered := h'.offered.trans h.offered

/-- What a raised fault leaves (60_exceptions.md R238). -/
structure Raised (s t : State) : Prop where
  mid : ∃ m, t.ctl.mid = s.ctl.mid ++ m
  state : t.ctl.state = .fault
  out : payloadLength t.ctl.out = 0
  outLen : t.ctl.outLen = 0
  phase : t.ctl.phase = .none
  op : t.ctl.op = s.ctl.op
  enc : t.enc = s.enc
  dec : t.dec = s.dec
  host : t.host = s.host
  config : t.config = s.config
  offered : t.offered = s.offered

/-- A part of a step that goes on has only grown the sinks; one that raises leaves a fault. -/
def EffOk (s : State) (e : Eff) : Prop :=
  match e with
  | .go t => Grow s t
  | .raised t => Raised s t
  | .stuck _ => True

theorem raise_ok (s : State) (cause : Cause) (sub : BitVec 4) (pos : Nat) (code : Code) (len : Nat) :
    EffOk s (raise cause sub pos code len s) :=
  ⟨⟨[], by simp⟩, rfl, payloadLength_emptyPayload _, rfl, rfl, rfl, rfl, rfl, rfl, rfl, rfl⟩

theorem Grow.raised {s t u : State} (h : Grow s t) (h' : Raised t u) : Raised s u where
  mid := by
    obtain ⟨m, hm⟩ := h.mid
    obtain ⟨m', hm'⟩ := h'.mid
    exact ⟨m ++ m', by rw [hm', hm, List.append_assoc]⟩
  state := h'.state
  out := h'.out
  outLen := h'.outLen
  phase := h'.phase
  op := h'.op.trans h.op
  enc := h'.enc.trans h.enc
  dec := h'.dec.trans h.dec
  host := h'.host.trans h.host
  config := h'.config.trans h.config
  offered := h'.offered.trans h.offered

theorem effOk_andThen {s : State} {e : Eff} {k : State → Eff} (h : EffOk s e) (hk : ∀ t, Grow s t → EffOk t (k t)) :
    EffOk s (e.andThen k) := by
  cases e with
  | go t =>
    have h1 := hk t h
    rw [andThen_go]
    cases hkt : k t with
    | go u => rw [hkt] at h1; exact h.trans h1
    | raised u => rw [hkt] at h1; exact h.raised h1
    | stuck r => trivial
  | raised t => exact h
  | stuck r => trivial

theorem outByte_ok (b : Byte) (s : State) : EffOk s (outByte b s) := by
  unfold outByte
  split
  · trivial
  · split
    · trivial
    · split
      · exact raise_ok _ _ _ _ _ _
      · exact ⟨⟨[], by simp⟩, Or.inl ⟨_, [b], ‹_›, rfl⟩, rfl, rfl, rfl, rfl, rfl, rfl, rfl, rfl, rfl⟩

theorem outCode_ok (c : Code) (s : State) : EffOk s (outCode c s) := by
  unfold outCode
  split
  · exact ⟨⟨[c], rfl⟩, (Grow.refl s).out, rfl, rfl, rfl, rfl, rfl, rfl, rfl, rfl, rfl⟩
  · split
    · trivial
    · split
      · exact raise_ok _ _ _ _ _ _
      · exact ⟨⟨[], by simp⟩, Or.inr ⟨_, [c], ‹_›, rfl⟩, rfl, rfl, rfl, rfl, rfl, rfl, rfl, rfl, rfl⟩

theorem outBytes_ok (bs : List Byte) (s : State) : EffOk s (outBytes bs s) := by
  induction bs generalizing s with
  | nil => exact Grow.refl s
  | cons b bs ih => exact effOk_andThen (outByte_ok b s) (fun t _ => ih t)

theorem outCodes_ok (cs : List Code) (s : State) : EffOk s (outCodes cs s) := by
  induction cs generalizing s with
  | nil => exact Grow.refl s
  | cons c cs ih => exact effOk_andThen (outCode_ok c s) (fun t _ => ih t)

/-! ### The engine -/

/-- What a turn of the engine from BUSY can do. -/
structure Turn (s t : State) : Prop where
  mid : ∃ m, t.ctl.mid = s.ctl.mid ++ m
  out : (t.ctl.state = .fault ∧ payloadLength t.ctl.out = 0 ∧ t.ctl.outLen = 0) ∨
    (∃ l x, s.ctl.out = .bytes l ∧ t.ctl.out = .bytes (l ++ x)) ∨
    (∃ l x, s.ctl.out = .codes l ∧ t.ctl.out = .codes (l ++ x))
  state : t.ctl.state = .busy ∨ t.ctl.state = .done ∨ t.ctl.state = .fault
  op : t.ctl.op = s.ctl.op
  host : t.host = s.host
  config : t.config = s.config
  offered : t.offered = s.offered
  encode : s.ctl.phase = .encode → t.dec = s.dec
  decode : s.ctl.phase = .decode → t.enc = s.enc
  pack : s.ctl.phase = .pack → t.enc = s.enc ∧ t.dec = s.dec
  unpack : s.ctl.phase = .unpack → t.enc = s.enc ∧
    (t.dec = s.dec ∨ (t.ctl.phase = .decode ∧ t.dec = Dec.reset))

theorem Grow.turn {s t : State} (hb : s.ctl.state = .busy) (h : Grow s t) : Turn s t :=
  ⟨h.mid, Or.inr h.out, Or.inl (h.state.trans hb), h.op, h.host, h.config, h.offered, fun _ => h.dec, fun _ => h.enc,
    fun _ => ⟨h.enc, h.dec⟩, fun _ => ⟨h.enc, Or.inl h.dec⟩⟩

theorem Raised.turn {s t : State} (h : Raised s t) : Turn s t :=
  ⟨h.mid, Or.inl ⟨h.state, h.out, h.outLen⟩, Or.inr (Or.inr h.state), h.op, h.host, h.config, h.offered, fun _ => h.dec,
    fun _ => h.enc, fun _ => ⟨h.enc, h.dec⟩, fun _ => ⟨h.enc, Or.inl h.dec⟩⟩

theorem EffOk.turn {s t : State} {e : Eff} (hb : s.ctl.state = .busy) (h : EffOk s e) (ht : e.toOutcome = .next t) : Turn s t := by
  cases e with
  | go u => cases ht; exact Grow.turn hb h
  | raised u => cases ht; exact Raised.turn h
  | stuck r => cases ht

/-- Reading a unit before the turn makes no difference to what it can do. -/
theorem Turn.of_advance {s t : State} (h : Turn (advance s) t) : Turn s t :=
  ⟨h.mid, h.out, h.state, h.op, h.host, h.config, h.offered, h.encode, h.decode, h.pack, h.unpack⟩

/-- A step that writes units and then a unit's new state touches no other unit. -/
theorem Grow.turn_encode {s t : State} (hb : s.ctl.state = .busy) (hp : s.ctl.phase = .encode) (h : Grow s t) (e : Enc) :
    Turn s (t.setEnc e) := by
  refine ⟨h.mid, Or.inr h.out, Or.inl (h.state.trans hb), h.op, h.host, h.config, h.offered, fun _ => h.dec, ?_, ?_, ?_⟩ <;>
    intro hx <;> exact absurd (hx.symm.trans hp) (by simp)

theorem Grow.turn_decode {s t : State} (hb : s.ctl.state = .busy) (hp : s.ctl.phase = .decode) (h : Grow s t) (d : Dec) :
    Turn s (t.setDec d) := by
  refine ⟨h.mid, Or.inr h.out, Or.inl (h.state.trans hb), h.op, h.host, h.config, h.offered, ?_, fun _ => h.enc, ?_, ?_⟩ <;>
    intro hx <;> exact absurd (hx.symm.trans hp) (by simp)

/-- The end of a phase (R204, R208, R209, R215). -/
theorem phaseEnd_turn {s u t : State} (hb : s.ctl.state = .busy) (h : Grow s u) (ht : (phaseEnd u).toOutcome = .next t) :
    Turn s t := by
  have h0 := Grow.turn hb h
  unfold phaseEnd at ht
  split at ht
  · cases ht
    exact ⟨h0.mid, h0.out.imp (fun hf => by rw [h.state, hb] at hf; cases hf.1) id, h0.state, h0.op, h0.host, h0.config,
      h0.offered, h0.encode, h0.decode, h0.pack, fun hp => ⟨h.enc, Or.inl h.dec⟩⟩
  · split at ht
    · rename_i hu
      cases ht
      rw [h.phase] at hu
      refine ⟨h0.mid, h0.out.imp (fun hf => by rw [h.state, hb] at hf; cases hf.1) id, h0.state, h0.op, h0.host, h0.config,
        h0.offered, ?_, ?_, ?_, fun _ => ⟨h.enc, Or.inr ⟨rfl, rfl⟩⟩⟩ <;>
        intro hx <;> exact absurd (hx.symm.trans hu.2) (by simp)
    · cases ht
      exact ⟨h0.mid, Or.inr h.out, Or.inr (Or.inl rfl), h0.op, h0.host, h0.config, h0.offered, h0.encode, h0.decode, h0.pack,
        fun hp => ⟨h.enc, Or.inl h.dec⟩⟩

theorem encFlush_ok (s : State) : EffOk s (encFlush s) := by
  unfold encFlush
  split
  · trivial
  · exact outCodes_ok _ _

/-- Every turn of the engine from BUSY that answers is one of these. -/
theorem engine_turn {s t : State} (hb : s.ctl.state = .busy) (h : engine s = .next t) : Turn s t := by
  unfold engine at h
  rw [hb] at h
  cases hp : s.ctl.phase with
  | none => rw [hp] at h; cases h
  | encode =>
    rw [hp] at h
    simp only [runEncode] at h
    split at h
    · have hf := encFlush_ok s
      cases hfe : encFlush s with
      | go u => rw [hfe] at h hf; exact phaseEnd_turn hb hf h
      | raised u => rw [hfe] at h hf; cases h; exact Raised.turn hf
      | stuck r => rw [hfe] at h; cases h
    · unfold encStep at h
      split at h
      · cases h
      · rename_i k s1 hin
        obtain rfl := ((inByte_eq_some _ _ _).1 hin).2
        split at h
        · cases h
        · rename_i cs e hu
          apply Turn.of_advance
          have ho := outCodes_ok cs (advance s)
          cases hoe : outCodes cs (advance s) with
          | go u => rw [hoe] at h ho; cases h; exact Grow.turn_encode (s := advance s) hb hp ho e
          | raised u => rw [hoe] at h ho; cases h; exact Raised.turn ho
          | stuck r => rw [hoe] at h; cases h
  | pack =>
    rw [hp] at h
    simp only [runPack] at h
    split at h
    · exact phaseEnd_turn hb (Grow.refl s) h
    · unfold packStep at h
      split at h
      · cases h
      · rename_i c s1 hin
        obtain rfl := ((inCode_eq_some _ _ _).1 hin).2
        exact Turn.of_advance (EffOk.turn hb (effOk_andThen (outByte_ok _ _) (fun t _ => outByte_ok _ t)) h)
  | unpack =>
    rw [hp] at h
    simp only [runUnpack] at h
    split at h
    · exact phaseEnd_turn hb (Grow.refl s) h
    · unfold unpackStep at h
      split at h
      · cases h
      · rename_i c s1 hin
        obtain rfl := ((inByte_eq_some _ _ _).1 hin).2
        split at h
        · cases h
        · rename_i c2 s2 hin2
          obtain rfl := ((inByte_eq_some _ _ _).1 hin2).2
          exact Turn.of_advance (Turn.of_advance (EffOk.turn hb (outCode_ok _ _) h))
  | decode =>
    rw [hp] at h
    simp only [runDecode] at h
    split at h
    · exact phaseEnd_turn hb (Grow.refl s) h
    · split at h
      · cases h
      · rename_i c s1 hin
        obtain rfl := ((inCode_eq_some _ _ _).1 hin).2
        rw [exec_decodeCode] at h
        apply Turn.of_advance
        unfold decApply at h
        split at h
        · rename_i r out d hr
          have ho := outBytes_ok out (advance s)
          cases hoe : outBytes out (advance s) with
          | go u => rw [hoe] at h ho; cases h; exact Grow.turn_decode (s := advance s) hb hp ho d
          | raised u => rw [hoe] at h ho; cases h; exact Raised.turn ho
          | stuck r => rw [hoe] at h; cases h
        · exact EffOk.turn hb (raise_ok _ _ _ _ _ _) h
        · cases h

end Sys2Proof.Machine
end

