-- ==== Sys2Proof/Tests/Slice0.lean ====
section
/-! SUPPORT. The model's own tests. Expected values are the spec's encoding tables (30_encoding.md) and its vectors
(95_test_vectors.md), named in each comment. After them one witness for each obligation that has hypotheses. -/

namespace Sys2Proof.Machine.Tests

-- The tests are many and short: one after another they need one thread's stack, not one each.
set_option Elab.async false

/-! ### Small states -/

/-- A step answers a next state, and that state passes a check. -/
def nextHas (o : Host.Outcome State Fault Refusal) (p : State → Bool) : Bool :=
  match o with
  | .next t => p t
  | .fault _ => false
  | .refused _ => false

/-- A block that waits, with a payload offered. -/
def ready (x : Payload) : State := { State.reset with offered := x }

/-- A block that waits, with one turn of the host to come. -/
def facing (a : HostAct) : State := { State.reset with host := [a] }

/-- A command under way: its OP, phase, source, sink, input, intermediate codes, output and position. -/
def under (op : BitVec 3) (ph : Phase) (src : Source) (snk : Sink) (input : Payload) (mid : List Code) (out : Payload)
    (pos : Nat) : State :=
  { State.reset with ctl := ⟨.busy, op, .none, 0#4, 0, 0#16, 0#17, 0, input, mid, out, pos, ph, src, snk⟩ }

/-- A DECODE phase, its first code read, with DEC and the output as given. -/
def decoding (d : Dec) (out : List Byte) : State :=
  { under 4#3 .decode .input .out (.codes [97#16, 257#16]) [] (.bytes out) 1 with dec := d }

/-- DEC after the code 97: the match is "a". -/
def decA : Dec := ⟨baseSlots, 257, .building ⟨97#8, []⟩⟩

/-- DEC after the codes 97 and 98: "ab" at 257, the match "b". -/
def decAB : Dec := ⟨slotWrite baseSlots 257 (.data ⟨97#8, [98#8]⟩), 258, .building ⟨98#8, []⟩⟩

/-- A DEC whose table is full; its slots are of no matter where a step only faults or clears. -/
def decFull : Dec := ⟨[], 65536, .building ⟨239#8, [255#8]⟩⟩

/-- ENC after the byte "T". -/
def encT : Enc := ⟨baseSlots, 257, baseRev, .building ⟨84#8, []⟩⟩

/-- An ENC one entry below the capacity, with the match [0xEF] (V-ENC-9). -/
def encLast : Enc := ⟨[], 65535, [(⟨0xEF#8, []⟩, 0xEF)], .building ⟨0xEF#8, []⟩⟩

/-- A block whose last command ended in DONE with the output "a". -/
def doneA : State :=
  { State.reset with
    ctl := ⟨.done, 2#3, .none, 0#4, 0, 0#16, 0#17, 1, .bytes [0#8, 97#8], [97#16], .bytes [97#8], 1, .none, .mid, .out⟩ }

/-- A block whose last command ended in the fault of V-CMD-4. -/
def faulted : State :=
  { State.reset with
    ctl := ⟨.fault, 4#3, .malformedCode, 1#4, 1, 258#16, 257#17, 0, .codes [97#16, 258#16], [], .bytes [], 2, .none, .input,
      .out⟩ }

theorem test_inv_doneA : Inv doneA :=
  ⟨encInv_reset, decInv_reset, (fun h => by cases h),
    ⟨fun _ => rfl, rfl, fun _ => ⟨rfl, rfl, rfl, rfl, rfl⟩, (fun h => by cases h), rfl, Or.inl rfl, fun _ => rfl⟩⟩

theorem test_inv_faulted : Inv faulted :=
  ⟨encInv_reset, decInv_reset, (fun h => by cases h),
    ⟨fun _ => rfl, rfl, fun h => absurd rfl h, fun _ => ⟨by decide, rfl⟩, rfl, Or.inr (by decide), (fun h => by cases h)⟩⟩

theorem test_decInv_A : DecInv decA := decInv_reset.start 97#8

theorem test_decInv_AB : DecInv decAB :=
  test_decInv_A.direct (w := ⟨97#8, []⟩) (e := ⟨98#8, []⟩) (i := 98) rfl (by decide) (by decide) (by decide) 98#8

theorem test_encInv_T : EncInv encT := encInv_reset.extend (cand := ⟨84#8, []⟩) (i := 84) (by decide)

/-- ENC after "TO": "TO" at 257, the match "O" (V-ENC-1, position 1). -/
theorem test_encInv_TO : EncInv (encMiss ⟨84#8, [79#8]⟩ 79#8 encT) :=
  test_encInv_T.miss (w := ⟨84#8, []⟩) (i := 84) 79#8 (by decide +kernel) (by decide +kernel) (by decide +kernel) (by decide +kernel) (by decide +kernel)

/-! ### WellFormed: its one check -/

theorem test_ref_256_refused : ¬ WellFormed (.ref 256#16) := by decide
theorem test_ref_0_refused : ¬ WellFormed (.ref 0#16) := by decide
theorem test_ref_bounds_accepted : WellFormed (.ref 257#16) ∧ WellFormed (.ref 65535#16) := by decide

/-! ### Decoding: words written out from 30_encoding.md's tables -/

theorem test_decode_commands :
    decodeTableWord 8 0b00000001 = some .compress ∧ decodeTableWord 8 0b00000010 = some .decompress ∧
    decodeTableWord 8 0b00000011 = some .encode ∧ decodeTableWord 8 0b00000100 = some .decode ∧
    decodeTableWord 8 0b00000101 = some .pack ∧ decodeTableWord 8 0b00000110 = some .unpack := by decide

theorem test_decode_reserved :
    decodeTableWord 8 0b00000000 = some .reservedOp0 ∧ decodeTableWord 8 0b00000111 = some .reservedOp7 ∧
    decodeTableWord 8 0b00001000 = some (.reservedBit3 0#3 0#4) ∧
    decodeTableWord 8 0b00010001 = some (.reservedBit4 1#3 0#3) ∧
    decodeTableWord 8 0b01100010 = some (.reservedBit5 2#3 1#2) ∧
    decodeTableWord 8 0b11000011 = some (.reservedBit6 3#3 1#1) ∧
    decodeTableWord 8 0b10000100 = some (.reservedBit7 4#3) := by decide

theorem test_decode_codes :
    decodeTableWord 16 0x0000 = some (.lit 0#8) ∧ decodeTableWord 16 0x00FF = some (.lit 255#8) ∧
    decodeTableWord 16 0x0100 = some .clear ∧ decodeTableWord 16 0x0101 = some (.ref 257#16) ∧
    decodeTableWord 16 0xFFFF = some (.ref 65535#16) := by decide

/-- The bytes of a code stand high byte first (V-PCK-2). -/
theorem test_encode_bytes :
    encode (.ref 0x1234#16) = [0x12#8, 0x34#8] ∧ encode .clear = [0x01#8, 0x00#8] ∧ encode (.lit 0x61#8) = [0x00#8, 0x61#8] ∧
    encode .unpack = [0x06#8] ∧ encode (.reservedBit3 7#3 0#4) = [0x0F#8] := by decide

theorem test_decode_too_short : decode .cmd8 [] = .error .noBytes ∧ decode .code16 [1#8] = .error .halfCode := ⟨rfl, rfl⟩

/-! ### The dictionary (V-BLD) -/

theorem test_build_baseline :
    slotRead baseSlots 0 = .data ⟨0#8, []⟩ ∧ slotRead baseSlots 255 = .data ⟨255#8, []⟩ ∧ slotRead baseSlots 256 = .reserved ∧
    slotRead baseSlots 257 = .absent ∧ revLookup baseRev ⟨0x41#8, []⟩ = some 65 ∧
    revLookup baseRev ⟨65#8, [66#8]⟩ = none := by decide +kernel

/-! ### The command instructions -/

/-- STATUS reads 0x1001 during COMPRESS (95_test_vectors.md section 2.7). -/
theorem test_compress_status : ∃ t, exec .compress (ready (.bytes [97#8])) = .next t ∧ readReg 1 t = 0x1001 := ⟨_, rfl, by decide⟩

/-- V-CMD-16. -/
theorem test_compress_input_limit : ∃ t,
    exec .compress { ready (.bytes [97#8]) with config := ⟨some 0, none, none⟩ } = .next t ∧ readReg 1 t = 0x1143 ∧
      readReg 3 t = 1 := ⟨_, rfl, by decide⟩

/-- V-CMD-11: the odd length is met before any code. -/
theorem test_decompress_odd : ∃ t, exec .decompress (ready (.bytes [1#8, 1#8, 0#8])) = .next t ∧ readReg 1 t = 0x2023 ∧
    readReg 3 t = 3 := ⟨_, rfl, by decide⟩

theorem test_encode_status : ∃ t, exec .encode (ready (.bytes [])) = .next t ∧ readReg 1 t = 0x3001 ∧ t.ctl.snk = .out :=
  ⟨_, rfl, by decide⟩

theorem test_decode_status : ∃ t, exec .decode (ready (.codes [97#16])) = .next t ∧ readReg 1 t = 0x4001 ∧ t.dec.W = .empty :=
  ⟨_, rfl, by decide⟩

theorem test_pack_status : ∃ t, exec .pack (ready (.codes [256#16])) = .next t ∧ readReg 1 t = 0x5001 ∧ t.ctl.phase = .pack :=
  ⟨_, rfl, by decide⟩

/-- V-CMD-6. -/
theorem test_unpack_odd : ∃ t, exec .unpack (ready (.bytes [0#8, 0x61#8, 1#8])) = .next t ∧ readReg 1 t = 0x6023 ∧
    readReg 3 t = 3 := ⟨_, rfl, by decide⟩

/-- V-CMD-7 to V-CMD-10. -/
theorem test_reservedOp0_status : ∃ t, exec .reservedOp0 faulted = .next t ∧ readReg 1 t = 0x0033 ∧ readReg 4 t = 0 :=
  ⟨_, rfl, by decide⟩
theorem test_reservedOp7_status : ∃ t, exec .reservedOp7 doneA = .next t ∧ readReg 1 t = 0x7033 ∧ readReg 2 t = 0 :=
  ⟨_, rfl, by decide⟩
theorem test_reserved_word_09 : ∃ t, step (facing (.write 0 0x09#8 (.bytes [1#8]))) = .next t ∧ readReg 1 t = 0x1033 :=
  ⟨_, rfl, by decide⟩
theorem test_reserved_word_FF : ∃ t, step (facing (.write 0 0xFF#8 (.codes []))) = .next t ∧ readReg 1 t = 0x7033 :=
  ⟨_, rfl, by decide⟩
theorem test_reserved_words_10_to_80 :
    (∃ t, step (facing (.write 0 0x10#8 (.bytes []))) = .next t ∧ readReg 1 t = 0x0033) ∧
    (∃ t, step (facing (.write 0 0x22#8 (.bytes []))) = .next t ∧ readReg 1 t = 0x2033) ∧
    (∃ t, step (facing (.write 0 0x44#8 (.bytes []))) = .next t ∧ readReg 1 t = 0x4033) ∧
    (∃ t, step (facing (.write 0 0x86#8 (.bytes []))) = .next t ∧ readReg 1 t = 0x6033) :=
  ⟨⟨_, rfl, by decide⟩, ⟨_, rfl, by decide⟩, ⟨_, rfl, by decide⟩, ⟨_, rfl, by decide⟩⟩

/-- V-CMD-14 and V-CMD-15. -/
theorem test_busy_and_reset :
    exec .pack (under 1#3 .encode .input .mid (.bytes [97#8]) [] (.bytes []) 0) = .fault .commandWhileBusy ∧
    ∃ t, step { faulted with host := [.blockReset] } = .next t ∧ readReg 1 t = 0 ∧ readReg 4 t = 0 := ⟨rfl, _, rfl, by decide⟩

/-! ### The code instructions -/

/-- V-DEC-1, position 0: START. -/
theorem test_lit_start : ∃ t, exec (.lit 84#8) (decoding Dec.reset []) = .next t ∧ t.ctl.out = .bytes [84#8] ∧
    t.dec.W = .building ⟨84#8, []⟩ ∧ t.dec.L = 257 := ⟨_, rfl, by decide⟩

/-- V-DEC-2, position 1: DIRECT appends "ab" at 257. -/
theorem test_lit_direct : ∃ t, exec (.lit 98#8) (decoding decA [97#8]) = .next t ∧ t.ctl.out = .bytes [97#8, 98#8] ∧
    slotRead t.dec.D 257 = .data ⟨97#8, [98#8]⟩ ∧ t.dec.L = 258 := ⟨_, rfl, by decide +kernel⟩

/-- V-DEC-20: CLEAR after "a". -/
theorem test_clear : ∃ t, exec .clear (decoding decAB [97#8]) = .next t ∧ t.ctl.out = .bytes [97#8] ∧ t.dec.W = .empty ∧
    t.dec.L = 257 ∧ slotRead t.dec.D 257 = .absent := ⟨_, rfl, by decide +kernel⟩

/-- V-DEC-6: WELCH at the first REF. -/
theorem test_ref_welch : ∃ t, exec (.ref 257#16) (decoding decA [97#8]) = .next t ∧
    t.ctl.out = .bytes [97#8, 97#8, 97#8] ∧ slotRead t.dec.D 257 = .data ⟨97#8, [97#8]⟩ ∧ t.dec.L = 258 :=
  ⟨_, rfl, by decide +kernel⟩

/-- V-CMD-4 and V-DEC-8: code 258 after 97; the position is the code's own, one below CTL.POS. -/
theorem test_ref_beyond : ∃ t,
    exec (.ref 258#16) { decoding decA [97#8] with ctl := { (decoding decA [97#8]).ctl with pos := 2 } } = .next t ∧
      readReg 1 t = 0x4113 ∧ readReg 3 t = 1 ∧ readReg 4 t = 258 ∧ readReg 5 t = 257 := ⟨_, rfl, by decide⟩

/-! ### The engine's steps -/

/-- V-ENC-1, position 1: MISS on "O" emits 84. -/
theorem test_enc_miss :
    nextHas (step { under 3#3 .encode .input .out (.bytes [84#8, 79#8]) [] (.codes []) 1 with enc := encT }) (fun t =>
      t.ctl.out = .codes [84#16] ∧ slotRead t.enc.D 257 = .data ⟨84#8, [79#8]⟩ ∧ t.enc.L = 258 ∧
      t.enc.W = .building ⟨79#8, []⟩) = true := by decide +kernel

/-- V-ENC-9, byte position 65279: OVERFLOW emits 239, 255, 256. -/
theorem test_enc_overflow : ∃ t,
    step { under 1#3 .encode .input .mid (.bytes [255#8]) [] (.bytes []) 0 with enc := encLast } = .next t ∧
      t.ctl.mid = [239#16, 255#16, 256#16] ∧ t.enc.L = 257 ∧ t.enc.W = .empty := ⟨_, rfl, by decide⟩

/-- V-ENC-2b: FLUSH of a one-byte match, and completion. -/
theorem test_enc_flush : ∃ t,
    step { under 3#3 .encode .input .out (.bytes [84#8]) [] (.codes []) 1 with enc := encT } = .next t ∧
      t.ctl.out = .codes [84#16] ∧ readReg 1 t = 0x3002 ∧ readReg 2 t = 1 := ⟨_, rfl, by decide⟩

/-- V-PCK-2: code 4660. -/
theorem test_pack_step : ∃ t,
    step (under 5#3 .pack .input .out (.codes [4660#16]) [] (.bytes []) 0) = .next t ∧ t.ctl.out = .bytes [0x12#8, 0x34#8] :=
  ⟨_, rfl, by decide⟩

/-- V-UPK-4: bytes 01 01. -/
theorem test_unpack_step : ∃ t,
    step (under 6#3 .unpack .input .out (.bytes [1#8, 1#8]) [] (.codes []) 0) = .next t ∧ t.ctl.out = .codes [257#16] ∧
      t.ctl.pos = 2 := ⟨_, rfl, by decide⟩

/-- V-CMD-17: the third byte is the one refused, and the two before it are discarded. -/
theorem test_output_limit : ∃ t,
    exec (.ref 257#16) { decoding decA [97#8] with config := ⟨none, some 2, none⟩ } = .next t ∧ readReg 1 t = 0x4243 ∧
      readReg 3 t = 2 ∧ readReg 4 t = 0 ∧ payloadLength t.ctl.out = 0 := ⟨_, rfl, by decide⟩

/-- The event after the EncStep on byte 0 names ENCODE and position 1 (44_entry_points.md R214). -/
theorem test_progress_event :
    nextHas (step (under 3#3 .encode .input .out (.bytes [84#8]) [] (.codes []) 0)) (fun t =>
      progressEvent (under 3#3 .encode .input .out (.bytes [84#8]) [] (.codes []) 0) t = some (.encode, 1)) = true := by
  decide +kernel

/-- A word placed for the host runs as the first instruction after reset (log entry 16). -/
theorem test_withFetchWord :
    (∃ t, step (State.reset.withFetchWord 8 0x03) = .next t ∧ readReg 1 t = 0x3001) ∧
    (∃ t, step (State.reset.withFetchWord 16 0x0061) = .next t ∧ t.ctl.out = .bytes [97#8]) := ⟨⟨_, rfl, by decide⟩, _, rfl, by decide⟩

/-! ### Witnesses: states and operands that meet the obligations' hypotheses -/

/-- The two ways in which the engine's turn comes next: no turn of the host is left; and a turn that lets the engine run, with
a block reset to follow. No other hypothesis speaks of the host's turns, so what holds of `s` holds of both. -/
def turns (s : State) : Prop :=
  EngineTurn s s ∧ EngineTurn (s.setHost [.run, .blockReset]) (s.setHost [.blockReset])

theorem turns_of {s : State} (h : s.host = []) : turns s := ⟨Or.inl ⟨h, rfl⟩, Or.inr rfl⟩

theorem test_witness_BlockResetAbandons :
    { under 4#3 .decode .input .out (.codes [97#16]) [] (.bytes [97#8]) 1 with host := [.blockReset, .run] }.host =
      .blockReset :: [.run] := rfl

theorem test_witness_DecodeOfEncode : WellFormed (.ref 257#16) ∧ WellFormed (.ref 65535#16) ∧ WellFormed (.lit 255#8) := by decide

theorem test_witness_EncodeOfDecode : decode .cmd8 [0xFF#8, 1#8] = .ok (.reservedBit3 7#3 15#4, [1#8]) ∧
    decode .code16 [1#8, 0#8, 2#8] = .ok (.clear, [2#8]) := ⟨rfl, rfl⟩

theorem test_witness_CodeClasses : DictInv decAB.D decAB.L ∧ (255#16).toNat ≤ 0x00FF ∧ (256#16).toNat = 0x0100 ∧
    0x0101 ≤ (257#16).toNat ∧ (257#16).toNat < decAB.L ∧ ¬ (258#16).toNat < decAB.L := ⟨test_decInv_AB.dict, by decide⟩

theorem test_witness_PackedLayout : [0x1234#16, 0x0100#16][0]? = some 0x1234#16 ∧ [0x1234#16, 0x0100#16][1]? = some 0x0100#16 := by
  decide

theorem test_witness_UnpackAssembly : [1#8, 0#8].length % 2 = 0 ∧ [1#8, 0#8][2 * 0]? = some 1#8 ∧
    [1#8, 0#8][2 * 0 + 1]? = some 0#8 := by decide

theorem test_witness_PackRoundTrip : ([] : List Byte).length % 2 = 0 ∧ [1#8, 255#8].length % 2 = 0 := by decide

theorem test_witness_AppendEntry :
    (slotsWf encT.D = true ∧ encT.L < 65536 ∧ revLookup encT.R ⟨84#8, [79#8]⟩ = none) ∧
    (slotsWf [] = true ∧ encLast.L < 65536 ∧ revLookup encLast.R ⟨0xEF#8, [255#8]⟩ = none) ∧
    (slotsWf decA.D = true ∧ decA.L < 65536) := by decide +kernel

theorem test_witness_CanonicalSlots : slotsWf [(0, .data ⟨1#8, []⟩), (65535, .reserved)] = true ∧
    slotWrite [(0, .data ⟨1#8, []⟩), (65535, .reserved)] 65535 .absent = [(0, .data ⟨1#8, []⟩)] := by decide +kernel

theorem test_witness_RevLookupValues : EncInv encT ∧ EncInv (encMiss ⟨84#8, [79#8]⟩ 79#8 encT) :=
  ⟨test_encInv_T, test_encInv_TO⟩

theorem test_witness_EntryLengthBounds :
    (DictInv decAB.D decAB.L ∧ PrefixClosed decAB.D decAB.L ∧ 257 ≤ 257 ∧ 257 < decAB.L) ∧
    (EncInv encT ∧ slotRead encT.D 84 = .data ⟨84#8, []⟩) ∧
    (DecInv decAB ∧ slotRead decAB.D 257 = .data ⟨97#8, [98#8]⟩) :=
  ⟨⟨test_decInv_AB.dict, test_decInv_AB.prefixes, by decide +kernel⟩, ⟨test_encInv_T, by decide +kernel⟩, test_decInv_AB, by decide +kernel⟩

/-- The hypotheses of AcceptWord for a word of each branch: illegal by its OP and by a reserved bit, over the bound, odd,
and one for each OP. -/
theorem test_witness_AcceptWord :
    (∀ w ∈ [(0#8, Payload.codes [1#16]), (7#8, .bytes []), (8#8, .bytes []), (0xFF#8, .codes []), (1#8, .bytes []),
        (2#8, .bytes [1#8]), (2#8, .bytes [1#8, 2#8]), (3#8, .bytes [0#8]), (4#8, .codes [257#16]), (5#8, .codes []),
        (6#8, .bytes [1#8]), (6#8, .bytes [])],
      (facing (.write 0 w.1 w.2)).host = .write 0 w.1 w.2 :: [] ∧ (facing (.write 0 w.1 w.2)).ctl.state ≠ .busy ∧
        (w.1.extractLsb' 3 5 = 0#5 → w.1.extractLsb' 0 3 ≠ 0#3 → w.1.extractLsb' 0 3 ≠ 7#3 →
          payloadKind w.2 = if w.1.extractLsb' 0 3 = 4#3 ∨ w.1.extractLsb' 0 3 = 5#3 then .codes else .bytes)) ∧
    exceeds (payloadLength (.bytes [1#8])) (some 0) = true ∧ exceeds (payloadLength (.bytes [1#8])) (some 1) = false := by
  decide

theorem test_witness_AcceptsCompressAndEncode :
    (ready (.bytes [97#8])).ctl.state ≠ .busy ∧ (ready (.bytes [97#8])).offered = .bytes [97#8] ∧
    exceeds [97#8].length (ready (.bytes [97#8])).config.maxInUnits = false := by decide

theorem test_witness_AcceptsDecompressAndUnpack :
    (ready (.bytes [1#8, 0#8])).ctl.state ≠ .busy ∧ (ready (.bytes [1#8, 0#8])).offered = .bytes [1#8, 0#8] ∧
    exceeds [1#8, 0#8].length (ready (.bytes [1#8, 0#8])).config.maxInUnits = false ∧ [1#8, 0#8].length % 2 = 0 := by decide

theorem test_witness_AcceptsDecodeAndPack :
    (ready (.codes [256#16])).ctl.state ≠ .busy ∧ (ready (.codes [256#16])).offered = .codes [256#16] ∧
    exceeds [256#16].length (ready (.codes [256#16])).config.maxInUnits = false := by decide

theorem test_witness_ReservedCommandsFault : State.reset.ctl.state ≠ .busy ∧ doneA.ctl.state ≠ .busy ∧
    faulted.ctl.state ≠ .busy := by decide

theorem test_witness_CommandWhileBusyStops : Instr.format .reservedOp0 = .cmd8 ∧ Instr.format .compress = .cmd8 ∧
    (under 5#3 .pack .input .out (.codes []) [] (.bytes []) 0).ctl.state = .busy := by decide

theorem test_witness_OddBufferFaults :
    (ready (.bytes [1#8])).ctl.state ≠ .busy ∧ (ready (.bytes [1#8])).offered = .bytes [1#8] ∧
    exceeds [1#8].length (ready (.bytes [1#8])).config.maxInUnits = false ∧ [1#8].length % 2 = 1 := by decide

/-- Both kinds of payload, at one unit over the bound. -/
theorem test_witness_InputLimitFaults :
    (let s := { ready (.bytes [1#8]) with config := ⟨some 0, none, none⟩ }
     s.ctl.state ≠ .busy ∧ payloadKind s.offered = (if Instr.compress = .decode ∨ Instr.compress = .pack then .codes else .bytes) ∧
      s.config.maxInUnits = some 0 ∧ 0 < payloadLength s.offered) ∧
    (let s := { ready (.codes [1#16]) with config := ⟨some 0, none, none⟩ }
     s.ctl.state ≠ .busy ∧ payloadKind s.offered = (if Instr.pack = .decode ∨ Instr.pack = .pack then .codes else .bytes) ∧
      s.config.maxInUnits = some 0 ∧ 0 < payloadLength s.offered) := by decide

theorem test_witness_CommandFrame : Instr.format .decode = .cmd8 ∧ ∃ t, exec .decode (ready (.codes [])) = .next t :=
  ⟨rfl, _, rfl⟩

theorem test_witness_LitStarts :
    (decoding Dec.reset []).dec.W = .empty ∧ (decoding Dec.reset []).ctl.snk = .out ∧
    (decoding Dec.reset []).ctl.out = .bytes [] ∧ exceeds (0 + 1) (decoding Dec.reset []).config.maxOutUnits = false ∧
    exceeds (0 + 1) (some 1) = false := by decide

/-- For LIT at 97 and for REF at the highest index below the length. -/
theorem test_witness_CodeDirect :
    DecInv (decoding decAB [97#8, 98#8]).dec ∧ (decoding decAB [97#8, 98#8]).dec.W = .building ⟨98#8, []⟩ ∧
    (97#16).toNat = (97#8).toNat ∧ (97#16).toNat < (decoding decAB []).dec.L ∧ 257 ≤ (257#16).toNat ∧
    (257#16).toNat < (decoding decAB []).dec.L ∧ (decoding decAB []).dec.L < 65536 ∧
    (decoding decAB [97#8, 98#8]).ctl.snk = .out ∧ (decoding decAB [97#8, 98#8]).ctl.out = .bytes [97#8, 98#8] ∧
    slotRead decAB.D 257 = .data ⟨97#8, [98#8]⟩ ∧
    exceeds (2 + 2) (decoding decAB [97#8, 98#8]).config.maxOutUnits = false := ⟨test_decInv_AB, by decide +kernel⟩

theorem test_witness_RefWelch :
    DecInv (decoding decA [97#8]).dec ∧ (decoding decA [97#8]).dec.W = .building ⟨97#8, []⟩ ∧
    (257#16).toNat = (decoding decA [97#8]).dec.L ∧ (decoding decA [97#8]).ctl.snk = .out ∧
    (decoding decA [97#8]).ctl.out = .bytes [97#8] ∧
    exceeds (1 + 1 + 1) (decoding decA [97#8]).config.maxOutUnits = false := ⟨test_decInv_A, by decide⟩

theorem test_witness_RefWhileEmptyFaults : DecInv (decoding Dec.reset []).dec ∧ 257 ≤ (257#16).toNat ∧ 257 ≤ (65535#16).toNat ∧
    (decoding Dec.reset []).dec.W = .empty := ⟨decInv_reset, by decide⟩

theorem test_witness_TableFullFaults :
    (decoding decFull []).dec.W = .building ⟨239#8, [255#8]⟩ ∧ (decoding decFull []).dec.L = 65536 ∧
    (240#16).toNat = (240#8).toNat ∧ 257 ≤ (65535#16).toNat := by decide

theorem test_witness_BeyondNextFreeFaults :
    (decoding decA []).dec.W = .building ⟨97#8, []⟩ ∧ (decoding decA []).dec.L < (258#16).toNat ∧ 258#16 ≠ 256#16 := by decide

theorem test_witness_CodeFrame : Instr.format .clear = .code16 ∧ (∃ t, exec .clear (decoding decFull []) = .next t) ∧
    ∃ t, exec (.ref 257#16) (decoding Dec.reset []) = .next t := ⟨rfl, ⟨_, rfl⟩, _, rfl⟩

/-- One witness for each clause: MID, and OUT just within and just over a bound of 2. -/
theorem test_witness_OutWriteBound :
    (under 1#3 .encode .input .mid (.bytes []) [] (.bytes []) 0).ctl.snk = .mid ∧
    (under 3#3 .encode .input .out (.bytes []) [] (.codes [1#16]) 0).ctl.snk = .out ∧
    (under 3#3 .encode .input .out (.bytes []) [] (.codes [1#16]) 0).ctl.out = .codes [1#16] ∧
    exceeds ([1#16].length + 1) (some 2) = false ∧ exceeds ([1#16, 2#16].length + 1) (some 2) = true ∧
    (decoding decA [97#8]).ctl.snk = .out ∧ (decoding decA [97#8]).ctl.out = .bytes [97#8] ∧
    [97#8].length ≤ 2 ∧ 2 < [97#8].length + [97#8, 97#8].length ∧ [1#16].length ≤ 2 ∧ 2 < [1#16].length + [2#16, 3#16, 256#16].length ∧
    (⟨none, some 2, none⟩ : Params).maxOutUnits = some 2 ∧ Params.unbounded.maxOutUnits = none := by decide

/-- EXTEND from an empty match and from "T" with "TO" known. -/
theorem test_witness_EncExtendStep :
    let s := under 3#3 .encode .input .out (.bytes [84#8]) [] (.codes []) 0
    turns s ∧ s.ctl.state = .busy ∧ s.ctl.phase = .encode ∧ sourcePayload s.ctl = .bytes [84#8] ∧
    [84#8][s.ctl.pos]? = some 84#8 ∧ revLookup s.enc.R (candidate s.enc.W 84#8) ≠ none ∧ EncInv Enc.reset ∧
    Enc.reset.W = .empty := ⟨turns_of rfl, rfl, rfl, rfl, rfl, by decide, encInv_reset, rfl⟩

/-- MISS with either sink. -/
theorem test_witness_EncMissStep :
    let s := { under 3#3 .encode .input .out (.bytes [84#8, 79#8]) [] (.codes []) 1 with enc := encT }
    let m := { under 1#3 .encode .input .mid (.bytes [84#8, 79#8]) [] (.bytes []) 1 with enc := encT }
    turns s ∧ s.ctl.state = .busy ∧ s.ctl.phase = .encode ∧ sourcePayload s.ctl = .bytes [84#8, 79#8] ∧
    [84#8, 79#8][s.ctl.pos]? = some 79#8 ∧ EncInv s.enc ∧ s.enc.W = .building ⟨84#8, []⟩ ∧
    revLookup s.enc.R ⟨84#8, [79#8]⟩ = none ∧ s.enc.L + 1 < 65536 ∧ s.ctl.snk = .out ∧ s.ctl.out = .codes [] ∧
    exceeds (0 + 1) s.config.maxOutUnits = false ∧ turns m ∧ m.ctl.state = .busy ∧ m.ctl.snk = .mid ∧ m.enc = s.enc ∧ m.ctl.phase = .encode :=
  ⟨turns_of rfl, rfl, rfl, rfl, rfl, test_encInv_T, rfl, by decide +kernel, by decide +kernel, rfl, rfl, rfl, turns_of rfl, rfl, rfl, rfl, rfl⟩

/-- OVERFLOW with either sink, at V-ENC-9's byte. -/
theorem test_witness_EncOverflowStep :
    let s := { under 3#3 .encode .input .out (.bytes [255#8]) [] (.codes []) 0 with enc := encLast }
    let m := { under 1#3 .encode .input .mid (.bytes [255#8]) [] (.bytes []) 0 with enc := encLast }
    turns s ∧ turns m ∧ m.ctl.state = .busy ∧ s.ctl.state = .busy ∧ s.ctl.phase = .encode ∧ sourcePayload s.ctl = .bytes [255#8] ∧
    [255#8][s.ctl.pos]? = some 255#8 ∧ s.enc.W = .building ⟨0xEF#8, []⟩ ∧ revLookup s.enc.R ⟨0xEF#8, []⟩ = some 239 ∧
    revLookup s.enc.R ⟨0xEF#8, [255#8]⟩ = none ∧ s.enc.L + 1 = 65536 ∧ s.ctl.snk = .out ∧ s.ctl.out = .codes [] ∧
    exceeds (0 + 3) s.config.maxOutUnits = false ∧ m.ctl.snk = .mid ∧ m.enc = s.enc ∧ m.ctl.phase = .encode :=
  ⟨turns_of rfl, turns_of rfl, by decide +kernel⟩

/-- The flush of an empty match and of "T". -/
theorem test_witness_EncFlushCompletes :
    let s := under 3#3 .encode .input .out (.bytes []) [] (.codes []) 0
    let m := { under 3#3 .encode .input .out (.bytes [84#8]) [] (.codes []) 1 with enc := encT }
    (turns s ∧ s.ctl.state = .busy ∧ s.ctl.op = 3#3 ∧ s.ctl.phase = .encode ∧ s.ctl.snk = .out ∧ s.ctl.out = .codes [] ∧
      atEnd s.ctl = true ∧ s.enc.W = .empty) ∧
    (turns m ∧ m.ctl.state = .busy ∧ m.ctl.op = 3#3 ∧ m.ctl.phase = .encode ∧ m.ctl.snk = .out ∧ m.ctl.out = .codes [] ∧
      atEnd m.ctl = true ∧ m.enc.W = .building ⟨84#8, []⟩ ∧ revLookup m.enc.R ⟨84#8, []⟩ = some 84 ∧
      exceeds (0 + 1) m.config.maxOutUnits = false) :=
  ⟨⟨turns_of rfl, by decide⟩, turns_of rfl, by decide⟩

theorem test_witness_PackStepWrites :
    let s := under 5#3 .pack .input .out (.codes [4660#16]) [] (.bytes []) 0
    turns s ∧ s.ctl.state = .busy ∧ s.ctl.phase = .pack ∧ sourcePayload s.ctl = .codes [4660#16] ∧
    [4660#16][s.ctl.pos]? = some 4660#16 ∧ s.ctl.snk = .out ∧ s.ctl.out = .bytes [] ∧
    exceeds (0 + 2) s.config.maxOutUnits = false := ⟨turns_of rfl, by decide⟩

/-- Both sinks, at the largest code. -/
theorem test_witness_UnpackStepWrites :
    let s := under 6#3 .unpack .input .out (.bytes [255#8, 255#8]) [] (.codes []) 0
    let m := under 2#3 .unpack .input .mid (.bytes [255#8, 255#8]) [] (.bytes []) 0
    (turns s ∧ s.ctl.state = .busy ∧ s.ctl.phase = .unpack ∧ sourcePayload s.ctl = .bytes [255#8, 255#8] ∧
      [255#8, 255#8][s.ctl.pos]? = some 255#8 ∧ [255#8, 255#8][s.ctl.pos + 1]? = some 255#8 ∧
      (65535#16).toNat = (255#8).toNat * 256 + (255#8).toNat ∧ s.ctl.snk = .out ∧ s.ctl.out = .codes [] ∧
      exceeds (0 + 1) s.config.maxOutUnits = false) ∧
    (turns m ∧ m.ctl.state = .busy ∧ m.ctl.phase = .unpack ∧ sourcePayload m.ctl = .bytes [255#8, 255#8] ∧
      m.ctl.snk = .mid) := ⟨⟨turns_of rfl, by decide⟩, turns_of rfl, by decide⟩

/-- The end of a PACK, a DECODE and an UNPACK phase, and of an ENCODE phase with its flush. -/
theorem test_witness_CompletionWrites :
    let p := under 5#3 .pack .input .out (.codes [1#16]) [] (.bytes [0#8, 1#8]) 1
    let d := under 4#3 .decode .input .out (.codes []) [] (.bytes []) 0
    let u := under 6#3 .unpack .input .out (.bytes [0#8, 1#8]) [] (.codes [1#16]) 2
    let e := { under 3#3 .encode .input .out (.bytes [84#8]) [] (.codes []) 1 with enc := encT }
    (turns p ∧ p.ctl.state = .busy ∧ atEnd p.ctl = true ∧ p.ctl.phase = .pack) ∧
    (turns d ∧ d.ctl.state = .busy ∧ atEnd d.ctl = true ∧ d.ctl.phase = .decode) ∧
    (turns u ∧ u.ctl.state = .busy ∧ atEnd u.ctl = true ∧ u.ctl.phase = .unpack ∧ u.ctl.op = 6#3) ∧
    (turns e ∧ e.ctl.state = .busy ∧ atEnd e.ctl = true ∧ e.ctl.phase = .encode ∧ e.ctl.op = 3#3 ∧
      ∃ s1, encFlush e = .go s1) := 
  ⟨⟨turns_of rfl, by decide⟩, ⟨turns_of rfl, by decide⟩, ⟨turns_of rfl, by decide⟩, turns_of rfl, rfl, rfl, rfl, rfl, _, rfl⟩

/-- COMPRESS with an empty match and with "T", and DECOMPRESS. -/
theorem test_witness_SecondPhaseStarts :
    let s := under 1#3 .encode .input .mid (.bytes []) [] (.bytes []) 0
    let m := { under 1#3 .encode .input .mid (.bytes [84#8]) [] (.bytes []) 1 with enc := encT }
    let u := under 2#3 .unpack .input .mid (.bytes [0#8, 1#8]) [1#16] (.bytes []) 2
    (turns s ∧ s.ctl.state = .busy ∧ s.ctl.op = 1#3 ∧ s.ctl.phase = .encode ∧ s.ctl.snk = .mid ∧ atEnd s.ctl = true ∧
      s.enc.W = .empty) ∧
    (turns m ∧ m.ctl.state = .busy ∧ m.ctl.op = 1#3 ∧ m.ctl.phase = .encode ∧ m.ctl.snk = .mid ∧ atEnd m.ctl = true ∧
      m.enc.W = .building ⟨84#8, []⟩ ∧ revLookup m.enc.R ⟨84#8, []⟩ = some 84) ∧
    (turns u ∧ u.ctl.state = .busy ∧ u.ctl.op = 2#3 ∧ u.ctl.phase = .unpack ∧ atEnd u.ctl = true) :=
  ⟨⟨turns_of rfl, by decide⟩, ⟨turns_of rfl, by decide⟩, turns_of rfl, by decide⟩

/-- The host's turn, and the engine's turn with no host turn left and with one that lets it run. -/
theorem test_witness_StepRunsInstruction :
    ((facing (.write 0 5#8 (.codes []))).host = .write 0 5#8 (.codes []) :: [] ∧ decode .cmd8 [5#8] = .ok (.pack, [])) ∧
    (let s := under 4#3 .decode .input .out (.codes [256#16]) [] (.bytes []) 0
     s.ctl.state = .busy ∧ s.ctl.phase = .decode ∧ sourcePayload s.ctl = .codes [256#16] ∧ [256#16][s.ctl.pos]? = some 256#16 ∧
      decode .code16 [(256#16).extractLsb' 8 8, (256#16).extractLsb' 0 8] = .ok (.clear, []) ∧ s.host = [] ∧
      { s with host := [.run] }.host = .run :: []) := ⟨⟨rfl, rfl⟩, rfl, rfl, rfl, rfl, rfl, rfl, rfl⟩

/-- In DONE, and in FAULT with FAULT_LEN at its least value above 0. -/
theorem test_witness_RegisterValues : Inv doneA ∧ Inv faulted ∧ readReg 2 doneA = 1 ∧ readReg 5 faulted = 257 :=
  ⟨test_inv_doneA, test_inv_faulted, by decide⟩

theorem test_witness_OtherHostTurnsChangeNothing :
    (facing (.read 0)).host = .read 0 :: [] ∧ (facing (.write 1 9#8 (.bytes []))).host = .write 1 9#8 (.bytes []) :: [] ∧
    1 ≠ 0 ∧ State.reset.ctl.state ≠ .busy ∧ State.reset.host = [] ∧ (facing .run).ctl.state ≠ .busy ∧
    (facing .run).host = .run :: [] := by decide

theorem test_witness_FaultIsSticky :
    (faulted.ctl.state = .fault ∧ step faulted = .next faulted ∧ faulted.host = []) ∧
    ∃ t, step { faulted with host := [.write 0 5#8 (.codes [])] } = .next t ∧ t.ctl.state = .busy :=
  ⟨⟨rfl, rfl, rfl⟩, _, rfl, rfl⟩

/-- An acceptance, the end of a command, and a block reset. -/
theorem test_witness_WhoWritesState :
    (∃ t, step (facing (.write 0 5#8 (.codes []))) = .next t ∧ t.ctl.state ≠ .idle) ∧
    (∃ t, step (under 5#3 .pack .input .out (.codes []) [] (.bytes []) 0) = .next t ∧ t.ctl.state ≠ .busy) ∧
    (∃ t, step { faulted with host := [.blockReset] } = .next t ∧ t.ctl.state ≠ .fault) :=
  ⟨⟨_, rfl, by decide⟩, ⟨_, rfl, by decide⟩, _, rfl, by decide⟩

theorem test_witness_OutputAppendOnly :
    let s := under 5#3 .pack .input .out (.codes [1#16, 2#16]) [] (.bytes [0#8, 1#8]) 1
    turns s ∧ s.ctl.state = .busy ∧ ∃ t, step s = .next t := ⟨turns_of rfl, rfl, _, rfl⟩

/-- A DECOMPRESS at the end of its UNPACK phase is in the invariant. -/
theorem test_inv_unpacked : Inv (under 2#3 .unpack .input .mid (.bytes [0#8, 1#8]) [1#16] (.bytes []) 2) :=
  ⟨encInv_reset, decInv_reset, fun _ => ⟨rfl, rfl, rfl, by decide, fun _ => by decide⟩,
    ⟨fun h => absurd rfl h, rfl, fun _ => ⟨rfl, rfl, rfl, rfl, rfl⟩, (fun h => by cases h), rfl, Or.inl rfl, (fun h => by cases h)⟩⟩

theorem test_witness_SourceReadInOrder :
    (let s := under 2#3 .unpack .input .mid (.bytes [0#8, 1#8]) [1#16] (.bytes []) 2
     Inv s ∧ turns s ∧ s.ctl.state = .busy ∧ ∃ t, step s = .next t ∧ t.ctl.state = .busy) ∧
    ∃ t, step (facing (.write 0 3#8 (.bytes [1#8]))) = .next t ∧ t.ctl.state = .busy :=
  ⟨⟨test_inv_unpacked, turns_of rfl, rfl, _, rfl, rfl⟩, _, rfl, rfl⟩

theorem test_witness_UnitsStayApart :
    (let s := under 2#3 .unpack .input .mid (.bytes [0#8, 1#8]) [1#16] (.bytes []) 2
     turns s ∧ s.ctl.phase = .unpack ∧ ∃ t, step s = .next t) ∧
    (let s := under 1#3 .encode .input .mid (.bytes [84#8]) [] (.bytes []) 0
     turns s ∧ s.ctl.phase = .encode ∧ ∃ t, step s = .next t) ∧
    (let s := under 4#3 .decode .input .out (.codes [97#16]) [] (.bytes []) 0
     turns s ∧ s.ctl.phase = .decode ∧ ∃ t, step s = .next t) ∧
    (let s := under 5#3 .pack .input .out (.codes [97#16]) [] (.bytes []) 0
     turns s ∧ s.ctl.phase = .pack ∧ ∃ t, step s = .next t) :=
  ⟨⟨turns_of rfl, rfl, _, rfl⟩, ⟨turns_of rfl, rfl, _, rfl⟩, ⟨turns_of rfl, rfl, _, rfl⟩, turns_of rfl, rfl, _, rfl⟩

theorem test_witness_InvKept :
    (Inv doneA ∧ ∃ t, step doneA = .next t) ∧
    (let s := under 2#3 .unpack .input .mid (.bytes [0#8, 1#8]) [1#16] (.bytes []) 2
     Inv s ∧ ∃ t, step s = .next t) := ⟨⟨test_inv_doneA, _, rfl⟩, test_inv_unpacked, _, rfl⟩

/-- A host that offers COMPRESS with bytes, and one that offers an illegal word with codes. -/
theorem test_witness_NeverStuck :
    (Inv { doneA with host := [.write 0 1#8 (.bytes [97#8])] } ∧
      HostKeepsContract { doneA with host := [.write 0 1#8 (.bytes [97#8])] }) ∧
    HostKeepsContract { doneA with host := [.write 0 0#8 (.codes [])] } := by
  refine ⟨⟨inv_setHost test_inv_doneA _, ?_⟩, ?_⟩ <;>
  · intro v x rest h
    simp only [List.cons.injEq, HostAct.write.injEq] at h
    obtain ⟨⟨-, rfl, rfl⟩, rfl⟩ := h
    decide

theorem test_witness_GreedyLongestMatch :
    EncInv encT ∧ encT.W = .building ⟨84#8, []⟩ ∧ revLookup encT.R ⟨84#8, [79#8]⟩ = none ∧
    slotRead encT.D 84 = .data ⟨84#8, []⟩ ∧ strBytes ⟨84#8, []⟩ <+: strBytes ⟨84#8, []⟩ ++ 79#8 :: [66#8] ∧
    strBytes ⟨84#8, []⟩ <+: strBytes ⟨84#8, []⟩ :=
  ⟨test_encInv_T, rfl, by decide +kernel, by decide +kernel, ⟨_, rfl⟩, List.prefix_refl _⟩

theorem test_witness_EncoderCodes : EncInv Enc.reset ∧ EncInv encT := ⟨encInv_reset, test_encInv_T⟩

/-- An idle block, one in DONE and one in FAULT wait. -/
theorem test_witness_CommandOutcome : Quiescent State.reset ∧ Quiescent doneA ∧ Quiescent faulted ∧
    payloadKind (.bytes [97#8]) = inputKind 1#8 ∧ payloadKind (.codes [97#16]) = inputKind 4#8 ∧
    reservedField 0#8 = 0#5 ∧ reservedField 8#8 ≠ 0#5 := by
  simp only [Quiescent]; decide

theorem test_witness_NothingSurvives : Quiescent State.reset ∧ Quiescent faulted ∧ State.reset.config = faulted.config ∧
    ∃ t, runSteps (0 + 1) (offerOne 5#8 (.codes [1#16]) State.reset) = .next t :=
  ⟨fun h => (by cases h), fun h => (by cases h), rfl, _, rfl⟩

/-- The FLUSH clause: after the byte "T" both units stand as the scan leaves them, and the flush emits 84. -/
theorem test_witness_TableAgreement_flush :
    unitsAfter ⟨baseSlots, 257, baseRev, .empty⟩ ⟨baseSlots, 257, .empty⟩ [84#8] = some (encT, Dec.reset) ∧
    flushCodes encT = some [84#16] := by decide +kernel

/-- The OVERFLOW clause: some input fills ENC's table up to its last entry, and a byte then overflows it. -/
theorem test_witness_TableAgreement_overflow :
    ∃ ks e d w c e1, unitsAfter ⟨baseSlots, 257, baseRev, .empty⟩ ⟨baseSlots, 257, .empty⟩ ks = some (e, d) ∧
      e.W = .building w ∧ encUnit 0#8 e = some ([c, (0#8).zeroExtend 16, 256#16], e1) := by
  obtain ⟨ks, e, d, w, h1, h2, h3, h4⟩ := every_length_reached 65278 (by omega)
  obtain ⟨ks2, e1, w1, g1, g2, g3, g4, g5⟩ := zeros_reach_miss 65537 h2 h4 (by omega)
  refine ⟨ks ++ ks2, e1, d, w1, ?_⟩
  rcases encUnit_cases g2.encInv 0#8 with ⟨⟨i, hi⟩, _⟩ | ⟨_, i, _, _, _, _, _, _, (⟨hL, _⟩ | ⟨_, hu⟩)⟩
  · rw [g4, show candidate (.building w1) 0#8 = strSnoc w1 0#8 from rfl, g5] at hi
    cases hi
  · omega
  · exact ⟨BitVec.ofNat 16 i, Enc.reset, by rw [← g1]; exact unitsAfter_append h1 ks2, g4, hu⟩

theorem test_witness_RoundTrip : Quiescent faulted ∧ faulted.config.maxInUnits = none ∧ faulted.config.maxOutUnits = none ∧
    Quiescent doneA ∧ doneA.config = faulted.config := ⟨fun h => (by cases h), rfl, rfl, fun h => (by cases h), rfl⟩

/-- The stream 97 cut after its CLEAR, followed by a stream that ends in DONE and by one that faults (V-DEC-12, V-DEC-20). -/
theorem test_witness_Concatenation :
    Quiescent State.reset ∧ EndsAs State.reset 4#8 (.codes ([97#16] ++ [256#16])) (.done (.bytes [97#8])) ∧
    EndsAs State.reset 4#8 (.codes [98#16]) (.done (.bytes [98#8])) ∧
    EndsAs State.reset 4#8 (.codes [257#16]) (.faulted ⟨.malformedCode, 2#4, 0, 257#16, 257⟩) :=
  ⟨fun h => (by cases h), ⟨3, _, rfl, by decide, by decide⟩, ⟨2, _, rfl, by decide, by decide⟩, 1, _, rfl, by decide, by decide⟩

theorem test_witness_CompoundCommands : Quiescent doneA ∧ doneA.config.maxInUnits = none ∧ doneA.config.maxOutUnits = none :=
  ⟨fun h => (by cases h), rfl, rfl⟩

end Sys2Proof.Machine.Tests
end

section
/-! The lengths of dictionary entries (10_state.md R43, R44). -/

namespace Sys2Proof.Machine

/-- A Data entry below CLEAR's slot is the one-byte string of its own value (10_state.md R24). -/
theorem literal_length {D : Slots} {L i : Nat} {s : Str} (h : DictInv D L) (hi : i < 256)
    (hs : slotRead D i = .data s) : (strBytes s).length = 1 := by
  obtain rfl := Entry.data.inj ((h.literal i hi).symm.trans hs)
  rw [strBytes_single, List.length_singleton]

/-- R44's bound on an appended entry, by induction on its index: the entry it extends is a literal or an earlier appended
entry. -/
theorem appended_length_add_le {D : Slots} {L : Nat} (h : DictInv D L) (hp : PrefixClosed D L) (i : Nat) (h257 : 257 ≤ i) :
    ∀ s, slotRead D i = .data s → (strBytes s).length + 255 ≤ i := by
  induction i using Nat.strong_induction_on with
  | _ i ih =>
    intro s hs
    obtain ⟨j, p, b, hji, hj256, hjp, hib⟩ := hp i h257 (h.data_index hs).1
    obtain rfl := Entry.data.inj (hs.symm.trans hib)
    rw [strBytes_strSnoc, List.length_append, List.length_singleton]
    rcases Nat.lt_or_ge j 256 with hj | hj
    · have hlen := literal_length h hj hjp
      omega
    · have hlen := ih j hji (by omega) p hjp
      omega

/-- No entry of a generation is longer than the one at the last used index can be. -/
theorem data_length_add_le {D : Slots} {L i : Nat} {s : Str} (h : DictInv D L) (hp : PrefixClosed D L)
    (hs : slotRead D i = .data s) : (strBytes s).length + 256 ≤ L := by
  obtain ⟨hiL, hi256⟩ := h.data_index hs
  rcases Nat.lt_or_ge i 256 with hi | hi
  · have hlen := literal_length h hi hs
    have hL : 257 ≤ L := h.baseLe
    omega
  · have hlen := appended_length_add_le h hp i (by omega) s hs
    omega

/-- Settles O14: R44's bound by induction on the index, and the two units' maxima from their bounds on `L`. -/
theorem entryLengthBounds : Obligations.EntryLengthBounds := by
  refine ⟨fun D L i h hp h257 hiL => ?_, fun e i s he hs => ?_, fun d i s hd hs => ?_⟩
  · obtain ⟨s, hs⟩ := h.appended i h257 hiL
    exact ⟨s, hs, Nat.le_add_left 1 s.tail.length,
      Nat.le_sub_of_add_le (appended_length_add_le h hp i h257 s hs)⟩
  · have hlen := data_length_add_le he.dict he.prefixes hs
    have hL : e.L < 65536 := he.belowCapacity
    omega
  · have hlen := data_length_add_le hd.dict hd.prefixes hs
    have hL : d.L ≤ 65536 := hd.dict.leCapacity
    omega

end Sys2Proof.Machine
end

section
/-! The order in which a phase reads its source (20_memory.md R53, 44_entry_points.md R206). -/

namespace Sys2Proof.Machine

/-! ### Parts of a step -/

/-- A part of a step that goes on reaches a state of `P`, and one that raises leaves a fault (60_exceptions.md R238). -/
def Eff.Yields (P : State → Prop) (e : Eff) : Prop :=
  match e with
  | .go t => P t
  | .raised t => t.ctl.state = .fault
  | .stuck _ => True

theorem Eff.Yields.andThen {P Q : State → Prop} {e : Eff} {k : State → Eff} (h : e.Yields P)
    (hk : ∀ t, P t → (k t).Yields Q) : (e.andThen k).Yields Q := by
  cases e with
  | go t => exact hk t h
  | raised t => exact h
  | stuck r => trivial

theorem Eff.Yields.mono {P Q : State → Prop} {e : Eff} (h : e.Yields P) (hPQ : ∀ t, P t → Q t) : e.Yields Q := by
  cases e with
  | go t => exact hPQ t h
  | raised t => exact h
  | stuck r => trivial

/-- A part of a step that ends in BUSY has gone on. -/
theorem Eff.Yields.of_busy {P : State → Prop} {e : Eff} {t : State} (h : e.Yields P) (he : e.toOutcome = .next t)
    (ht : t.ctl.state = .busy) : P t := by
  cases e with
  | go u => cases he; exact h
  | raised u => cases he; exact absurd (h.symm.trans ht) (by decide)
  | stuck r => cases he

/-! ### Writes do not touch the source -/

/-- `t` is `s` with units written to its sink: CTL.MID differs only where it is the sink (R207). -/
def SinkWritten (s t : State) : Prop :=
  ∃ m o, t = s.setCtl (ctlSetMid m (ctlSetOut o s.ctl)) ∧ (s.ctl.snk = .out → m = s.ctl.mid)

theorem SinkWritten.refl (s : State) : SinkWritten s s := ⟨s.ctl.mid, s.ctl.out, rfl, fun _ => rfl⟩

theorem SinkWritten.trans {s t u : State} (h : SinkWritten s t) (h' : SinkWritten t u) : SinkWritten s u := by
  obtain ⟨m, o, rfl, hm⟩ := h
  obtain ⟨m', o', rfl, hm'⟩ := h'
  exact ⟨m', o', rfl, fun hs => (hm' hs).trans (hm hs)⟩

theorem outByte_writes (b : Byte) (s : State) : (outByte b s).Yields (SinkWritten s) := by
  unfold outByte
  split
  · trivial
  · split
    · trivial
    · next l _ =>
      split
      · exact rfl
      · exact ⟨s.ctl.mid, .bytes (l ++ [b]), rfl, fun _ => rfl⟩

theorem outCode_writes (c : Code) (s : State) : (outCode c s).Yields (SinkWritten s) := by
  unfold outCode
  split
  · next hs => exact ⟨s.ctl.mid ++ [c], s.ctl.out, rfl, fun ho => by rw [hs] at ho; cases ho⟩
  · split
    · trivial
    · next l _ =>
      split
      · exact rfl
      · exact ⟨s.ctl.mid, .codes (l ++ [c]), rfl, fun _ => rfl⟩

theorem outBytes_writes (bs : List Byte) (s : State) : (outBytes bs s).Yields (SinkWritten s) := by
  induction bs generalizing s with
  | nil => exact SinkWritten.refl s
  | cons b bs ih => exact (outByte_writes b s).andThen fun t ht => (ih t).mono fun u hu => ht.trans hu

theorem outCodes_writes (cs : List Code) (s : State) : (outCodes cs s).Yields (SinkWritten s) := by
  induction cs generalizing s with
  | nil => exact SinkWritten.refl s
  | cons c cs ih => exact (outCode_writes c s).andThen fun t ht => (ih t).mono fun u hu => ht.trans hu

/-- The phase does not write what it reads: CTL.MID is not source and sink at once (R208 to R213). -/
def SinkApart (c : Ctl) : Prop := c.src = .input ∨ c.snk = .out

theorem legal_sinkApart {op : BitVec 3} {p : Phase} {src : Source} {snk : Sink} (h : phaseLegal op p src snk = true) :
    src = .input ∨ snk = .out := by
  cases src with
  | input => exact Or.inl rfl
  | mid =>
    cases snk with
    | out => exact Or.inr rfl
    | mid => simp [phaseLegal] at h

theorem BusyInv.sinkApart {c : Ctl} (h : BusyInv c) : SinkApart c := legal_sinkApart h.legal

/-- Writes to the sink of such a phase keep its source. -/
theorem SinkWritten.source {s t : State} (h : SinkWritten s t) (ha : SinkApart s.ctl) :
    sourcePayload t.ctl = sourcePayload s.ctl := by
  obtain ⟨m, o, rfl, hm⟩ := h
  rcases ha with hi | ho
  · simp [sourcePayload, hi]
  · simp [sourcePayload, hm ho]

theorem SinkWritten.pos {s t : State} (h : SinkWritten s t) : t.ctl.pos = s.ctl.pos := by
  obtain ⟨m, o, rfl, -⟩ := h
  rfl

theorem SinkWritten.phase {s t : State} (h : SinkWritten s t) : t.ctl.phase = s.ctl.phase := by
  obtain ⟨m, o, rfl, -⟩ := h
  rfl

/-! ### The phases' steps -/

/-- `n` units are read: the phase and its source stay, and CTL.POS moves on by `n` (R206). -/
structure ReadsOn (n : Nat) (c c' : Ctl) : Prop where
  phase : c'.phase = c.phase
  source : sourcePayload c' = sourcePayload c
  pos : c'.pos = c.pos + n

/-- One InNext and then writes to the sink read one unit. -/
theorem SinkWritten.reads_one {s t : State} (h : SinkWritten (advance s) t) (ha : SinkApart s.ctl) :
    ReadsOn 1 s.ctl t.ctl := ⟨h.phase, h.source ha, h.pos⟩

/-- Two InNexts and then writes to the sink read two units. -/
theorem SinkWritten.reads_two {s t : State} (h : SinkWritten (advance (advance s)) t) (ha : SinkApart s.ctl) :
    ReadsOn 2 s.ctl t.ctl := ⟨h.phase, h.source ha, h.pos⟩

/-- EncStep reads one unit (41_encoder.md R121). -/
theorem encStep_reads {s : State} (ha : SinkApart s.ctl) : (encStep s).Yields fun t => ReadsOn 1 s.ctl t.ctl := by
  unfold encStep
  split
  · trivial
  · next k s1 hin =>
    obtain rfl := ((inByte_eq_some _ _ _).1 hin).2
    split
    · trivial
    · next cs e _ => exact (outCodes_writes cs (advance s)).andThen fun t ht => ht.reads_one ha

/-- PackStep reads one unit (42_bit_packer.md R151). -/
theorem packStep_reads {s : State} (ha : SinkApart s.ctl) : (packStep s).Yields fun t => ReadsOn 1 s.ctl t.ctl := by
  unfold packStep
  split
  · trivial
  · next c s1 hin =>
    obtain rfl := ((inCode_eq_some _ _ _).1 hin).2
    rw [outByte_pair]
    exact (outBytes_writes _ (advance s)).mono fun t ht => ht.reads_one ha

/-- UnpackStep reads two units (42_bit_packer.md R156). -/
theorem unpackStep_reads {s : State} (ha : SinkApart s.ctl) : (unpackStep s).Yields fun t => ReadsOn 2 s.ctl t.ctl := by
  unfold unpackStep
  split
  · trivial
  · next hi s1 hin =>
    obtain rfl := ((inByte_eq_some _ _ _).1 hin).2
    split
    · trivial
    · next lo s2 hin2 =>
      obtain rfl := ((inByte_eq_some _ _ _).1 hin2).2
      exact (outCode_writes _ (advance (advance s))).mono fun t ht => ht.reads_two ha

/-- A code's effect, after its InNext, reads no further unit (43_decoder.md R171). -/
theorem decApply_reads {s : State} (ha : SinkApart s.ctl) (c : Code) (r : DecRes) :
    (decApply c r (advance s)).Yields fun t => ReadsOn 1 s.ctl t.ctl := by
  cases r with
  | emits out d => exact (outBytes_writes out (advance s)).andThen fun t ht => ht.reads_one ha
  | malformed sub => exact rfl
  | stuck r => trivial

/-- DecStep of R171 as one part of a step: InNext, then the code's effect. -/
def decStep (s : State) : Eff :=
  match inCode s with
  | none => .stuck .sourceUnit
  | some (c, s1) => decApply c (decDispatch c s1.dec) s1

theorem runDecode_eq (s : State) :
    runDecode s = if atEnd s.ctl then (phaseEnd s).toOutcome else (decStep s).toOutcome := by
  unfold runDecode decStep
  cases inCode s with
  | none => rfl
  | some r =>
    obtain ⟨c, s1⟩ := r
    simp only [exec_decodeCode]

/-- DecStep reads one unit (43_decoder.md R171). -/
theorem decStep_reads {s : State} (ha : SinkApart s.ctl) : (decStep s).Yields fun t => ReadsOn 1 s.ctl t.ctl := by
  unfold decStep
  split
  · trivial
  · next c s1 hin =>
    obtain rfl := ((inCode_eq_some _ _ _).1 hin).2
    exact decApply_reads ha c _

/-! ### The end of a phase -/

/-- If the command goes on, it is in another phase, at position 0. -/
def PhaseOver (c c' : Ctl) : Prop := c'.state = .busy → c'.phase ≠ c.phase ∧ c'.pos = 0

/-- What follows a phase ends the command or enters another phase at position 0 (R204, R208, R209, R215). -/
theorem phaseEnd_over (s : State) : (phaseEnd s).Yields fun t => PhaseOver s.ctl t.ctl := by
  unfold phaseEnd
  split
  · next h => exact fun _ => ⟨by simp [h.2], rfl⟩
  · split
    · next h => exact fun _ => ⟨by simp [h.2], rfl⟩
    · exact fun h => by cases h

theorem encFlush_writes (s : State) : (encFlush s).Yields (SinkWritten s) := by
  unfold encFlush
  split
  · trivial
  · exact outCodes_writes _ s

/-- The end action of ENCODE comes before what follows its phase (41_encoder.md R126). -/
theorem encFlush_phaseEnd_over (s : State) :
    ((encFlush s).andThen phaseEnd).Yields fun t => PhaseOver s.ctl t.ctl :=
  (encFlush_writes s).andThen fun u hu => (phaseEnd_over u).mono fun _ h ht => hu.phase ▸ h ht

/-! ### The engine's turns -/

/-- How many units one step of a phase reads: a code's two bytes in UNPACK (R156), otherwise one unit. -/
def unitsRead (p : Phase) : Nat := if p = .unpack then 2 else 1

/-- The next unit is read, or the source has been read to its end and another phase is entered. -/
def ReadsInOrder (c c' : Ctl) : Prop :=
  ReadsOn (unitsRead c.phase) c c' ∨ (c'.phase ≠ c.phase ∧ atEnd c = true ∧ c'.pos = 0)

/-- A phase's turn is its end action at the end of the source and its step before it. -/
theorem phase_readsInOrder {s t : State} {fin stp : Eff}
    (hfin : fin.Yields fun t => PhaseOver s.ctl t.ctl)
    (hstp : stp.Yields fun t => ReadsOn (unitsRead s.ctl.phase) s.ctl t.ctl)
    (h : (if atEnd s.ctl then fin.toOutcome else stp.toOutcome) = .next t) (ht : t.ctl.state = .busy) :
    ReadsInOrder s.ctl t.ctl := by
  split at h
  · next hend =>
    obtain ⟨hphase, hpos⟩ := hfin.of_busy h ht ht
    exact Or.inr ⟨hphase, hend, hpos⟩
  · exact Or.inl (hstp.of_busy h ht)

/-- A turn of the engine that stays in BUSY reads the source in order, whatever phase it is in. -/
theorem engine_readsInOrder {s t : State} (ha : SinkApart s.ctl) (hb : s.ctl.state = .busy) (h : engine s = .next t)
    (ht : t.ctl.state = .busy) : ReadsInOrder s.ctl t.ctl := by
  unfold engine at h
  rw [hb] at h
  cases hp : s.ctl.phase with
  | none => rw [hp] at h; cases h
  | encode =>
    rw [hp] at h
    exact phase_readsInOrder (encFlush_phaseEnd_over s) (by rw [hp]; exact encStep_reads ha) h ht
  | pack =>
    rw [hp] at h
    exact phase_readsInOrder (phaseEnd_over s) (by rw [hp]; exact packStep_reads ha) h ht
  | unpack =>
    rw [hp] at h
    exact phase_readsInOrder (phaseEnd_over s) (by rw [hp]; exact unpackStep_reads ha) h ht
  | decode =>
    rw [hp] at h
    exact phase_readsInOrder (phaseEnd_over s) (by rw [hp]; exact decStep_reads ha) ((runDecode_eq s).symm.trans h) ht

/-- Settles O49: the engine's turns case by case over the phases, and an acceptance by what it leaves when it does not
fault. -/
theorem sourceReadInOrder : Obligations.SourceReadInOrder := by
  refine ⟨fun s0 s t hI hturn hb hstep ht => ?_, fun s t v x rest hh hstep ht => ?_⟩
  · rw [hturn.step_eq] at hstep
    exact (engine_readsInOrder (hI.busy hb).sinkApart hb hstep ht).imp (fun h => ⟨h.phase, h.source, h.pos⟩) id
  · rcases (write0_cases hh hstep).2 with hf | hf
    · exact absurd (hf.symm.trans ht) (by decide)
    · exact ⟨hf.pos, hf.source⟩

end Sys2Proof.Machine
end

section
/-! The three classes of a code word (30_encoding.md R72). -/

namespace Sys2Proof.Machine

/-! ### The classes by value -/

theorem decodeCode_eq_lit_iff (c : Code) : decodeCode c = .lit (loByte c) ↔ c.toNat ≤ 0x00FF := by
  rcases decodeCode_cases c with ⟨hc, hd⟩ | ⟨rfl, hd⟩ | ⟨hc, -, hd⟩
  · exact iff_of_true hd (Nat.le_of_lt_succ hc)
  · exact iff_of_false (by simp [hd]) (by decide)
  · exact iff_of_false (by simp [hd]) (by omega)

theorem decodeCode_eq_clear_iff (c : Code) : decodeCode c = .clear ↔ c.toNat = 0x0100 := by
  rcases decodeCode_cases c with ⟨hc, hd⟩ | ⟨rfl, hd⟩ | ⟨hc, -, hd⟩
  · exact iff_of_false (by simp [hd]) (by omega)
  · exact iff_of_true hd rfl
  · exact iff_of_false (by simp [hd]) (by omega)

theorem decodeCode_eq_ref_iff (c : Code) : decodeCode c = .ref c ↔ 0x0101 ≤ c.toNat := by
  rcases decodeCode_cases c with ⟨hc, hd⟩ | ⟨rfl, hd⟩ | ⟨hc, -, hd⟩
  · exact iff_of_false (by simp [hd]) (by omega)
  · exact iff_of_false (by simp [hd]) (by decide)
  · exact iff_of_true hd hc

/-! ### The classes by mask and match -/

/-- LIT's mask and match are the decoder's own first test. -/
theorem decodeCode_eq_lit_iff_mask (c : Code) : decodeCode c = .lit (loByte c) ↔ c &&& 0xFF00#16 = 0x0000#16 := by
  unfold decodeCode
  split
  · next hmask => exact iff_of_true rfl hmask
  · next hmask => split <;> exact iff_of_false (by simp) hmask

/-- CLEAR's mask keeps every bit of the code. -/
theorem full_mask_eq_clear_iff (c : Code) : c &&& 0xFFFF#16 = 0x0100#16 ↔ c.toNat = 0x0100 := by
  have hmask : c &&& 0xFFFF#16 = c := BitVec.and_allOnes
  rw [hmask]
  exact BitVec.toNat_inj.symm

/-! ### What a class means in a dictionary -/

/-- A LIT code names its own byte's string in every generation (10_state.md R24). -/
theorem DictInv.slotRead_lit {D : Slots} {L : Nat} (h : DictInv D L) {c : Code} (hc : c.toNat ≤ 0x00FF) :
    slotRead D c.toNat = .data (Str.single (loByte c)) := by
  have hlo : BitVec.ofNat 8 c.toNat = loByte c :=
    BitVec.eq_of_toNat_eq (by rw [loByte_toNat, BitVec.toNat_ofNat])
  rw [h.literal _ (Nat.lt_succ_of_le hc), hlo]

/-- An index from 257 up holds Data exactly when it is in use (10_state.md R24). -/
theorem DictInv.appended_iff {D : Slots} {L i : Nat} (h : DictInv D L) (hi : 257 ≤ i) :
    i < L ↔ ∃ s, slotRead D i = .data s :=
  ⟨h.appended i hi, fun ⟨_, hs⟩ => (h.data_index hs).1⟩

/-- Settles O6: the decoder's three classes by value and by mask, and the generation invariant read at each class. -/
theorem codeClasses : Obligations.CodeClasses := by
  refine ⟨fun c => ⟨decodeCode_eq_lit_iff_mask c, ?_⟩, fun c => ⟨?_, full_mask_eq_clear_iff c⟩, decodeCode_eq_ref_iff,
    fun c D L h => ⟨fun hc => ⟨?_, h.slotRead_lit hc⟩, fun hc => hc ▸ h.clearSlot, h.appended_iff⟩⟩
  · exact (decodeCode_eq_lit_iff_mask c).symm.trans (decodeCode_eq_lit_iff c)
  · exact (decodeCode_eq_clear_iff c).trans (full_mask_eq_clear_iff c).symm
  · have hL : 257 ≤ L := h.baseLe
    omega

end Sys2Proof.Machine
end

section
/-! The layout of the packed buffer (30_encoding.md R76, 42_bit_packer.md R152). -/

namespace Sys2Proof.Machine

/-- Code `i`'s two bytes in the step form of PACK (30_encoding.md R76). -/
theorem packPairs_getElem? (cs : List Code) (i : Nat) :
    (packPairs cs)[2 * i]? = cs[i]?.map hiByte ∧ (packPairs cs)[2 * i + 1]? = cs[i]?.map loByte := by
  induction cs generalizing i with
  | nil => exact ⟨rfl, rfl⟩
  | cons c cs ih =>
    cases i with
    | zero => exact ⟨rfl, rfl⟩
    | succ i => exact ih i

/-- Settles O7: the bit-string form of PACK is its step form, whose bytes stand in pairs. -/
theorem packedLayout : Obligations.PackedLayout := by
  intro cs
  refine ⟨by rw [packBits_eq, packPairs_length], ?_, fun i c hc => ?_⟩
  · have hlen := flatMap_binStr_length cs
    omega
  · obtain ⟨hhi, hlo⟩ := packPairs_getElem? cs i
    rw [hc] at hhi hlo
    rw [packBits_eq]
    exact ⟨hhi, hlo⟩

end Sys2Proof.Machine
end

section
/-! The codes the encoder emits (30_encoding.md R74). -/

namespace Sys2Proof.Machine

/-! ### The code of a match -/

/-- A match of one byte stands at its own byte's index and a longer one among the appended entries (10_state.md R24, R43). -/
theorem EncInv.literal_iff_tail_nil {e : Enc} (h : EncInv e) {i : Nat} {w : Str} (hd : slotRead e.D i = .data w) :
    i < 256 ↔ w.tail = [] := by
  obtain ⟨hL, hclear⟩ := h.dict.data_index hd
  rcases Nat.lt_or_ge i 256 with hi | hi
  · obtain rfl := Entry.data.inj ((h.dict.literal i hi).symm.trans hd)
    exact iff_of_true hi rfl
  · obtain ⟨j, p, b, -, -, -, hib⟩ := h.prefixes i (by omega) hL
    obtain rfl := Entry.data.inj (hib.symm.trans hd)
    exact iff_of_false (Nat.not_lt.2 hi) (by simp [strSnoc])

/-- `c` is a code ENC may emit for its match: below ENC.L, not CLEAR, and a LIT exactly when the match is one byte. -/
def CodesMatch (e : Enc) (c : Code) (w : Str) : Prop :=
  c.toNat < e.L ∧ c.toNat ≠ 256 ∧ e.W = .building w ∧ (c.toNat < 256 ↔ w.tail = [])

/-- The index that RevLookup gives for the match is such a code. -/
theorem EncInv.codesMatch {e : Enc} (h : EncInv e) {i : Nat} {w : Str} (hw : e.W = .building w)
    (hd : slotRead e.D i = .data w) : CodesMatch e (BitVec.ofNat 16 i) w := by
  obtain ⟨hL, hclear⟩ := h.dict.data_index hd
  have hcap : e.L < 65536 := h.belowCapacity
  rw [CodesMatch, code_toNat (by omega)]
  exact ⟨hL, hclear, hw, h.literal_iff_tail_nil hd⟩

/-! ### One scan step and one flush -/

/-- The codes of a scan step on `k` are none, the match's, or the match's with `k`'s raw code and CLEAR where the next append
would reach the capacity. -/
theorem encUnit_codes {e : Enc} (h : EncInv e) (k : Byte) :
    (∃ e1, encUnit k e = some ([], e1)) ∨
    (∃ c e1 w, encUnit k e = some ([c], e1) ∧ CodesMatch e c w) ∨
    (∃ c e1 w, encUnit k e = some ([c, litCode k, clearCode], e1) ∧ CodesMatch e c w ∧ e.L = 65535) := by
  rcases encUnit_cases h k with ⟨-, hu⟩ | ⟨w, i, hw, -, -, -, hd, -, (⟨-, hu⟩ | ⟨hL, hu⟩)⟩
  · exact Or.inl ⟨_, hu⟩
  · exact Or.inr (Or.inl ⟨_, _, w, hu, h.codesMatch hw hd⟩)
  · exact Or.inr (Or.inr ⟨_, _, w, hu, h.codesMatch hw hd, Nat.succ.inj hL⟩)

theorem flushCodes_codes {e : Enc} (h : EncInv e) :
    flushCodes e = some [] ∨ ∃ c w, flushCodes e = some [c] ∧ CodesMatch e c w := by
  rcases flushCodes_cases h with ⟨-, hf⟩ | ⟨w, i, hw, -, -, -, hd, hf⟩
  · exact Or.inl hf
  · exact Or.inr ⟨_, w, hf, h.codesMatch hw hd⟩

/-! ### No code is 65535 -/

/-- ENC.L stays below the capacity, so a match's code is not the last one. -/
theorem CodesMatch.le {e : Enc} {c : Code} {w : Str} (h : EncInv e) (hc : CodesMatch e c w) : c.toNat ≤ 65534 := by
  obtain ⟨hlt, -⟩ := hc
  have hcap : e.L < 65536 := h.belowCapacity
  omega

theorem encUnit_codes_le {e e1 : Enc} {k : Byte} {cs : List Code} (h : EncInv e) (hu : encUnit k e = some (cs, e1)) :
    ∀ c ∈ cs, c.toNat ≤ 65534 := by
  have hk : (litCode k).toNat ≤ 65534 := by
    have hlt := k.isLt
    rw [litCode_toNat]
    omega
  rcases encUnit_codes h k with ⟨_, hu'⟩ | ⟨c, _, w, hu', hc⟩ | ⟨c, _, w, hu', hc, -⟩ <;> cases hu.symm.trans hu'
  · simp
  · simpa using hc.le h
  · simpa [toNat_clearCode] using ⟨hc.le h, hk⟩

theorem flushCodes_codes_le {e : Enc} {cs : List Code} (h : EncInv e) (hf : flushCodes e = some cs) :
    ∀ c ∈ cs, c.toNat ≤ 65534 := by
  rcases flushCodes_codes h with hf' | ⟨c, w, hf', hc⟩ <;> cases hf.symm.trans hf'
  · simp
  · simpa using hc.le h

/-- A scan of any input goes through and emits no 65535, by induction on the input under ENC's invariant. -/
theorem encodeFrom_codes_le (ks : List Byte) {e : Enc} (h : EncInv e) :
    ∃ cs, encodeFrom e ks = some cs ∧ ∀ c ∈ cs, c.toNat ≤ 65534 := by
  induction ks generalizing e with
  | nil =>
    obtain ⟨cs, hcs⟩ := encodeFrom_some [] e h
    exact ⟨cs, hcs, flushCodes_codes_le h hcs⟩
  | cons k ks ih =>
    obtain ⟨cs, e1, hu, h1⟩ := encUnit_inv h k
    obtain ⟨out, hout, hle⟩ := ih h1
    refine ⟨cs ++ out, by simp [encodeFrom, hu, hout], fun c hc => ?_⟩
    exact (List.mem_append.1 hc).elim (encUnit_codes_le h hu c) (hle c)

/-- Settles O55: the scan step and the flush case by case, and the whole stream by induction from the reset state. -/
theorem encoderCodes : Obligations.EncoderCodes := by
  refine ⟨fun e k h => ?_, fun e h => ?_, fun ks => encodeFrom_codes_le ks encInv_reset⟩
  · rcases encUnit_codes h k with hu | ⟨c, e1, w, hu, hc⟩ | ⟨c, e1, w, hu, ⟨hlt, hclear, hw, hlit⟩, hL⟩
    · exact Or.inl hu
    · exact Or.inr (Or.inl ⟨c, e1, w, hu, hc⟩)
    · exact Or.inr (Or.inr ⟨c, e1, w, hu, hlt, hclear, hL, hw, hlit⟩)
  · exact flushCodes_codes h

end Sys2Proof.Machine
end

section
/-! Build, DictAppend and RevLookup (40_dictionary_builder.md R100, R104, R105). -/

namespace Sys2Proof.Machine

/-- Every byte's own string stands at the byte's value in every generation (10_state.md R24). -/
theorem DictInv.slotRead_byte {D : Slots} {L : Nat} (h : DictInv D L) (b : Byte) :
    slotRead D b.toNat = .data (Str.single b) := by
  rw [h.literal _ b.isLt, BitVec.ofNat_toNat, BitVec.setWidth_eq]

/-- Right after a Build the reverse index has no key of more than one byte. -/
theorem revLookup_baseRev_of_tail_ne_nil {s : Str} (hs : s.tail ≠ []) : revLookup baseRev s = none := by
  refine Option.eq_none_iff_forall_ne_some.2 fun i hi => hs ?_
  obtain ⟨-, rfl⟩ := (revLookup_baseRev s i).1 hi
  rfl

/-- Settles O10: the slots are those of a fresh generation, and the keys are exactly the one-byte strings. -/
theorem buildBaseline : Obligations.BuildBaseline := by
  have hbase : DictInv baseSlots 257 := dictInv_base
  refine ⟨fun e => ⟨hbase.slotRead_byte, hbase.clearSlot, hbase.unused, rfl, revLookup_baseRev_single, ?_, rfl⟩,
    fun d => ⟨hbase.slotRead_byte, hbase.clearSlot, hbase.unused, rfl, rfl⟩⟩
  exact fun s hs => revLookup_baseRev_of_tail_ne_nil hs

/-- Settles O11: an append is one write of the slots and, in ENC, one put in the reverse index. -/
theorem appendEntry : Obligations.AppendEntry := by
  refine ⟨fun e s hwf _ _ => ⟨fun i => ?_, fun k => ?_, rfl, rfl⟩, fun d s hwf _ => ⟨fun i => ?_, rfl, rfl⟩⟩
  · exact slotRead_slotWrite e.D e.L i (.data s) hwf
  · exact revLookup_revPut e.R s k e.L
  · exact slotRead_slotWrite d.D d.L i (.data s) hwf

/-- Settles O13: the reverse index inverts the slots but for 256, and after a Build it is the baseline's. -/
theorem revLookupValues : Obligations.RevLookupValues := by
  refine ⟨fun e b h => h.lookup_single b, fun e s h hs => ?_, fun e s i h => h.inverse s i, fun e => ⟨?_, ?_⟩⟩
  · obtain ⟨-, hclear, -⟩ := (h.inverse s 256).1 hs
    exact hclear rfl
  · exact revLookup_baseRev_single 84#8
  · exact revLookup_baseRev_of_tail_ne_nil (List.cons_ne_nil _ _)

end Sys2Proof.Machine
end

section
/-! One EncStep of an ENCODE phase: EXTEND, MISS and OVERFLOW (41_encoder.md R121 to R124). -/

namespace Sys2Proof.Machine

/-! ### The scan step's three outcomes, without the invariant -/

theorem candidate_building {m : Match} {w : Str} {k : Byte} (hm : m = .building w) : candidate m k = strSnoc w k := by
  rw [hm]; rfl

theorem matchCode_eq_ofNat {e : Enc} {w : Str} {i : Nat} (hw : e.W = .building w) (hi : revLookup e.R w = some i) :
    matchCode e = some (BitVec.ofNat 16 i) := by simp [matchCode, hw, hi]

theorem encUnit_extend {e : Enc} {k : Byte} (hc : revLookup e.R (candidate e.W k) ≠ none) :
    encUnit k e = some ([], encExtend (candidate e.W k) e) := by
  obtain ⟨i, hi⟩ := Option.ne_none_iff_exists'.1 hc
  simp [encUnit, hi]

theorem encUnit_miss {e : Enc} {k : Byte} {w : Str} {i : Nat} (hw : e.W = .building w) (hi : revLookup e.R w = some i)
    (hc : revLookup e.R (strSnoc w k) = none) (hL : e.L + 1 < 65536) :
    encUnit k e = some ([BitVec.ofNat 16 i], encMiss (strSnoc w k) k e) := by
  simp [encUnit, candidate_building hw, hc, matchCode_eq_ofNat hw hi, hL.ne]

theorem encUnit_overflow {e : Enc} {k : Byte} {w : Str} {i : Nat} (hw : e.W = .building w) (hi : revLookup e.R w = some i)
    (hc : revLookup e.R (strSnoc w k) = none) (hL : e.L + 1 = 65536) :
    encUnit k e = some ([BitVec.ofNat 16 i, litCode k, clearCode], Enc.reset) := by
  simp [encUnit, candidate_building hw, hc, matchCode_eq_ofNat hw hi, hL, encOverflow_eq_reset]

/-! ### The engine's turn on one byte -/

/-- The engine's turn comes next in `s0`, from `s`, and it scans byte `k` of an ENCODE phase (44_entry_points.md R204, R206). -/
structure ScanTurn (s0 s : State) (k : Byte) : Prop where
  turn : EngineTurn s0 s
  busy : s.ctl.state = .busy
  phase : s.ctl.phase = .encode
  byte : byteAt s.ctl.pos (sourcePayload s.ctl) = some k

theorem atEnd_of_byteAt {c : Ctl} {k : Byte} (h : byteAt c.pos (sourcePayload c) = some k) : atEnd c = false := by
  rw [atEnd_false_iff]
  cases hs : sourcePayload c with
  | codes l => rw [hs] at h; cases h
  | bytes l =>
    rw [hs] at h
    obtain ⟨hlt, -⟩ := List.getElem?_eq_some_iff.1 h
    exact hlt.ne

section
variable {s0 s : State} {k : Byte} {cs : List Code} {e : Enc}

/-- The step reads `k`, writes the scan step's codes and leaves ENC as the scan step does (41_encoder.md R121). -/
theorem ScanTurn.step_eq (h : ScanTurn s0 s k) (hu : encUnit k s.enc = some (cs, e)) :
    step s0 = ((outCodes cs (advance s)).andThen fun t => .go (t.setEnc e)).toOutcome := by
  have hin : inByte s = some (k, advance s) := (inByte_eq_some _ _ _).2 ⟨h.byte, rfl⟩
  rw [h.turn.step_eq, engine, h.busy, h.phase]
  simp [runEncode, atEnd_of_byteAt h.byte, encStep, hin, hu]

theorem ScanTurn.step_none (h : ScanTurn s0 s k) (hu : encUnit k s.enc = some ([], e)) :
    step s0 = .next { s with ctl := { s.ctl with pos := s.ctl.pos + 1 }, enc := e } := by
  rw [h.step_eq hu]
  rfl

theorem ScanTurn.step_mid (h : ScanTurn s0 s k) (hu : encUnit k s.enc = some (cs, e)) (hs : s.ctl.snk = .mid) :
    step s0 = .next { s with ctl := { s.ctl with pos := s.ctl.pos + 1, mid := s.ctl.mid ++ cs }, enc := e } := by
  rw [h.step_eq hu, outCodes_mid cs (advance s) hs]
  rfl

theorem ScanTurn.step_out (h : ScanTurn s0 s k) (hu : encUnit k s.enc = some (cs, e)) {l : List Code}
    (hs : s.ctl.snk = .out) (ho : s.ctl.out = .codes l) (hf : exceeds (l.length + cs.length) s.config.maxOutUnits = false) :
    step s0 = .next { s with ctl := { s.ctl with pos := s.ctl.pos + 1, out := .codes (l ++ cs) }, enc := e } := by
  rw [h.step_eq hu, outCodes_fits cs l (advance s) hs ho hf]
  rfl

end

/-! ### The obligations -/

/-- Settles O35: the match's index is the one the invariant gives, and what the step does to ENC is one append. -/
theorem encMissStep : Obligations.EncMissStep := by
  intro s0 s ks k w ht hb hp hsrc hk hinv hw hc hL
  obtain ⟨i, hi, hlt, h256, -⟩ := hinv.match_index hw
  have hscan : ScanTurn s0 s k := ⟨ht, hb, hp, hsrc ▸ hk⟩
  have hu := encUnit_miss hw hi hc hL
  exact ⟨i, encMiss (strSnoc w k) k s.enc, hi, h256, hlt, slotRead_append hinv.dict (strSnoc w k),
    fun q => revLookup_revPut s.enc.R (strSnoc w k) q s.enc.L, rfl, rfl,
    hscan.step_mid hu, fun l => hscan.step_out hu⟩

/-- Settles O34: a found candidate becomes the match and no code is written; a one-byte candidate is always found. -/
theorem encExtendStep : Obligations.EncExtendStep := by
  refine ⟨fun s0 s ks k ht hb hp hsrc hk hc => ?_, fun e k hinv hw => ⟨by rw [hw]; rfl, hinv.empty_extends hw k⟩⟩
  have hscan : ScanTurn s0 s k := ⟨ht, hb, hp, hsrc ▸ hk⟩
  exact hscan.step_none (encUnit_extend hc)

/-- Settles O36: the scan step gives the three codes and the baseline, and either sink takes them in order. -/
theorem encOverflowStep : Obligations.EncOverflowStep := by
  intro s0 s ks k w i ht hb hp hsrc hk hw hi hc hL
  have hscan : ScanTurn s0 s k := ⟨ht, hb, hp, hsrc ▸ hk⟩
  have hu := encUnit_overflow hw hi hc hL
  exact ⟨hscan.step_mid hu, fun l => hscan.step_out hu⟩

end Sys2Proof.Machine
end

section
/-! The two round-trip laws of the packer in its normative bit-string form (42_bit_packer.md R158). -/

namespace Sys2Proof.Machine

@[simp] theorem unpackBits_packBits (cs : List Code) : unpackBits (packBits cs) = cs := by
  rw [packBits_eq, unpackBits_eq, unpackPairs_packPairs]

theorem packBits_unpackBits {bs : List Byte} (h : bs.length % 2 = 0) : packBits (unpackBits bs) = bs := by
  rw [unpackBits_eq, packBits_eq, packPairs_unpackPairs bs h]

/-- Settles O9: both bit-string forms equal their step forms, which undo each other pair by pair. -/
theorem packRoundTrip : Obligations.PackRoundTrip :=
  ⟨unpackBits_packBits, fun _ => packBits_unpackBits⟩

end Sys2Proof.Machine
end

section
/-! The instructions of one code: CLEAR, START, DIRECT, WELCH and the three faults (43_decoder.md R172 to R178). -/

namespace Sys2Proof.Machine

/-! ### The Building half, branch by branch, without the invariant -/

theorem decBuilding_beyond {c : Code} {d : Dec} (w : Str) (h : d.L < c.toNat) : decBuilding c w d = .malformed 1#4 := by
  rw [decBuilding, if_pos h]

theorem decBuilding_full {c : Code} {d : Dec} (w : Str) (h : d.L = 65536) : decBuilding c w d = .malformed 3#4 := by
  rw [decBuilding, if_neg (by omega), if_pos h]

theorem decBuilding_direct {c : Code} {d : Dec} {e : Str} (w : Str) (h : c.toNat < d.L) (hL : d.L < 65536)
    (he : slotRead d.D c.toNat = .data e) :
    decBuilding c w d = .emits (strBytes e) { decAppend (strSnoc w e.head) d with W := .building e } := by
  rw [decBuilding, if_neg (by omega), if_neg (by simp only [Config.capacity]; omega), if_pos h, decDirect, he]

theorem decBuilding_welch {c : Code} {d : Dec} (w : Str) (h : c.toNat = d.L) :
    decBuilding c w d = .emits (strBytes (strSnoc w w.head))
      { decAppend (strSnoc w w.head) d with W := .building (strSnoc w w.head) } := by
  have hc := c.isLt
  rw [decBuilding, if_neg (by omega), if_neg (by simp only [Config.capacity]; omega), if_neg (by omega)]
  rfl

/-! ### An instruction and its code -/

/-- A LIT or REF instruction is the one its code decodes to, and its code is not CLEAR (30_encoding.md R72). -/
theorem decodeCode_of_lit_or_ref {i : Instr} {c : Code}
    (h : (∃ b, i = .lit b ∧ c.toNat = b.toNat) ∨ (i = .ref c ∧ 257 ≤ c.toNat)) : decodeCode c = i ∧ c ≠ clearCode := by
  rcases h with ⟨b, rfl, hb⟩ | ⟨rfl, hc⟩
  · obtain rfl : c = litCode b := BitVec.eq_of_toNat_eq (hb.trans (litCode_toNat b).symm)
    exact ⟨decodeCode_lit b, litCode_ne_clear b⟩
  · exact ⟨decodeCode_ref c hc, fun h => by rw [h, toNat_clearCode] at hc; omega⟩

theorem decDispatch_start {d : Dec} (b : Byte) (hw : d.W = .empty) :
    decDispatch (litCode b) d = .emits [b] { d with W := .building (Str.single b) } := by
  have hb := b.isLt
  rw [decDispatch, if_neg (litCode_ne_clear b), hw]
  simp only [litCode_toNat, Config.alphabet, hb, if_true, loByte_litCode, decStartCode]

theorem decDispatch_ref_empty {d : Dec} {c : Code} (hc : 257 ≤ c.toNat) (hw : d.W = .empty) :
    decDispatch c d = .malformed 2#4 := by
  have hclear : c ≠ clearCode := fun h => by rw [h, toNat_clearCode] at hc; omega
  rw [decDispatch, if_neg hclear, hw]
  exact if_neg (by simp only [Config.alphabet]; omega)

/-- A code that DEC takes, where the sink has room for its bytes: they are appended and DEC moves on. -/
theorem exec_emits {i : Instr} {c : Code} {s : State} {out l : List Byte} {d : Dec} (hi : decodeCode c = i)
    (hr : decDispatch c s.dec = .emits out d) (hs : s.ctl.snk = .out) (ho : s.ctl.out = .bytes l)
    (hf : exceeds (l.length + out.length) s.config.maxOutUnits = false) :
    exec i s = .next { s with ctl := { s.ctl with out := .bytes (l ++ out) }, dec := d } := by
  rw [← hi, exec_decodeCode, hr, decApply, outBytes_fits out l s hs ho hf]
  rfl

/-- The state a malformed code leaves: FAULT, with the record of 60_exceptions.md R239 at the code's own position. -/
def MalformedAt (s : State) (sub : BitVec 4) (c : Code) (t : State) : Prop :=
  t.ctl.state = .fault ∧ t.ctl.cause = .malformedCode ∧ t.ctl.subcause = sub ∧ t.ctl.faultPos = s.ctl.pos - 1 ∧
    t.ctl.faultCode = c ∧ t.ctl.faultLen.toNat = s.dec.L

/-- A code that DEC refuses ends the command with the fault's record; a length up to CAPACITY fits its register. -/
theorem exec_malformed {i : Instr} {c : Code} {s : State} {sub : BitVec 4} (hi : decodeCode c = i)
    (hr : decDispatch c s.dec = .malformed sub) (hL : s.dec.L ≤ 65536) :
    ∃ t, exec i s = .next t ∧ MalformedAt s sub c t := by
  rw [← hi, exec_decodeCode, hr]
  refine ⟨_, rfl, rfl, rfl, rfl, rfl, rfl, ?_⟩
  rw [State.setCtl_ctl, ctlFault_faultLen, BitVec.toNat_ofNat, Nat.mod_eq_of_lt (by omega)]

/-- CLEAR writes no byte, so it answers whatever the sink is (43_decoder.md R172). -/
theorem exec_clear_eq (s : State) : exec .clear s = .next { s with dec := Dec.reset } := rfl

/-! ### The obligations -/

/-- Settles O25: CLEAR puts DEC into the fresh generation, whose slots the generation invariant gives. -/
theorem clearStartsGeneration : Obligations.ClearStartsGeneration := by
  intro s
  have hdict : DictInv Dec.reset.D 257 := dictInv_base
  exact ⟨_, exec_clear_eq s, rfl, rfl, rfl, hdict.slotRead_byte, hdict.clearSlot, hdict.unused⟩

/-- Settles O26: the dispatch takes the START branch, whose one byte the sink has room for. -/
theorem litStarts : Obligations.LitStarts := by
  intro b s l hw hs ho hf
  exact exec_emits (decodeCode_lit b) (decDispatch_start b hw) hs ho hf

/-- Settles O27: a code below DEC.L is never the reserved slot's, so its slot holds Data and the dispatch takes DIRECT. -/
theorem codeDirect : Obligations.CodeDirect := by
  intro i c s w l hi hinv hw hc hL hs ho
  obtain ⟨hdec, hclear⟩ := decodeCode_of_lit_or_ref hi
  obtain ⟨e, he⟩ := hinv.slot_data hc (toNat_ne_clear hclear)
  have hr := (decDispatch_building hclear hw).trans (decBuilding_direct w hc hL he)
  exact ⟨e, he, fun hf => ⟨_, exec_emits hdec hr hs ho hf, rfl, rfl, rfl, slotRead_append hinv.dict _⟩⟩

/-- Settles O28: DEC.L is at least 257, so the code is a REF, and the dispatch takes WELCH. -/
theorem refWelch : Obligations.RefWelch := by
  intro c s w l hinv hw hc hs ho hf
  have h257 : 257 ≤ c.toNat := hc ▸ hinv.dict.baseLe
  obtain ⟨hdec, hclear⟩ := decodeCode_of_lit_or_ref (.inr ⟨rfl, h257⟩)
  have hr := (decDispatch_building hclear hw).trans (decBuilding_welch w hc)
  refine ⟨h257, _, exec_emits hdec hr hs ho ?_, ?_, rfl, rfl, ?_⟩
  · rwa [strBytes_strSnoc, List.length_append, ← Nat.add_assoc]
  · rw [strBytes_strSnoc, ← List.append_assoc]
  · rw [hc]
    exact slotRead_append hinv.dict _

/-- Settles O29: the match is empty only in a fresh generation, and a REF code is no byte's. -/
theorem refWhileEmptyFaults : Obligations.RefWhileEmptyFaults := by
  intro c s hc hinv hw
  have hL : s.dec.L = 257 := hinv.emptyFresh hw
  obtain ⟨t, ht, h1, h2, h3, h4, h5, h6⟩ :=
    exec_malformed (decodeCode_ref c hc) (decDispatch_ref_empty hc hw) hinv.dict.leCapacity
  exact ⟨t, ht, h1, h2, h3, h4, h5, h6, hL⟩

/-- Settles O30: no code is above a full table's length, so the dispatch takes TABLE_FULL; CLEAR is dispatched before it. -/
theorem tableFullFaults : Obligations.TableFullFaults := by
  refine ⟨fun i c s w hi hw hL => ?_, fun s _ => ⟨_, exec_clear_eq s, rfl⟩⟩
  obtain ⟨hdec, hclear⟩ := decodeCode_of_lit_or_ref hi
  rw [← hL]
  exact exec_malformed hdec ((decDispatch_building hclear hw).trans (decBuilding_full w hL)) hL.le

/-- Settles O31: the dispatch tests BEYOND_NEXT_FREE first; DEC.L, below a code, fits its register. -/
theorem beyondNextFreeFaults : Obligations.BeyondNextFreeFaults := by
  intro c s w hw hL hclear
  have hc := c.isLt
  exact exec_malformed rfl ((decDispatch_building hclear hw).trans (decBuilding_beyond w hL)) (by omega)

end Sys2Proof.Machine
end

section
/-! Table agreement along an Encoder-made stream (43_decoder.md R182, R183). -/

namespace Sys2Proof.Machine

/-- A DEC whose slots below ENC.L are ENC's agrees with it, whatever its own length up to ENC.L. -/
theorem EncInv.tablesAgree {e : Enc} {d : Dec} (h : EncInv e) (hL : d.L ≤ e.L)
    (hag : ∀ i, i < e.L → slotRead d.D i = slotRead e.D i) : TablesAgree e d := by
  intro i h257 hi
  obtain ⟨s, hs⟩ := h.dict.appended i h257 (by omega)
  exact ⟨s, (hag i (by omega)).trans hs, hs⟩

/-- The code of a FLUSH lets DEC's table catch up with ENC's. -/
theorem Lockstep.flush_agrees {e : Enc} {d : Dec} (h : Lockstep e d) {c : Code} (hf : flushCodes e = some [c]) :
    ∃ d1, decAfter d [c] = some d1 ∧ TablesAgree e d1 ∧ d1.L = e.L := by
  rcases flushCodes_cases h.encInv with ⟨-, hnone⟩ | ⟨w, i, hw, -, hi, hclear, hd, hone⟩
  · cases hf.symm.trans hnone
  · cases hf.symm.trans hone
    obtain ⟨d1, hr, -, -, hL, hag⟩ := lockstep_emit h hw hi hclear hd
    exact ⟨d1, decAfter_cons hr [], h.encInv.tablesAgree hL.le hag, hL⟩

/-- Only an OVERFLOW emits three codes (41_encoder.md R124), and its first names the match. -/
theorem encUnit_three_codes {e e1 : Enc} {k : Byte} {c a b : Code} {w : Str} (h : EncInv e) (hw : e.W = .building w)
    (hu : encUnit k e = some ([c, a, b], e1)) :
    e.L = 65535 ∧ ∃ i, c = BitVec.ofNat 16 i ∧ i < e.L ∧ i ≠ 256 ∧ slotRead e.D i = .data w := by
  rcases encUnit_cases h k with ⟨-, hx⟩ | ⟨v, i, hv, -, hi, hclear, hd, -, ⟨-, hx⟩ | ⟨hL, hx⟩⟩ <;>
    cases hu.symm.trans hx
  cases hw.symm.trans hv
  exact ⟨by omega, i, rfl, hi, hclear, hd⟩

/-- The three codes of an OVERFLOW: the tables agree after the first; the raw byte's code fills slot 65535 at DEC alone;
CLEAR discards it. -/
theorem Lockstep.overflow_agrees {e e1 : Enc} {d : Dec} (h : Lockstep e d) {w : Str} {k : Byte} {c : Code}
    (hw : e.W = .building w) (hu : encUnit k e = some ([c, litCode k, clearCode], e1)) :
    ∃ d1 d2, decAfter d [c] = some d1 ∧ TablesAgree e d1 ∧ d1.L = 65535 ∧
      decAfter d [c, litCode k] = some d2 ∧ d2.L = 65536 ∧
      (∀ i, 257 ≤ i → i < 65535 → slotRead d2.D i = slotRead e.D i) ∧
      slotRead e.D 65535 = .absent ∧ slotRead d2.D 65535 = .data (strSnoc w k) ∧
      decAfter d [c, litCode k, clearCode] = some Dec.reset := by
  obtain ⟨hL, i, rfl, hi, hclear, hd⟩ := encUnit_three_codes h.encInv hw hu
  obtain ⟨d1, d2, hr1, hL1, hr2, hL2, hr3, hag, hd2⟩ := lockstep_overflow h hw k hi hclear hd (by omega)
  refine ⟨d1, d2, decAfter_cons hr1 [], h.encInv.tablesAgree (by omega) (by rwa [hL]), hL1,
    by rw [decAfter_cons hr1, decAfter_cons hr2, decAfter_nil], hL2, fun j _ hj => ?_,
    h.encInv.dict.unused _ hL.le, by rw [hd2, if_pos rfl],
    by rw [decAfter_cons hr1, decAfter_cons hr2, decAfter_cons hr3, decAfter_nil]⟩
  rw [hd2, if_neg (by omega), hag j hj]

/-- Settles O46: the lockstep relation holds after every scan, and it fixes the tables there, at a FLUSH's code and at an
OVERFLOW's three. -/
theorem tableAgreement : Obligations.TableAgreement := by
  intro ks
  obtain ⟨e, d, hrun, hlock⟩ := unitsAfter_lockstep ks lockstep_reset
  obtain ⟨hagree, hlag⟩ := hlock.tablesAgree
  exact ⟨e, d, hrun, hagree, hlag, fun c => hlock.flush_agrees, fun w k c e1 => hlock.overflow_agrees⟩

end Sys2Proof.Machine
end

section
/-! ENCODE, COMPRESS, DECODE and DECOMPRESS from a waiting block with unbounded parameters, and the round trip between them
(43_decoder.md R186). -/

namespace Sys2Proof.Machine

/-! ### From the offer to the first phase -/

/-- The block waits, with the spec's default parameters (00_scope.md R9). -/
structure WaitsUnbounded (s : State) : Prop where
  quiescent : Quiescent s
  maxIn : s.config.maxInUnits = none
  maxOut : s.config.maxOutUnits = none

/-- Offered to `s` with the payload `x`, the word `v` is accepted, and `t` is at the start of phase `ph` over it. -/
structure Starts (s : State) (v : Byte) (x : Payload) (ph : Phase) (snk : Sink) (t : State) : Prop where
  step : step (offerOne v x s) = .next t
  running : Running t ph snk x
  src : t.ctl.src = .input
  pos : t.ctl.pos = 0
  mid : t.ctl.mid = []
  out : t.ctl.out = emptyPayload (outKindOf (opField v))
  op : t.ctl.op = opField v
  maxOut : t.config.maxOutUnits = none

/-- A payload of the command's kind is accepted, whatever its length (44_entry_points.md R201). -/
theorem WaitsUnbounded.accept_eq {s : State} (h : WaitsUnbounded s) (op : BitVec 3) {ik : Kind} (ok : Kind)
    (start : State → Eff) {x : Payload} (hk : payloadKind x = ik) :
    accept op ik ok start ((s.setHost []).setOffered x) =
      start (((s.setHost []).setOffered x).setCtl (ctlAccept op ok x s.ctl)) :=
  accept_within h.quiescent hk ((congrArg _ h.maxIn).trans (exceeds_none _))

theorem WaitsUnbounded.starts_encode {s : State} (h : WaitsUnbounded s) (ks : List Byte) :
    ∃ t, Starts s 3#8 (.bytes ks) .encode .out t ∧ t.enc = Enc.reset :=
  ⟨_, ⟨congrArg Eff.toOutcome (h.accept_eq opEncode .codes (startEncode .out) rfl), ⟨rfl, rfl, rfl, rfl, rfl⟩,
    rfl, rfl, rfl, rfl, rfl, h.maxOut⟩, rfl⟩

theorem WaitsUnbounded.starts_compress {s : State} (h : WaitsUnbounded s) (ks : List Byte) :
    ∃ t, Starts s 1#8 (.bytes ks) .encode .mid t ∧ t.enc = Enc.reset :=
  ⟨_, ⟨congrArg Eff.toOutcome (h.accept_eq opCompress .bytes (startEncode .mid) rfl), ⟨rfl, rfl, rfl, rfl, rfl⟩,
    rfl, rfl, rfl, rfl, rfl, h.maxOut⟩, rfl⟩

theorem WaitsUnbounded.starts_decode {s : State} (h : WaitsUnbounded s) (cs : List Code) :
    ∃ t, Starts s 4#8 (.codes cs) .decode .out t ∧ t.dec = Dec.reset :=
  ⟨_, ⟨congrArg Eff.toOutcome (h.accept_eq opDecode .bytes (startDecode .input) rfl), ⟨rfl, rfl, rfl, rfl, rfl⟩,
    rfl, rfl, rfl, rfl, rfl, h.maxOut⟩, rfl⟩

theorem WaitsUnbounded.starts_decompress {s : State} (h : WaitsUnbounded s) {b : List Byte} (hb : b.length % 2 = 0) :
    ∃ t, Starts s 2#8 (.bytes b) .unpack .mid t := by
  have hstart := h.accept_eq opDecompress .bytes (startUnpack .mid) (payloadKind_bytes b)
  rw [startUnpack_even] at hstart
  · exact ⟨_, congrArg Eff.toOutcome hstart, ⟨rfl, rfl, rfl, rfl, rfl⟩, rfl, rfl, rfl, rfl, rfl, h.maxOut⟩
  · show ¬ b.length % 2 = 1
    omega

/-! ### From the first phase to the end -/

theorem Starts.endsAs {s t : State} {v : Byte} {x : Payload} {ph : Phase} {snk : Sink} {r : CmdResult} {n : Nat}
    (h : Starts s v x ph snk t) (he : EndsWithin n t t.ctl.op r) : EndsAs s v x r := by
  obtain ⟨k, u, -, hrun, hres, hop, -⟩ := he
  exact ⟨k, u, (runSteps_succ _ _ _ h.step).trans hrun, hres, hop.trans h.op⟩

/-- A DECODE phase at its start ends the command as the decode of its source does, where the output is unbounded. -/
theorem decode_endsWithin {t : State} {cs : List Code} {r : List Byte × Option FaultRecord}
    (h : Running t .decode .out (.codes cs)) (hpos : t.ctl.pos = 0) (hdec : t.dec = Dec.reset)
    (hout : t.ctl.out = .bytes []) (hmax : t.config.maxOutUnits = none) (hr : decodeAll cs = some r) :
    EndsWithin (cs.length + 1) t t.ctl.op (finish none (.bytes r.1) r.2) := by
  have hend := decode_ends cs t cs [] r h (hdec ▸ decInv_reset) (by omega) (by rw [hpos, List.drop_zero]) hout
    (by rw [hmax, exceeds_none]) (by rw [hdec, hpos]; exact hr)
  rwa [hmax] at hend

theorem WaitsUnbounded.encode {s : State} (h : WaitsUnbounded s) {ks : List Byte} {cs : List Code}
    (he : encodeAll ks = some cs) : EndsAs s 3#8 (.bytes ks) (.done (.codes cs)) := by
  obtain ⟨t, hs, henc⟩ := h.starts_encode ks
  have hend := encode_ends ks t ks [] cs hs.running (by rw [hs.op]; decide) (henc ▸ encInv_reset) (by simp [hs.pos])
    (by rw [hs.pos, List.drop_zero]) hs.out (by rw [hs.maxOut, exceeds_none]) (by rwa [henc])
  rw [hs.maxOut] at hend
  exact hs.endsAs hend

theorem WaitsUnbounded.decode {s : State} (h : WaitsUnbounded s) {cs : List Code} {r : List Byte × Option FaultRecord}
    (hr : decodeAll cs = some r) : EndsAs s 4#8 (.codes cs) (finish none (.bytes r.1) r.2) := by
  obtain ⟨t, hs, hdec⟩ := h.starts_decode cs
  exact hs.endsAs (decode_endsWithin hs.running hs.pos hdec hs.out hs.maxOut hr)

theorem WaitsUnbounded.compress {s : State} (h : WaitsUnbounded s) {ks : List Byte} {cs : List Code}
    (he : encodeAll ks = some cs) : EndsAs s 1#8 (.bytes ks) (.done (.bytes (packPairs cs))) := by
  obtain ⟨t, hs, henc⟩ := h.starts_compress ks
  obtain ⟨u, hrun, hpack, hpos, hout, hop, hconfig⟩ := encode_to_pack ks t ks cs hs.running hs.src hs.op
    (henc ▸ encInv_reset) (by simp [hs.pos]) (by rw [hs.pos, List.drop_zero]) (by rwa [henc])
  rw [hs.mid, List.nil_append] at hpack
  have hmax : u.config.maxOutUnits = none := by rw [hconfig, hs.maxOut]
  have hend := pack_ends cs u cs [] hpack (by omega) (by rw [hpos, List.drop_zero]) (hout.trans hs.out)
    (by rw [hmax, exceeds_none])
  rw [hmax, hop] at hend
  exact hs.endsAs (hend.steps hrun)

theorem WaitsUnbounded.decompress {s : State} (h : WaitsUnbounded s) {b : List Byte} (hb : b.length % 2 = 0)
    {r : List Byte × Option FaultRecord} (hr : decodeAll (unpackPairs b) = some r) :
    EndsAs s 2#8 (.bytes b) (finish none (.bytes r.1) r.2) := by
  obtain ⟨t, hs⟩ := h.starts_decompress hb
  obtain ⟨u, k, -, hrun, hdecode, hpos, hout, hop, hconfig, hdec⟩ := unpack_to_decode b t b hs.running hs.src hs.op hb
    (by simp [hs.pos]) (by rw [hs.pos, List.drop_zero])
  rw [hs.mid, List.nil_append] at hdecode
  have hend := decode_endsWithin hdecode hpos hdec (hout.trans hs.out) (by rw [hconfig, hs.maxOut]) hr
  rw [hop] at hend
  exact hs.endsAs (hend.steps hrun)

/-- Settles O58: each command ends as its function of the payload says, and at the units every input round-trips. -/
theorem roundTrip : Obligations.RoundTrip := by
  intro S s hq hin hout
  have hs : WaitsUnbounded s := ⟨hq, hin, hout⟩
  have hwaits : ∀ t : State, Quiescent t → t.config = s.config → WaitsUnbounded t :=
    fun t ht hc => ⟨ht, by rw [hc, hin], by rw [hc, hout]⟩
  obtain ⟨cs, henc, hdec, -⟩ := roundTrips S
  have heven : (packPairs cs).length % 2 = 0 := by rw [packPairs_length, Nat.mul_mod_right]
  exact ⟨⟨cs, hs.encode henc, fun t ht hc => (hwaits t ht hc).decode hdec⟩,
    ⟨packPairs cs, hs.compress henc, fun t ht hc =>
      (hwaits t ht hc).decompress heven (r := (S, none)) (by rwa [unpackPairs_packPairs])⟩⟩

end Sys2Proof.Machine
end

section
/-! The one outcome of a DECODE, and the concatenation law across a CLEAR (43_decoder.md R184). -/

namespace Sys2Proof.Machine

/-! ### A command has one outcome -/

theorem step_keeps_host_nil {s t : State} (hh : s.host = []) (h : step s = .next t) : t.host = [] := by
  rw [step_of_host_nil hh] at h
  cases hb : s.ctl.state with
  | busy => exact (engine_turn hb h).host.trans hh
  | idle | done | fault =>
    rw [engine, hb] at h
    cases h
    exact hh

theorem runSteps_keeps_host_nil {n : Nat} {s t : State} (hh : s.host = []) (h : runSteps n s = .next t) :
    t.host = [] := by
  induction n generalizing s with
  | zero => cases h; exact hh
  | succ n ih =>
    rw [runSteps_succ_eq] at h
    cases hs : step s with
    | next u => rw [hs] at h; exact ih (step_keeps_host_nil hh hs) h
    | fault r => rw [hs] at h; cases h
    | refused r => rw [hs] at h; cases h

/-- An ended command stays as it is while the host leaves the block alone (60_exceptions.md R249). -/
theorem runSteps_of_ended {s : State} {r : CmdResult} (hh : s.host = []) (hr : resultOf s = some r) (n : Nat) :
    runSteps n s = .next s := by
  have hstep : step s = .next s := by
    rw [step_of_host_nil hh, engine]
    cases hb : s.ctl.state with
    | busy => rw [resultOf, hb] at hr; cases hr
    | idle | done | fault => rfl
  induction n with
  | zero => rfl
  | succ n ih => rw [runSteps_succ _ _ _ hstep, ih]

theorem runSteps_past_end {m n : Nat} {s t : State} {r : CmdResult} (hh : s.host = []) (hmn : m ≤ n)
    (ht : runSteps m s = .next t) (hr : resultOf t = some r) : runSteps n s = .next t := by
  obtain ⟨k, rfl⟩ := Nat.exists_eq_add_of_le hmn
  rw [runSteps_add _ _ _ _ ht, runSteps_of_ended (runSteps_keeps_host_nil hh ht) hr]

/-- Two runs from one state, both to an ended command, end with one result. -/
theorem ended_result_unique {m n : Nat} {s t u : State} {r q : CmdResult} (hh : s.host = [])
    (ht : runSteps m s = .next t) (hr : resultOf t = some r) (hu : runSteps n s = .next u) (hq : resultOf u = some q) :
    r = q := by
  have htu : t = u := by
    rcases Nat.le_total m n with hmn | hmn
    · exact Host.Outcome.next.inj ((runSteps_past_end hh hmn ht hr).symm.trans hu)
    · exact Host.Outcome.next.inj (ht.symm.trans (runSteps_past_end hh hmn hu hq))
  exact Option.some.inj (hr.symm.trans (htu ▸ hq))

theorem Starts.result_unique {s t : State} {v : Byte} {x : Payload} {ph : Phase} {snk : Sink} {r q : CmdResult}
    (h : Starts s v x ph snk t) (hr : EndsAs s v x r) (hq : EndsAs s v x q) : r = q := by
  obtain ⟨m, t1, h1, hres1, -⟩ := hr
  obtain ⟨n, t2, h2, hres2, -⟩ := hq
  rw [runSteps_succ _ _ _ h.step] at h1 h2
  exact ended_result_unique h.running.host h1 hres1 h2 hres2

/-- DECODE ends in exactly one way: as the decode of its payload does. -/
theorem WaitsUnbounded.decode_iff {s : State} (h : WaitsUnbounded s) (cs : List Code) (r : CmdResult) :
    EndsAs s 4#8 (.codes cs) r ↔ ∃ d, decodeAll cs = some d ∧ r = finish none (.bytes d.1) d.2 := by
  constructor
  · intro hr
    obtain ⟨d, hd⟩ := decodeFrom_some cs Dec.reset 0 decInv_reset
    obtain ⟨t, hs, -⟩ := h.starts_decode cs
    exact ⟨d, hd, hs.result_unique hr (h.decode hd)⟩
  · rintro ⟨d, hd, rfl⟩
    exact h.decode hd

theorem WaitsUnbounded.decode_done_iff {s : State} (h : WaitsUnbounded s) (cs : List Code) (x : List Byte) :
    EndsAs s 4#8 (.codes cs) (.done (.bytes x)) ↔ decodeAll cs = some (x, none) := by
  rw [h.decode_iff]
  constructor
  · rintro ⟨⟨y, f⟩, hd, he⟩
    cases f with
    | none => cases he; exact hd
    | some r => cases he
  · exact fun hd => ⟨_, hd, rfl⟩

theorem WaitsUnbounded.decode_fault_iff {s : State} (h : WaitsUnbounded s) (cs : List Code) (r : FaultRecord) :
    EndsAs s 4#8 (.codes cs) (.faulted r) ↔ ∃ y, decodeAll cs = some (y, some r) := by
  rw [h.decode_iff]
  constructor
  · rintro ⟨⟨y, f⟩, hd, he⟩
    cases f with
    | none => cases he
    | some r => cases he; exact ⟨y, hd⟩
  · exact fun ⟨y, hd⟩ => ⟨_, hd, rfl⟩

/-! ### The decode of a concatenation -/

/-- A fault record whose position lies `n` codes further on. -/
def FaultRecord.shift (n : Nat) (r : FaultRecord) : FaultRecord := { r with pos := n + r.pos }

/-- Where a decode starts in its stream matters to the position of its fault alone. -/
theorem decodeFrom_shift (cs : List Code) (d : Dec) (n p : Nat) :
    decodeFrom d (n + p) cs = (decodeFrom d p cs).map fun r => (r.1, r.2.map (FaultRecord.shift n)) := by
  induction cs generalizing d p with
  | nil => rfl
  | cons c cs ih =>
    rw [decodeFrom, decodeFrom]
    cases decDispatch c d with
    | emits out d1 =>
      simp only [Nat.add_assoc, ih, Option.map_map]
      rfl
    | malformed sub => rfl
    | stuck r => rfl

/-- A decode without a fault hands its unit to the codes that follow, whose output comes after its own. -/
theorem decodeFrom_append {cs : List Code} {d : Dec} {p : Nat} {x : List Byte}
    (h : decodeFrom d p cs = some (x, none)) :
    ∃ d1, decAfter d cs = some d1 ∧ ∀ q,
      decodeFrom d p (cs ++ q) = (decodeFrom d1 (p + cs.length) q).map fun r => (x ++ r.1, r.2) := by
  induction cs generalizing d p x with
  | nil =>
    cases h
    exact ⟨d, rfl, fun q => by simp⟩
  | cons c cs ih =>
    rw [decodeFrom] at h
    cases hc : decDispatch c d with
    | emits out d1 =>
      rw [hc] at h
      obtain ⟨⟨y, f⟩, hy, he⟩ := Option.map_eq_some_iff.1 h
      cases he
      obtain ⟨d2, hd2, hq⟩ := ih hy
      refine ⟨d2, (decAfter_cons hc cs).trans hd2, fun q => ?_⟩
      rw [List.cons_append, decodeFrom, hc]
      simp [hq, Nat.add_assoc, Nat.add_comm 1, Function.comp_def]
    | malformed sub => rw [hc] at h; cases h
    | stuck r => rw [hc] at h; cases h

/-- A stream that ends with CLEAR leaves DEC in a fresh generation (43_decoder.md R172). -/
theorem decAfter_clear {cs : List Code} {d d1 : Dec} (h : decAfter d (cs ++ [clearCode]) = some d1) :
    d1 = Dec.reset := by
  induction cs generalizing d with
  | nil =>
    rw [List.nil_append, decAfter_cons (show decDispatch clearCode d = .emits [] Dec.reset from rfl)] at h
    exact (Option.some.inj h).symm
  | cons c cs ih =>
    rw [List.cons_append, decAfter] at h
    cases hc : decDispatch c d with
    | emits out d2 => rw [hc] at h; exact ih h
    | malformed sub => rw [hc] at h; cases h
    | stuck r => rw [hc] at h; cases h

/-- The concatenation law at the unit DEC (43_decoder.md R184). -/
theorem decodeAll_after_clear {p : List Code} {x : List Byte} (h : decodeAll (p ++ [clearCode]) = some (x, none))
    (q : List Code) :
    decodeAll (p ++ [clearCode] ++ q) =
      (decodeAll q).map fun r => (x ++ r.1, r.2.map (FaultRecord.shift (p.length + 1))) := by
  obtain ⟨d1, hd1, hq⟩ := decodeFrom_append h
  obtain rfl := decAfter_clear hd1
  have hlen : 0 + (p ++ [clearCode]).length = p.length + 1 + 0 := by simp
  rw [decodeAll, hq, hlen, decodeFrom_shift, Option.map_map, decodeAll]
  rfl

/-- Settles O59: DECODE ends as the decode of its payload does, and after CLEAR that goes on as from a fresh start. -/
theorem concatenation : Obligations.Concatenation := by
  intro s p q x hquiet hin hout hp
  have hs : WaitsUnbounded s := ⟨hquiet, hin, hout⟩
  have hlaw := decodeAll_after_clear ((hs.decode_done_iff _ _).1 hp) q
  refine ⟨fun y hy => ?_, fun r hr => ?_⟩
  · rw [(hs.decode_done_iff _ _).1 hy] at hlaw
    exact (hs.decode_done_iff _ _).2 hlaw
  · obtain ⟨y, hy⟩ := (hs.decode_fault_iff _ _).1 hr
    rw [hy] at hlaw
    exact (hs.decode_fault_iff _ _).2 ⟨_, hlaw⟩

end Sys2Proof.Machine
end

section
/-! Nothing survives from one command into the next (44_entry_points.md R220): two blocks that differ only in what the phase
under way does not read stay so, step for step. -/

namespace Sys2Proof.Machine

/-! ### The first step of a run -/

theorem runSteps_succ_next {n : Nat} {s u : State} (h : runSteps (n + 1) s = .next u) :
    ∃ t, step s = .next t ∧ runSteps n t = .next u := by
  rw [runSteps_succ_eq] at h
  cases hs : step s with
  | next t => rw [hs] at h; exact ⟨t, rfl, h⟩
  | fault r => rw [hs] at h; cases h
  | refused r => rw [hs] at h; cases h

/-- The first step after an offer is the command's acceptance (R200, R201). -/
theorem step_offerOne (v : Byte) (x : Payload) (s : State) :
    step (offerOne v x s) = exec (decodeCmd v) ((s.setHost []).setOffered x) :=
  step_write0 rfl

/-! ### Two blocks and the parts of their steps -/

/-- Two blocks left alone by their hosts that agree in CTL, the parameters, and the unit of the phase under way. -/
structure Alike (s t : State) : Prop where
  ctl : s.ctl = t.ctl
  config : s.config = t.config
  alone : s.host = [] ∧ t.host = []
  enc : s.ctl.phase = .encode → s.enc = t.enc
  dec : s.ctl.phase = .decode → s.dec = t.dec

/-- Where the first part of a step answers, the second does too, in the same way and with a state related by `P`. -/
def Eff.Follows (P : State → State → Prop) (e e' : Eff) : Prop :=
  match e with
  | .go s => ∃ t, e' = .go t ∧ P s t
  | .raised s => ∃ t, e' = .raised t ∧ P s t
  | .stuck _ => True

theorem Eff.Follows.andThen {P : State → State → Prop} {e e' : Eff} {k k' : State → Eff} (h : e.Follows P e')
    (hk : ∀ s t, P s t → (k s).Follows P (k' t)) : (e.andThen k).Follows P (e'.andThen k') := by
  cases e with
  | go s => obtain ⟨t, rfl, ht⟩ := h; exact hk s t ht
  | raised s => obtain ⟨t, rfl, ht⟩ := h; exact ⟨t, rfl, ht⟩
  | stuck r => trivial

theorem Eff.Follows.mono {P Q : State → State → Prop} {e e' : Eff} (h : e.Follows P e') (hPQ : ∀ s t, P s t → Q s t) :
    e.Follows Q e' := by
  cases e with
  | go s => obtain ⟨t, rfl, ht⟩ := h; exact ⟨t, rfl, hPQ s t ht⟩
  | raised s => obtain ⟨t, rfl, ht⟩ := h; exact ⟨t, rfl, hPQ s t ht⟩
  | stuck r => trivial

/-- Where the first turn gives a next state, the second does too, and the two are related by `P`. -/
def Tracks (P : State → State → Prop) (o o' : Host.Outcome State Fault Refusal) : Prop :=
  ∀ s, o = .next s → ∃ t, o' = .next t ∧ P s t

theorem Eff.Follows.tracks {P : State → State → Prop} {e e' : Eff} (h : e.Follows P e') :
    Tracks P e.toOutcome e'.toOutcome := by
  intro u hu
  cases e with
  | go s => cases hu; obtain ⟨t, rfl, ht⟩ := h; exact ⟨t, rfl, ht⟩
  | raised s => cases hu; obtain ⟨t, rfl, ht⟩ := h; exact ⟨t, rfl, ht⟩
  | stuck r => cases hu

/-! ### What the host sees -/

/-- The two blocks show the host the same registers and the same response. -/
def SameView (s t : State) : Prop := (∀ r, readReg r s = readReg r t) ∧ response s = response t

theorem sameView_of_ctl {s t : State} (h : s.ctl = t.ctl) : SameView s t :=
  ⟨fun r => by simp only [readReg, h], by simp only [response, h]⟩

section
variable {s t : State}

/-! ### Updates and the stream primitives -/

/-- A CTL that enters no unit's phase keeps two blocks alike. -/
theorem Alike.setCtl (h : Alike s t) {c : Ctl} (he : c.phase = .encode → s.ctl.phase = .encode)
    (hd : c.phase = .decode → s.ctl.phase = .decode) : Alike (s.setCtl c) (t.setCtl c) :=
  ⟨rfl, h.config, h.alone, fun hc => h.enc (he hc), fun hc => h.dec (hd hc)⟩

theorem Alike.setEnc (h : Alike s t) (e : Enc) : Alike (s.setEnc e) (t.setEnc e) :=
  ⟨h.ctl, h.config, h.alone, fun _ => rfl, h.dec⟩

theorem Alike.setDec (h : Alike s t) (d : Dec) : Alike (s.setDec d) (t.setDec d) :=
  ⟨h.ctl, h.config, h.alone, h.enc, fun _ => rfl⟩

theorem Alike.advanced (h : Alike s t) : Alike (advance s) (advance t) := by
  have hadv := h.setCtl (c := ctlSetPos (s.ctl.pos + 1) s.ctl) id id
  unfold advance
  rwa [← h.ctl]

theorem Alike.inByte_both (h : Alike s t) :
    inByte s = none ∨ ∃ b, inByte s = some (b, advance s) ∧ inByte t = some (b, advance t) := by
  unfold inByte
  rw [← h.ctl]
  cases byteAt s.ctl.pos (sourcePayload s.ctl) with
  | none => exact Or.inl rfl
  | some b => exact Or.inr ⟨b, rfl, rfl⟩

theorem Alike.inCode_both (h : Alike s t) :
    inCode s = none ∨ ∃ c, inCode s = some (c, advance s) ∧ inCode t = some (c, advance t) := by
  unfold inCode
  rw [← h.ctl]
  cases codeAt s.ctl.pos (sourcePayload s.ctl) with
  | none => exact Or.inl rfl
  | some c => exact Or.inr ⟨c, rfl, rfl⟩

theorem Alike.raise_follows (h : Alike s t) (cause : Cause) (sub : BitVec 4) (pos : Nat) (code : Code) (len : Nat) :
    (raise cause sub pos code len s).Follows Alike (raise cause sub pos code len t) := by
  refine ⟨_, rfl, ?_⟩
  rw [← h.ctl]
  exact h.setCtl nofun nofun

theorem Alike.outByte_follows (h : Alike s t) (b : Byte) : (outByte b s).Follows Alike (outByte b t) := by
  unfold outByte
  rw [← h.ctl, ← h.config]
  split
  · trivial
  · split
    · trivial
    · split
      · exact h.raise_follows _ _ _ _ _
      · exact ⟨_, rfl, h.setCtl id id⟩

theorem Alike.outCode_follows (h : Alike s t) (c : Code) : (outCode c s).Follows Alike (outCode c t) := by
  unfold outCode
  rw [← h.ctl, ← h.config]
  split
  · exact ⟨_, rfl, h.setCtl id id⟩
  · split
    · trivial
    · split
      · exact h.raise_follows _ _ _ _ _
      · exact ⟨_, rfl, h.setCtl id id⟩

theorem Alike.outBytes_follows (h : Alike s t) (bs : List Byte) : (outBytes bs s).Follows Alike (outBytes bs t) := by
  induction bs generalizing s t with
  | nil => exact ⟨t, rfl, h⟩
  | cons b bs ih => exact (h.outByte_follows b).andThen fun _ _ hu => ih hu

theorem Alike.outCodes_follows (h : Alike s t) (cs : List Code) : (outCodes cs s).Follows Alike (outCodes cs t) := by
  induction cs generalizing s t with
  | nil => exact ⟨t, rfl, h⟩
  | cons c cs ih => exact (h.outCode_follows c).andThen fun _ _ hu => ih hu

/-! ### The phases' steps -/

theorem Alike.encStep_follows (h : Alike s t) (hp : s.ctl.phase = .encode) : (encStep s).Follows Alike (encStep t) := by
  unfold encStep
  rcases h.inByte_both with hs | ⟨k, hs, ht⟩
  · rw [hs]; trivial
  · simp only [hs, ht, advance_enc, ← h.enc hp]
    cases encUnit k s.enc with
    | none => trivial
    | some r => exact (h.advanced.outCodes_follows r.1).andThen fun u v hu => ⟨_, rfl, hu.setEnc r.2⟩

theorem Alike.encFlush_follows (h : Alike s t) (hp : s.ctl.phase = .encode) : (encFlush s).Follows Alike (encFlush t) := by
  unfold encFlush
  rw [← h.enc hp]
  cases flushCodes s.enc with
  | none => trivial
  | some cs => exact h.outCodes_follows cs

theorem Alike.packStep_follows (h : Alike s t) : (packStep s).Follows Alike (packStep t) := by
  unfold packStep
  rcases h.inCode_both with hs | ⟨c, hs, ht⟩
  · rw [hs]; trivial
  · rw [hs, ht]
    exact (h.advanced.outByte_follows _).andThen fun _ _ hu => hu.outByte_follows _

theorem Alike.unpackStep_follows (h : Alike s t) : (unpackStep s).Follows Alike (unpackStep t) := by
  unfold unpackStep
  rcases h.inByte_both with hs | ⟨hi, hs, ht⟩
  · rw [hs]; trivial
  · simp only [hs, ht]
    rcases h.advanced.inByte_both with hs2 | ⟨lo, hs2, ht2⟩
    · rw [hs2]; trivial
    · rw [hs2, ht2]
      exact h.advanced.advanced.outCode_follows _

theorem Alike.decStep_follows (h : Alike s t) (hp : s.ctl.phase = .decode) : (decStep s).Follows Alike (decStep t) := by
  unfold decStep
  rcases h.inCode_both with hs | ⟨c, hs, ht⟩
  · rw [hs]; trivial
  · simp only [hs, ht, advance_dec, ← h.dec hp]
    cases decDispatch c s.dec with
    | emits out d => exact (h.advanced.outBytes_follows out).andThen fun u v hu => ⟨_, rfl, hu.setDec d⟩
    | malformed sub =>
      simp only [decApply, advance_dec, ← h.dec hp, ← h.advanced.ctl]
      exact h.advanced.raise_follows _ _ _ _ _
    | stuck r => trivial

/-- What follows a phase reads no unit: PACK reads none, and DECODE builds its own (R204, R208, R209, R215). -/
theorem Alike.phaseEnd_follows (h : Alike s t) : (phaseEnd s).Follows Alike (phaseEnd t) := by
  have henter : ∀ ph src snk, (rewind (enterPhase ph src snk s)).ctl = (rewind (enterPhase ph src snk t)).ctl :=
    fun ph src snk => by simp only [rewind, enterPhase, State.setCtl_ctl, h.ctl]
  unfold phaseEnd
  rw [← h.ctl]
  split
  · exact ⟨_, rfl, henter _ _ _, h.config, h.alone, nofun, nofun⟩
  · split
    · exact ⟨_, rfl, henter _ _ _, h.config, h.alone, nofun, fun _ => rfl⟩
    · refine ⟨_, rfl, ?_⟩
      unfold complete
      rw [← h.ctl]
      exact h.setCtl nofun nofun

/-! ### The engine's turns -/

theorem Alike.phaseTurn_tracks (h : Alike s t) {fin fin' stp stp' : Eff} (hfin : fin.Follows Alike fin')
    (hstp : stp.Follows Alike stp') :
    Tracks Alike (if atEnd s.ctl then fin.toOutcome else stp.toOutcome)
      (if atEnd t.ctl then fin'.toOutcome else stp'.toOutcome) := by
  rw [← h.ctl]
  split
  · exact hfin.tracks
  · exact hstp.tracks

theorem Alike.engine_tracks (h : Alike s t) : Tracks Alike (engine s) (engine t) := by
  unfold engine
  rw [← h.ctl]
  cases s.ctl.state with
  | busy =>
    cases hp : s.ctl.phase with
    | none => intro u hu; cases hu
    | encode =>
      exact h.phaseTurn_tracks ((h.encFlush_follows hp).andThen fun _ _ hu => hu.phaseEnd_follows) (h.encStep_follows hp)
    | pack => exact h.phaseTurn_tracks h.phaseEnd_follows h.packStep_follows
    | unpack => exact h.phaseTurn_tracks h.phaseEnd_follows h.unpackStep_follows
    | decode =>
      simp only [runDecode_eq]
      exact h.phaseTurn_tracks h.phaseEnd_follows (h.decStep_follows hp)
  | idle | done | fault => intro u hu; cases hu; exact ⟨t, rfl, h⟩

theorem Alike.runSteps_tracks (h : Alike s t) (n : Nat) : Tracks Alike (runSteps n s) (runSteps n t) := by
  induction n generalizing s t with
  | zero => intro u hu; cases hu; exact ⟨t, rfl, h⟩
  | succ n ih =>
    intro u hu
    obtain ⟨s1, hs, hrun⟩ := runSteps_succ_next hu
    obtain ⟨t1, ht, h1⟩ := h.engine_tracks s1 ((step_of_host_nil h.alone.1).symm.trans hs)
    rw [runSteps_succ n t t1 ((step_of_host_nil h.alone.2).trans ht)]
    exact ih h1 u hrun

/-! ### The acceptance -/

/-- Both blocks have ended their command, and show the host the same. -/
structure EndedAlike (s t : State) : Prop where
  alone : s.host = [] ∧ t.host = []
  ended : ∃ r q, resultOf s = some r ∧ resultOf t = some q
  view : SameView s t

/-- What an acceptance leaves of the past: an executing command shares all it will read, a refused one all it shows. -/
def AcceptedAlike (s t : State) : Prop := Alike s t ∨ EndedAlike s t

/-- Two waiting blocks with the same parameters, offered the same payload. -/
structure OfferedAlike (s t : State) : Prop where
  quiet : Quiescent s ∧ Quiescent t
  config : s.config = t.config
  alone : s.host = [] ∧ t.host = []
  offered : s.offered = t.offered

/-- A command refused at acceptance shows nothing that stood before it: Accept and the fault write every visible field
(R201, 60_exceptions.md R238). -/
theorem OfferedAlike.refused_follows (h : OfferedAlike s t) (op : BitVec 3) (ok : Kind) (x : Payload) (cause : Cause)
    (sub : BitVec 4) (pos : Nat) (code : Code) (len : Nat) :
    (raise cause sub pos code len (s.setCtl (ctlAccept op ok x s.ctl))).Follows AcceptedAlike
      (raise cause sub pos code len (t.setCtl (ctlAccept op ok x t.ctl))) :=
  ⟨_, rfl, Or.inr ⟨h.alone, ⟨_, _, rfl, rfl⟩, fun _ => rfl, rfl⟩⟩

theorem OfferedAlike.acceptReserved_follows (h : OfferedAlike s t) (op : BitVec 3) :
    (acceptReserved op s).Follows AcceptedAlike (acceptReserved op t) := by
  unfold acceptReserved
  rw [if_neg h.quiet.1, if_neg h.quiet.2, ← h.offered]
  exact h.refused_follows _ _ _ _ _ _ _ _

/-- An acceptance leaves two blocks alike where the start of the first phase does. -/
theorem OfferedAlike.accept_follows (h : OfferedAlike s t) (op : BitVec 3) (ik ok : Kind) {start : State → Eff}
    (hstart : ∀ x, (start (s.setCtl (ctlAccept op ok x s.ctl))).Follows Alike
      (start (t.setCtl (ctlAccept op ok x t.ctl)))) :
    (accept op ik ok start s).Follows AcceptedAlike (accept op ik ok start t) := by
  unfold accept
  rw [if_neg h.quiet.1, if_neg h.quiet.2, ← h.offered, ← h.config]
  split
  · trivial
  · dsimp only
    split
    · exact h.refused_follows _ _ _ _ _ _ _ _
    · exact (hstart _).mono fun _ _ => Or.inl

/-- Accept and the start of a phase that reads CTL.IN write all of CTL (R201, R204). -/
theorem OfferedAlike.enter_alike (h : OfferedAlike s t) {op : BitVec 3} {ok : Kind} {x : Payload} {ph : Phase} {snk : Sink}
    (he : ph ≠ .encode) (hd : ph ≠ .decode) :
    Alike (rewind (enterPhase ph .input snk (s.setCtl (ctlAccept op ok x s.ctl))))
      (rewind (enterPhase ph .input snk (t.setCtl (ctlAccept op ok x t.ctl)))) :=
  ⟨rfl, h.config, h.alone, fun hc => absurd hc he, fun hc => absurd hc hd⟩

theorem OfferedAlike.startEncode_follows (h : OfferedAlike s t) {op : BitVec 3} {ok : Kind} (snk : Sink) (x : Payload) :
    (startEncode snk (s.setCtl (ctlAccept op ok x s.ctl))).Follows Alike
      (startEncode snk (t.setCtl (ctlAccept op ok x t.ctl))) :=
  ⟨_, rfl, rfl, h.config, h.alone, fun _ => rfl, nofun⟩

theorem OfferedAlike.startDecode_follows (h : OfferedAlike s t) {op : BitVec 3} {ok : Kind} (x : Payload) :
    (startDecode .input (s.setCtl (ctlAccept op ok x s.ctl))).Follows Alike
      (startDecode .input (t.setCtl (ctlAccept op ok x t.ctl))) :=
  ⟨_, rfl, rfl, h.config, h.alone, nofun, fun _ => rfl⟩

theorem OfferedAlike.startPack_follows (h : OfferedAlike s t) {op : BitVec 3} {ok : Kind} (x : Payload) :
    (startPack .input (s.setCtl (ctlAccept op ok x s.ctl))).Follows Alike
      (startPack .input (t.setCtl (ctlAccept op ok x t.ctl))) :=
  ⟨_, rfl, h.enter_alike (by decide) (by decide)⟩

theorem OfferedAlike.startUnpack_follows (h : OfferedAlike s t) {op : BitVec 3} {ok : Kind} (snk : Sink) (x : Payload) :
    (startUnpack snk (s.setCtl (ctlAccept op ok x s.ctl))).Follows Alike
      (startUnpack snk (t.setCtl (ctlAccept op ok x t.ctl))) := by
  have henter := h.enter_alike (op := op) (ok := ok) (x := x) (ph := .unpack) (snk := snk) (by decide) (by decide)
  by_cases hodd : payloadLength x % 2 = 1
  · rw [startUnpack_odd snk (s.setCtl (ctlAccept op ok x s.ctl)) hodd,
      startUnpack_odd snk (t.setCtl (ctlAccept op ok x t.ctl)) hodd]
    exact henter.raise_follows _ _ _ _ _
  · rw [startUnpack_even snk (s.setCtl (ctlAccept op ok x s.ctl)) hodd,
      startUnpack_even snk (t.setCtl (ctlAccept op ok x t.ctl)) hodd]
    exact ⟨_, rfl, henter⟩

/-- A command word leaves of the past what an acceptance does, whichever word it is. -/
theorem OfferedAlike.exec_tracks (h : OfferedAlike s t) (v : Byte) :
    Tracks AcceptedAlike (exec (decodeCmd v) s) (exec (decodeCmd v) t) := by
  by_cases hr : isReserved v
  · rw [exec_reserved hr, exec_reserved hr]
    exact (h.acceptReserved_follows _).tracks
  · rcases decodeCmd_defined hr with ⟨-, hi⟩ | ⟨-, hi⟩ | ⟨-, hi⟩ | ⟨-, hi⟩ | ⟨-, hi⟩ | ⟨-, hi⟩ <;> rw [hi]
    · exact (h.accept_follows _ _ _ (h.startEncode_follows .mid)).tracks
    · exact (h.accept_follows _ _ _ (h.startUnpack_follows .mid)).tracks
    · exact (h.accept_follows _ _ _ (h.startEncode_follows .out)).tracks
    · exact (h.accept_follows _ _ _ h.startDecode_follows).tracks
    · exact (h.accept_follows _ _ _ h.startPack_follows).tracks
    · exact (h.accept_follows _ _ _ (h.startUnpack_follows .out)).tracks

/-- From the acceptance on, the host sees the same of both blocks. -/
theorem AcceptedAlike.runSteps_tracks (h : AcceptedAlike s t) (n : Nat) : Tracks SameView (runSteps n s) (runSteps n t) := by
  intro u hu
  rcases h with h | h
  · obtain ⟨w, hw, hview⟩ := h.runSteps_tracks n u hu
    exact ⟨w, hw, sameView_of_ctl hview.ctl⟩
  · obtain ⟨r, q, hr, hq⟩ := h.ended
    cases (runSteps_of_ended h.alone.1 hr n).symm.trans hu
    exact ⟨t, runSteps_of_ended h.alone.2 hq n, h.view⟩

end

/-- Settles O57: the acceptance writes all that the host sees or the command will read, and every later step keeps the two
blocks alike. -/
theorem nothingSurvives : Obligations.NothingSurvives := by
  intro s1 s2 v x hq1 hq2 hconfig n t1 hrun
  have hoffer : OfferedAlike ((s1.setHost []).setOffered x) ((s2.setHost []).setOffered x) :=
    ⟨⟨hq1, hq2⟩, hconfig, ⟨rfl, rfl⟩, rfl⟩
  obtain ⟨u1, hstep, hrun⟩ := runSteps_succ_next hrun
  obtain ⟨u2, hu2, halike⟩ := hoffer.exec_tracks v u1 ((step_offerOne v x s1).symm.trans hstep)
  rw [runSteps_succ n _ u2 ((step_offerOne v x s2).trans hu2)]
  exact halike.runSteps_tracks n t1 hrun

end Sys2Proof.Machine
end

section
/-! A command offered to a BUSY block, and the bound on a write to CTL.OUT (44_entry_points.md R202, R207). -/

namespace Sys2Proof.Machine

/-! ### An offer while BUSY -/

theorem accept_busy {s : State} (hb : s.ctl.state = .busy) (op : BitVec 3) (ik ok : Kind) (start : State → Eff) :
    accept op ik ok start s = .stuck .commandWhileBusy := by
  rw [accept, if_pos hb]

theorem acceptReserved_busy {s : State} (hb : s.ctl.state = .busy) (op : BitVec 3) :
    acceptReserved op s = .stuck .commandWhileBusy := by
  rw [acceptReserved, if_pos hb]

/-- Settles O20: both forms of acceptance test for BUSY first, and every command instruction is one of the two. -/
theorem commandWhileBusyStops : Obligations.CommandWhileBusyStops := by
  intro i s hf hb
  cases i with
  | compress | decompress | encode | decode | pack | unpack =>
    exact congrArg Eff.toOutcome (accept_busy hb _ _ _ _)
  | reservedOp0 | reservedOp7 | reservedBit3 | reservedBit4 | reservedBit5 | reservedBit6 | reservedBit7 =>
    exact congrArg Eff.toOutcome (acceptReserved_busy hb _)
  | lit | clear | ref => cases hf

/-! ### A write to the sink -/

theorem outCode_over {s : State} {l : List Code} (c : Code) (hs : s.ctl.snk = .out) (ho : s.ctl.out = .codes l)
    (hx : exceeds (l.length + 1) s.config.maxOutUnits = true) :
    outCode c s = raise .limitExceeded 2#4 l.length 0#16 0 s := by
  simp only [outCode, hs, ho, hx, if_true]

theorem outByte_over {s : State} {l : List Byte} (b : Byte) (hs : s.ctl.snk = .out) (ho : s.ctl.out = .bytes l)
    (hx : exceeds (l.length + 1) s.config.maxOutUnits = true) :
    outByte b s = raise .limitExceeded 2#4 l.length 0#16 0 s := by
  simp only [outByte, hs, ho, hx, if_true]

/-- Settles O33: a write of one unit is the list write of that unit where it fits, and the list writes say what a longer
one does. -/
theorem outWriteBound : Obligations.OutWriteBound := by
  refine ⟨fun c s hs => ?_, fun c s l hs ho hx => ?_, fun c s l => outCode_over c, fun b s l hs ho hx => ?_,
    fun b s l => outByte_over b, fun bs s l m => outBytes_over bs l s m, fun cs s l m => outCodes_over cs l s m,
    fun n s hm => by rw [hm, exceeds_none]⟩
  · rw [outCode_eq, outCodes_mid [c] s hs]
    rfl
  · rw [outCode_eq, outCodes_fits [c] l s hs ho hx]
    rfl
  · rw [outByte_eq, outBytes_fits [b] l s hs ho hx]
    rfl

end Sys2Proof.Machine
end

section
/-! Every command runs to the outcome that Run gives, within a bound on its steps (44_entry_points.md R216, R219). -/

namespace Sys2Proof.Machine

/-! ### The functional summary, word by word (R219) -/

/-- The words that are not reserved are the six commands' (30_encoding.md R79). -/
theorem defined_words : ∀ v : Byte, ¬ isReserved v → v = 1#8 ∨ v = 2#8 ∨ v = 3#8 ∨ v = 4#8 ∨ v = 5#8 ∨ v = 6#8 := by
  unfold isReserved
  decide

theorem runSpec_reserved {v : Byte} (h : isReserved v) (p : Params) (x : Payload) :
    runSpec p v x = some (.faulted ⟨.badCommand, 0#4, 0, 0#16, 0⟩) :=
  if_pos h

/-- An input over the bound ends the command before its first phase (60_exceptions.md R236). -/
theorem runSpec_over {p : Params} {v : Byte} {x : Payload} (h : ¬ isReserved v) (hk : payloadKind x = inputKind v)
    (hx : exceeds (payloadLength x) p.maxInUnits = true) :
    runSpec p v x = some (.faulted ⟨.limitExceeded, 1#4, payloadLength x, 0#16, 0⟩) :=
  (if_neg h).trans ((if_neg (not_not.2 hk)).trans (if_pos hx))

section
variable {p : Params} {b : List Byte} {c : List Code}

theorem runSpec_compress (hx : exceeds b.length p.maxInUnits = false) :
    runSpec p 1#8 (.bytes b) = (encodeAll b).map fun cs => finish p.maxOutUnits (.bytes (packPairs cs)) none := by
  simp [runSpec, hx, packBits_eq, reservedField, opField, inputKind, opCompress, opDecode, opPack]

theorem runSpec_encode (hx : exceeds b.length p.maxInUnits = false) :
    runSpec p 3#8 (.bytes b) = (encodeAll b).map fun cs => finish p.maxOutUnits (.codes cs) none := by
  simp [runSpec, hx, reservedField, opField, inputKind, opCompress, opEncode, opDecode, opPack]

theorem runSpec_decompress (hx : exceeds b.length p.maxInUnits = false) (hb : b.length % 2 = 0) :
    runSpec p 2#8 (.bytes b) = (decodeAll (unpackPairs b)).map fun r => finish p.maxOutUnits (.bytes r.1) r.2 := by
  simp [runSpec, hx, hb, unpackBits_eq, reservedField, opField, inputKind, opCompress, opEncode, opUnpack, opDecode, opPack]

theorem runSpec_unpack (hx : exceeds b.length p.maxInUnits = false) (hb : b.length % 2 = 0) :
    runSpec p 6#8 (.bytes b) = some (finish p.maxOutUnits (.codes (unpackPairs b)) none) := by
  simp [runSpec, hx, hb, unpackBits_eq, reservedField, opField, inputKind, opCompress, opEncode, opUnpack, opDecode, opPack]

/-- UNPACK and DECOMPRESS refuse a buffer of odd length (42_bit_packer.md R155). -/
theorem runSpec_odd {v : Byte} (hv : v = 2#8 ∨ v = 6#8) (hx : exceeds b.length p.maxInUnits = false)
    (hb : b.length % 2 = 1) : runSpec p v (.bytes b) = some (.faulted (misaligned b.length)) := by
  rcases hv with rfl | rfl <;>
    simp [runSpec, hx, hb, reservedField, opField, inputKind, opCompress, opEncode, opDecode, opPack]

theorem runSpec_decode (hx : exceeds c.length p.maxInUnits = false) :
    runSpec p 4#8 (.codes c) = (decodeAll c).map fun r => finish p.maxOutUnits (.bytes r.1) r.2 := by
  simp [runSpec, hx, reservedField, opField, inputKind, opDecode, opPack]

theorem runSpec_pack (hx : exceeds c.length p.maxInUnits = false) :
    runSpec p 5#8 (.codes c) = some (finish p.maxOutUnits (.bytes (packPairs c)) none) := by
  simp [runSpec, hx, packBits_eq, reservedField, opField, inputKind, opDecode, opPack]

end

/-! ### One command's outcome -/

/-- Offered to `s`, the command ends as Run says, within the bound on its steps (R216, R219). -/
def HasOutcome (s : State) (v : Byte) (x : Payload) : Prop :=
  ∃ r k t, runSpec s.config v x = some r ∧ 1 ≤ k ∧ k ≤ stepBound v x + 1 ∧
    runSteps k (offerOne v x s) = .next t ∧ resultOf t = some r ∧ t.ctl.op = opField v

/-- The acceptance is one step, and the rest of the command keeps within its bound. -/
theorem hasOutcome_of_accepted {s t : State} {v : Byte} {x : Payload} {r : CmdResult}
    (hspec : runSpec s.config v x = some r) (hstep : step (offerOne v x s) = .next t)
    (hend : EndsWithin (stepBound v x) t (opField v) r) : HasOutcome s v x := by
  obtain ⟨k, u, hk, hrun, hres, hop, -⟩ := hend
  exact ⟨r, k + 1, u, hspec, by omega, by omega, (runSteps_succ _ _ _ hstep).trans hrun, hres, hop⟩

/-- A fault at the acceptance is the whole command. -/
theorem hasOutcome_of_raised {s u : State} {v : Byte} {x : Payload} {cause : Cause} {sub : BitVec 4} {pos : Nat}
    (hspec : runSpec s.config v x = some (.faulted ⟨cause, sub, pos, 0#16, 0⟩))
    (hstep : step (offerOne v x s) = (raise cause sub pos 0#16 0 u).toOutcome) (hop : u.ctl.op = opField v) :
    HasOutcome s v x :=
  hasOutcome_of_accepted hspec hstep ⟨0, _, Nat.zero_le _, rfl, rfl, hop, rfl⟩

/-! ### The acceptance (R201) -/

/-- The block once it has accepted the word `v` with the payload `x`, before the first phase starts. -/
def accepted (v : Byte) (x : Payload) (s : State) : State :=
  ((s.setHost []).setOffered x).setCtl (ctlAccept (opField v) (outKindOf (opField v)) x s.ctl)

/-- The word `v` is the command whose first phase is started by `start`. -/
def Commands (v : Byte) (start : State → Eff) : Prop :=
  ∀ s, exec (decodeCmd v) s = (accept (opField v) (inputKind v) (outKindOf (opField v)) start s).toOutcome

theorem commands_compress : Commands 1#8 (startEncode .mid) := fun _ => rfl
theorem commands_decompress : Commands 2#8 (startUnpack .mid) := fun _ => rfl
theorem commands_encode : Commands 3#8 (startEncode .out) := fun _ => rfl
theorem commands_decode : Commands 4#8 (startDecode .input) := fun _ => rfl
theorem commands_pack : Commands 5#8 (startPack .input) := fun _ => rfl
theorem commands_unpack : Commands 6#8 (startUnpack .out) := fun _ => rfl

section
variable {s : State} {v : Byte} {x : Payload} {start : State → Eff}

theorem Quiescent.hasOutcome_reserved (hq : Quiescent s) (h : isReserved v) : HasOutcome s v x := by
  refine hasOutcome_of_raised (u := ((s.setHost []).setOffered x).setCtl (ctlAccept (opField v) .bytes x s.ctl))
    (runSpec_reserved h _ x) ?_ rfl
  rw [step_offerOne, exec_reserved h, acceptReserved]
  exact congrArg Eff.toOutcome (if_neg hq)

theorem Quiescent.hasOutcome_over (hq : Quiescent s) (hc : Commands v start) (h : ¬ isReserved v)
    (hk : payloadKind x = inputKind v) (hx : exceeds (payloadLength x) s.config.maxInUnits = true) :
    HasOutcome s v x := by
  refine hasOutcome_of_raised (u := accepted v x s) (runSpec_over h hk hx) ?_ rfl
  rw [step_offerOne, hc, accept_over (s := (s.setHost []).setOffered x) hq hk hx]
  rfl

/-- The block waits, and the payload is of the command's kind and within the bound. -/
structure Admits (s : State) (v : Byte) (x : Payload) : Prop where
  quiescent : Quiescent s
  kind : payloadKind x = inputKind v
  within : exceeds (payloadLength x) s.config.maxInUnits = false

theorem Admits.step_eq (h : Admits s v x) (hc : Commands v start) :
    step (offerOne v x s) = (start (accepted v x s)).toOutcome := by
  rw [step_offerOne, hc, accept_within (s := (s.setHost []).setOffered x) h.quiescent h.kind h.within]
  rfl

/-- The block at the start of phase `ph` over CTL.IN, with these units. -/
def started (v : Byte) (x : Payload) (ph : Phase) (snk : Sink) (e : Enc) (d : Dec) (s : State) : State :=
  ((rewind (enterPhase ph .input snk (accepted v x s))).setEnc e).setDec d

theorem started_running (v : Byte) (x : Payload) (ph : Phase) (snk : Sink) (e : Enc) (d : Dec) (s : State) :
    Running (started v x ph snk e d s) ph snk x :=
  ⟨rfl, rfl, rfl, rfl, rfl⟩

/-! ### A last phase, from its start -/

theorem exceeds_zero (limit : Option Nat) : exceeds 0 limit = false := by
  cases limit <;> rfl

theorem decode_ends_of_start {t : State} {cs : List Code} {r : List Byte × Option FaultRecord}
    (h : Running t .decode .out (.codes cs)) (hpos : t.ctl.pos = 0) (hdec : t.dec = Dec.reset)
    (hout : t.ctl.out = .bytes []) (hr : decodeAll cs = some r) :
    EndsWithin (cs.length + 1) t t.ctl.op (finish t.config.maxOutUnits (.bytes r.1) r.2) :=
  decode_ends cs t cs [] r h (hdec ▸ decInv_reset) (by omega) (by rw [hpos, List.drop_zero]) hout (exceeds_zero _)
    (by rw [hdec, hpos]; exact hr)

theorem pack_ends_of_start {t : State} {cs : List Code} (h : Running t .pack .out (.codes cs)) (hpos : t.ctl.pos = 0)
    (hout : t.ctl.out = .bytes []) :
    EndsWithin (cs.length + 1) t t.ctl.op (finish t.config.maxOutUnits (.bytes (packPairs cs)) none) :=
  pack_ends cs t cs [] h (by omega) (by rw [hpos, List.drop_zero]) hout (exceeds_zero _)

end

/-! ### The six commands (R208 to R213) -/

section
variable {s : State} {b : List Byte} {c : List Code}

theorem Admits.encode (h : Admits s 3#8 (.bytes b)) : HasOutcome s 3#8 (.bytes b) := by
  obtain ⟨cs, hcs⟩ := encodeFrom_some b Enc.reset encInv_reset
  have hend := encode_ends b (started 3#8 (.bytes b) .encode .out Enc.reset s.dec s) b [] cs (started_running ..)
    (show opEncode ≠ opCompress by decide) encInv_reset (Nat.zero_le _) rfl rfl (exceeds_zero _) hcs
  refine hasOutcome_of_accepted ?_ (h.step_eq commands_encode) (hend.mono (Nat.le_succ _))
  rw [runSpec_encode h.within, encodeAll, hcs]
  rfl

theorem Admits.pack (h : Admits s 5#8 (.codes c)) : HasOutcome s 5#8 (.codes c) := by
  have hend := pack_ends_of_start (started_running 5#8 (.codes c) .pack .out s.enc s.dec s) rfl rfl
  exact hasOutcome_of_accepted (runSpec_pack h.within) (h.step_eq commands_pack) (hend.mono (Nat.le_succ _))

theorem Admits.decode (h : Admits s 4#8 (.codes c)) : HasOutcome s 4#8 (.codes c) := by
  obtain ⟨r, hr⟩ := decodeFrom_some c Dec.reset 0 decInv_reset
  have hend := decode_ends_of_start (started_running 4#8 (.codes c) .decode .out s.enc Dec.reset s) rfl rfl rfl hr
  refine hasOutcome_of_accepted ?_ (h.step_eq commands_decode) (hend.mono (Nat.le_succ _))
  rw [runSpec_decode h.within, decodeAll, hr]
  rfl

/-- COMPRESS spends its bound on the bytes, the codes between its phases and two end actions. -/
theorem Admits.compress (h : Admits s 1#8 (.bytes b)) : HasOutcome s 1#8 (.bytes b) := by
  obtain ⟨cs, hcs⟩ := encodeFrom_some b Enc.reset encInv_reset
  obtain ⟨u, hrun, hpack, hpos, hout, hop, hconfig⟩ := encode_to_pack b
    (started 1#8 (.bytes b) .encode .mid Enc.reset s.dec s) b cs (started_running ..) rfl rfl encInv_reset
    (Nat.zero_le _) rfl hcs
  have hend := (pack_ends_of_start hpack hpos hout).steps hrun
  rw [hop, hconfig] at hend
  have hbound : stepBound 1#8 (.bytes b) = b.length + cs.length + 2 := by
    show b.length + ((encodeAll b).getD []).length + 2 = _
    rw [encodeAll, hcs, Option.getD_some]
  refine hasOutcome_of_accepted ?_ (h.step_eq commands_compress) (hend.mono ?_)
  · rw [runSpec_compress h.within, encodeAll, hcs]
    rfl
  · rw [hbound]
    show b.length + 1 + (cs.length + 1) ≤ _
    omega

/-- The first step of UNPACK and DECOMPRESS over a buffer of even length starts UNPACK. -/
theorem Admits.step_unpack {v : Byte} {snk : Sink} (h : Admits s v (.bytes b)) (hc : Commands v (startUnpack snk))
    (hb : b.length % 2 = 0) :
    step (offerOne v (.bytes b) s) = .next (started v (.bytes b) .unpack snk s.enc s.dec s) := by
  rw [h.step_eq hc, startUnpack_even snk (accepted v (.bytes b) s) (show ¬ b.length % 2 = 1 by omega)]
  rfl

theorem Admits.unpack_odd {v : Byte} {snk : Sink} (h : Admits s v (.bytes b)) (hc : Commands v (startUnpack snk))
    (hv : v = 2#8 ∨ v = 6#8) (hb : b.length % 2 = 1) : HasOutcome s v (.bytes b) :=
  hasOutcome_of_raised (runSpec_odd hv h.within hb)
    ((h.step_eq hc).trans (congrArg Eff.toOutcome (startUnpack_odd snk (accepted v (.bytes b) s) hb))) rfl

theorem Admits.unpack (h : Admits s 6#8 (.bytes b)) : HasOutcome s 6#8 (.bytes b) := by
  rcases Nat.mod_two_eq_zero_or_one b.length with hb | hb
  · have hend := unpack_ends b (started 6#8 (.bytes b) .unpack .out s.enc s.dec s) b [] (started_running ..)
      (show opUnpack ≠ opDecompress by decide) hb (Nat.zero_le _) rfl rfl (exceeds_zero _)
    exact hasOutcome_of_accepted (runSpec_unpack h.within hb) (h.step_unpack commands_unpack hb)
      (hend.mono (Nat.le_succ _))
  · exact h.unpack_odd commands_unpack (Or.inr rfl) hb

theorem Admits.decompress (h : Admits s 2#8 (.bytes b)) : HasOutcome s 2#8 (.bytes b) := by
  rcases Nat.mod_two_eq_zero_or_one b.length with hb | hb
  · obtain ⟨r, hr⟩ := decodeFrom_some (unpackPairs b) Dec.reset 0 decInv_reset
    obtain ⟨u, k, hk, hrun, hdecode, hpos, hout, hop, hconfig, hdec⟩ := unpack_to_decode b
      (started 2#8 (.bytes b) .unpack .mid s.enc s.dec s) b (started_running ..) rfl rfl hb (Nat.zero_le _) rfl
    have hend := (decode_ends_of_start hdecode hpos hdec hout hr).steps hrun
    rw [hop, hconfig] at hend
    have hbound : stepBound 2#8 (.bytes b) = b.length + (unpackPairs b).length + 2 := by
      show b.length + (unpackBits b).length + 2 = _
      rw [unpackBits_eq]
    refine hasOutcome_of_accepted ?_ (h.step_unpack commands_decompress hb) (hend.mono ?_)
    · rw [runSpec_decompress h.within hb, decodeAll, hr]
      rfl
    · rw [hbound]
      show k + ((unpackPairs b).length + 1) ≤ _
      omega
  · exact h.unpack_odd commands_decompress (Or.inl rfl) hb

end

/-- A command of a payload within the bound, whichever of the six it is. -/
theorem Admits.hasOutcome {s : State} {v : Byte} {x : Payload} (h : Admits s v x) (hv : ¬ isReserved v) :
    HasOutcome s v x := by
  rcases defined_words v hv with rfl | rfl | rfl | rfl | rfl | rfl
  · obtain ⟨b, rfl⟩ := eq_bytes_of_kind x h.kind
    exact h.compress
  · obtain ⟨b, rfl⟩ := eq_bytes_of_kind x h.kind
    exact h.decompress
  · obtain ⟨b, rfl⟩ := eq_bytes_of_kind x h.kind
    exact h.encode
  · obtain ⟨c, rfl⟩ := eq_codes_of_kind x h.kind
    exact h.decode
  · obtain ⟨c, rfl⟩ := eq_codes_of_kind x h.kind
    exact h.pack
  · obtain ⟨b, rfl⟩ := eq_bytes_of_kind x h.kind
    exact h.unpack

theorem commands_of_defined {v : Byte} (hv : ¬ isReserved v) : ∃ start, Commands v start := by
  rcases defined_words v hv with rfl | rfl | rfl | rfl | rfl | rfl
  · exact ⟨_, commands_compress⟩
  · exact ⟨_, commands_decompress⟩
  · exact ⟨_, commands_encode⟩
  · exact ⟨_, commands_decode⟩
  · exact ⟨_, commands_pack⟩
  · exact ⟨_, commands_unpack⟩

/-- Settles O56: a reserved word and an input over the bound fault at the acceptance, and the six commands run their phases
as the summary says. -/
theorem commandOutcome : Obligations.CommandOutcome := by
  intro s v x hq hkind
  by_cases hv : isReserved v
  · exact hq.hasOutcome_reserved hv
  · have hk : payloadKind x = inputKind v := by
      simp only [isReserved, not_or, not_not] at hv
      exact hkind hv.1 hv.2.1 hv.2.2
    cases hx : exceeds (payloadLength x) s.config.maxInUnits with
    | false => exact Admits.hasOutcome ⟨hq, hk, hx⟩ hv
    | true =>
      obtain ⟨start, hc⟩ := commands_of_defined hv
      exact hq.hasOutcome_over hc hv hk hx

end Sys2Proof.Machine
end

section
/-! What raising a fault leaves, and that nothing of the step comes after it (60_exceptions.md R238). -/

namespace Sys2Proof.Machine

/-- A raised fault drops the rest of the step. -/
theorem raise_andThen (cause : Cause) (sub : BitVec 4) (pos : Nat) (code : Code) (len : Nat) (s : State)
    (k : State → Eff) :
    (raise cause sub pos code len s).andThen k = .raised (s.setCtl (ctlFault cause sub pos code len s.ctl)) :=
  andThen_raised _ k

/-- A table length, at most CAPACITY, is recorded without loss (10_state.md R36). -/
theorem ctlFault_faultLen_toNat {len : Nat} (h : len ≤ 65536) (cause : Cause) (sub : BitVec 4) (pos : Nat) (code : Code)
    (c : Ctl) : (ctlFault cause sub pos code len c).faultLen.toNat = len := by
  rw [ctlFault_faultLen, BitVec.toNat_ofNat, Nat.mod_eq_of_lt (by omega)]

/-- A fault has no response (44_entry_points.md R217). -/
theorem response_of_fault {s : State} (h : s.ctl.state = .fault) : response s = none := by
  simp only [response, h]

/-- Settles O23: a raised step ignores its continuation, and the record's length fits its 17 bits. -/
theorem faultEntry : Obligations.FaultEntry := by
  intro cause sub pos code len s k hlen
  have hraised : Raised s (s.setCtl (ctlFault cause sub pos code len s.ctl)) := raise_ok s cause sub pos code len
  exact ⟨_, raise_andThen cause sub pos code len s k, rfl, rfl, rfl, rfl, ctlFault_faultLen_toNat hlen ..,
    hraised.out, hraised.outLen, hraised.phase, hraised.state, hraised.op, response_of_fault hraised.state⟩

end Sys2Proof.Machine
end

section
/-! What a block reset leaves of CTL, and what the host then sees (70_reset_and_hazards.md R260). -/

namespace Sys2Proof.Machine

@[simp] theorem blockReset_ctl (s : State) : (blockReset s).ctl = Ctl.reset := rfl
@[simp] theorem blockReset_config (s : State) : (blockReset s).config = s.config := rfl
@[simp] theorem blockReset_host (s : State) : (blockReset s).host = s.host := rfl

/-- A block reset is taken in every state, whatever STATE and PHASE are. -/
theorem step_blockReset {s : State} {rest : List HostAct} (h : s.host = .blockReset :: rest) :
    step s = .next (blockReset (s.setHost rest)) := by
  simp only [step, h, hostTurn]

theorem statusWord_reset : statusWord Ctl.reset = 0#16 := by decide

/-- With CTL at R41's values every register reads 0, the reserved ones included (10_state.md R33). -/
theorem readReg_of_ctl_reset {s : State} (h : s.ctl = Ctl.reset) (n : Nat) : readReg n s = 0 := by
  match n with
  | 0 | 2 | 3 | 4 | 5 | _ + 6 => simp only [readReg, h, Ctl.reset, BitVec.toNat_ofNat, Nat.zero_mod]
  | 1 => simp only [readReg, h, statusWord_reset, BitVec.toNat_ofNat, Nat.zero_mod]

theorem response_of_idle {s : State} (h : s.ctl.state = .idle) : response s = none := by
  simp only [response, h]

theorem resultOf_of_idle {s : State} (h : s.ctl.state = .idle) : resultOf s = none := by
  simp only [resultOf, h]

/-- Settles O2: the step is the block reset, whose CTL is the reset value; what the host reads is a function of CTL. -/
theorem blockResetAbandons : Obligations.BlockResetAbandons := by
  intro s rest hhost
  have hctl : (blockReset (s.setHost rest)).ctl = Ctl.reset := blockReset_ctl _
  have hidle : (blockReset (s.setHost rest)).ctl.state = .idle := congrArg Ctl.state hctl
  refine ⟨_, step_blockReset hhost, ?_⟩
  rw [hctl]
  exact ⟨rfl, rfl, rfl, rfl, rfl, rfl, rfl, rfl, rfl, rfl, rfl, rfl, rfl,
    readReg_of_ctl_reset hctl, response_of_idle hidle, resultOf_of_idle hidle, blockReset_config _, blockReset_host _⟩

end Sys2Proof.Machine
end

section
/-! What one step of the machine can do, turn by turn (44_entry_points.md R218), and that every step keeps the invariant
and a host that keeps its contract always gets one (10_state.md section 11). -/

namespace Sys2Proof.Machine

/-! ### The four kinds of turn -/

theorem engineTurn_of_run {s : State} {rest : List HostAct} (h : s.host = .run :: rest) : EngineTurn s (s.setHost rest) := by
  refine Or.inr ?_
  rw [State.setHost_host, ← h]
  rfl

theorem step_run {s : State} {rest : List HostAct} (h : s.host = .run :: rest) : step s = engine (s.setHost rest) :=
  (engineTurn_of_run h).step_eq

theorem step_read {s : State} {n : Nat} {rest : List HostAct} (h : s.host = .read n :: rest) :
    step s = .next (s.setHost rest) := by
  simp only [step, h, hostTurn]

/-- A write of any register but CMD is ignored (10_state.md R33; log entry 13). -/
theorem step_write_of_ne_zero {s : State} {n : Nat} {v : Byte} {x : Payload} {rest : List HostAct}
    (h : s.host = .write n v x :: rest) (hn : n ≠ 0) : step s = .next (s.setHost rest) := by
  simp only [step, h, hostTurn, hostWrite, if_neg hn]

/-- The engine's turn outside BUSY changes nothing (60_exceptions.md R249; log entry 14). -/
theorem engine_of_not_busy {s : State} (h : s.ctl.state ≠ .busy) : engine s = .next s := by
  unfold engine
  cases hs : s.ctl.state with
  | busy => exact absurd hs h
  | idle | done | fault => rfl

/-- A step that answers is the engine's turn, an acceptance, a block reset, or a turn that only goes off the host's list. -/
theorem step_cases {s t : State} (h : step s = .next t) :
    (∃ u, EngineTurn s u ∧ engine u = .next t) ∨
    (∃ v x rest, s.host = .write 0 v x :: rest) ∨
    (∃ rest, s.host = .blockReset :: rest ∧ t = blockReset (s.setHost rest)) ∨
    (∃ rest, t = s.setHost rest) := by
  cases hh : s.host with
  | nil => exact Or.inl ⟨s, Or.inl ⟨hh, rfl⟩, (step_of_host_nil hh).symm.trans h⟩
  | cons a rest =>
    cases a with
    | run => exact Or.inl ⟨_, engineTurn_of_run hh, (step_run hh).symm.trans h⟩
    | write n v x =>
      rcases Nat.eq_zero_or_pos n with rfl | hn
      · exact Or.inr (Or.inl ⟨v, x, rest, rfl⟩)
      · rw [step_write_of_ne_zero hh hn.ne'] at h
        cases h
        exact Or.inr (Or.inr (Or.inr ⟨rest, rfl⟩))
    | read n =>
      rw [step_read hh] at h
      cases h
      exact Or.inr (Or.inr (Or.inr ⟨rest, rfl⟩))
    | blockReset =>
      rw [step_blockReset hh] at h
      cases h
      exact Or.inr (Or.inr (Or.inl ⟨rest, rfl, rfl⟩))

/-! ### The invariant after a reset -/

theorem statusInv_reset : StatusInv Ctl.reset where
  phaseNone := fun _ => rfl
  listed := rfl
  noFault := fun _ => ⟨rfl, rfl, rfl, rfl, rfl⟩
  isFault := nofun
  outLen := rfl
  faultLenRange := Or.inl rfl
  doneKind := nofun

/-- The units at their fresh generation and CTL at its reset values, whatever the parameters and the host's turns are. -/
theorem inv_of_reset {s : State} (he : s.enc = Enc.reset) (hd : s.dec = Dec.reset) (hc : s.ctl = Ctl.reset) : Inv s where
  enc := he ▸ encInv_reset
  dec := hd ▸ decInv_reset
  busy := fun hb => by rw [hc] at hb; cases hb
  status := hc ▸ statusInv_reset

/-- Settles O51: the reset state is CTL's reset values over two fresh generations. -/
theorem invAtReset : Obligations.InvAtReset := inv_of_reset rfl rfl rfl

/-! ### An acceptance that answers -/

/-- The payload of a command that is accepted has the command's kind: another one is a stuck state (R203; log entry 3). -/
theorem accept_kind {op : BitVec 3} {ik ok : Kind} {start : State → Eff} {s t : State}
    (h : (accept op ik ok start s).toOutcome = .next t) : payloadKind s.offered = ik := by
  by_contra hk
  rw [accept] at h
  split at h <;> cases h

theorem exec_decodeCmd_kind {v : Byte} {s t : State} (hv : ¬ isReserved v) (h : exec (decodeCmd v) s = .next t) :
    payloadKind s.offered = inputKind v := by
  obtain ⟨start, hc⟩ := commands_of_defined hv
  rw [hc] at h
  exact accept_kind h

theorem not_isReserved_iff {v : Byte} :
    ¬ isReserved v ↔ reservedField v = 0#5 ∧ opField v ≠ 0#3 ∧ opField v ≠ 7#3 := by
  simp only [isReserved, not_or, not_not]

/-! ### The obligations -/

theorem TurnOk.answers {s : State} {o : Host.Outcome State Fault Refusal} (h : TurnOk s o) : ∃ t, o = .next t := by
  obtain ⟨t, ht, -⟩ := h
  exact ⟨t, ht⟩

theorem TurnOk.inv {s t : State} {o : Host.Outcome State Fault Refusal} (h : TurnOk s o) (ht : o = .next t) : Inv t := by
  obtain ⟨u, hu, hInv, -, -⟩ := h
  cases hu.symm.trans ht
  exact hInv

/-- Settles O52: the engine's turn and an acceptance keep the invariant, a reset establishes it, and any other turn only goes
off the host's list. -/
theorem invKept : Obligations.InvKept := by
  intro s t hInv h
  rcases step_cases h with ⟨u, hturn, hu⟩ | ⟨v, x, rest, hh⟩ | ⟨rest, -, rfl⟩ | ⟨rest, rfl⟩
  · have hInvU : Inv u := by
      rcases hturn with ⟨-, rfl⟩ | rfl
      · exact hInv
      · exact ⟨hInv.enc, hInv.dec, hInv.busy, hInv.status⟩
    exact (engine_ok hInvU).inv hu
  · have hquiet := (write0_cases hh h).1
    rw [step_write0 hh] at h
    exact (exec_decodeCmd_ok (inv_setOffered (inv_setHost hInv rest) x) hquiet v fun h1 h2 h3 =>
      exec_decodeCmd_kind (not_isReserved_iff.2 ⟨h1, h2, h3⟩) h).inv h
  · exact inv_of_reset rfl rfl rfl
  · exact inv_setHost hInv rest

/-- Settles O53: the engine's turn and, under the host's contract, an acceptance always answer; the other turns do anyway. -/
theorem neverStuck : Obligations.NeverStuck := by
  intro s hInv hhost
  cases hh : s.host with
  | nil => rw [step_of_host_nil hh]; exact (engine_ok hInv).answers
  | cons a rest =>
    cases a with
    | run => rw [step_run hh]; exact (engine_ok (inv_setHost hInv rest)).answers
    | write n v x =>
      rcases Nat.eq_zero_or_pos n with rfl | hn
      · obtain ⟨hquiet, hkind⟩ := hhost v x rest hh
        rw [step_write0 hh]
        exact (exec_decodeCmd_ok (inv_setOffered (inv_setHost hInv rest) x) hquiet v hkind).answers
      · exact ⟨_, step_write_of_ne_zero hh hn.ne'⟩
    | read n => exact ⟨_, step_read hh⟩
    | blockReset => exact ⟨_, step_blockReset hh⟩

end Sys2Proof.Machine
end

section
/-! An instruction and its bytes (30_encoding.md sections 1 and 3). -/

namespace Sys2Proof

/-- Bytes after the ones the decoder reads make no difference to what it reads. -/
theorem decode_append {f : Format} {bytes rest : List Byte} {i : Instr} (h : decode f bytes = .ok (i, rest))
    (more : List Byte) : decode f (bytes ++ more) = .ok (i, rest ++ more) := by
  match f, bytes with
  | .cmd8, _ :: _ => cases h; rfl
  | .code16, _ :: _ :: _ => cases h; rfl
  | .code16, [_] => cases h
  | .cmd8, [] => cases h
  | .code16, [] => cases h

theorem decodesBack (i : Instr) : Laws.DecodesBack.Statement i :=
  match i with
  | .compress => Laws.DecodesBack.compress
  | .decompress => Laws.DecodesBack.decompress
  | .encode => Laws.DecodesBack.encode
  | .decode => Laws.DecodesBack.decode
  | .pack => Laws.DecodesBack.pack
  | .unpack => Laws.DecodesBack.unpack
  | .reservedOp0 => Laws.DecodesBack.reservedOp0
  | .reservedOp7 => Laws.DecodesBack.reservedOp7
  | .reservedBit3 op u => Laws.DecodesBack.reservedBit3 op u
  | .reservedBit4 op u => Laws.DecodesBack.reservedBit4 op u
  | .reservedBit5 op u => Laws.DecodesBack.reservedBit5 op u
  | .reservedBit6 op u => Laws.DecodesBack.reservedBit6 op u
  | .reservedBit7 op => Laws.DecodesBack.reservedBit7 op
  | .lit b => Laws.DecodesBack.lit b
  | .clear => Laws.DecodesBack.clear
  | .ref c => Laws.DecodesBack.ref c

/-- Settles O4: each instruction's own bytes decode to it, and the bytes after them do not matter. -/
theorem decodeOfEncode : Obligations.DecodeOfEncode :=
  fun i rest hi => decode_append (decodesBack i hi) rest

/-- Only a code word has a field that its width does not bound. -/
theorem wellFormed_of_cmd8 {i : Instr} (h : i.format = .cmd8) : WellFormed i := by
  cases i with
  | ref c => cases h
  | _ => rfl

theorem wellFormed_decodeCode (c : Code) : WellFormed (decodeCode c) := by
  rcases Machine.decodeCode_cases c with ⟨-, hd⟩ | ⟨-, hd⟩ | ⟨hc, -, hd⟩ <;> rw [hd]
  · rfl
  · rfl
  · exact decide_eq_true hc

theorem encode_decodeCmd (v : Byte) : encode (decodeCmd v) = [v] := by
  simp only [encode, format_decodeCmd, encodeCmd_decodeCmd]

theorem encode_decodeCode (hi lo : Byte) : encode (decodeCode (joinBytes hi lo)) = [hi, lo] := by
  simp only [encode, format_decodeCode, encodeCode_decodeCode, hiByte_joinBytes, loByte_joinBytes]

/-- Settles O5: the decoder's two reading branches are undone by the encoder, and its other branches are the short lists. -/
theorem encodeOfDecode : Obligations.EncodeOfDecode := by
  refine ⟨fun f bytes rest i h => ?_, fun bytes => ?_, fun bytes => ?_⟩
  · match f, bytes with
    | .cmd8, v :: _ =>
      cases h
      exact ⟨wellFormed_of_cmd8 (format_decodeCmd v), format_decodeCmd v, by rw [encode_decodeCmd]; rfl⟩
    | .code16, hi :: lo :: _ =>
      cases h
      exact ⟨wellFormed_decodeCode _, format_decodeCode _, by rw [encode_decodeCode]; rfl⟩
    | .code16, [_] => cases h
    | .cmd8, [] => cases h
    | .code16, [] => cases h
  · match bytes with
    | [] => exact iff_of_true ⟨_, rfl⟩ (by decide)
    | _ :: _ => exact iff_of_false (fun ⟨_, h⟩ => by cases h) (by simp)
  · match bytes with
    | [] => exact iff_of_true ⟨_, rfl⟩ (by decide)
    | [_] => exact iff_of_true ⟨_, rfl⟩ (by simp)
    | _ :: _ :: _ => exact iff_of_false (fun ⟨_, h⟩ => by cases h) (by simp)

/-- Settles O3: the decoder evaluated on each word. -/
theorem decodesWords : Obligations.DecodesWords :=
  ⟨rfl, rfl, rfl, rfl, rfl, rfl, rfl, rfl, rfl, rfl, rfl, rfl, rfl, rfl, rfl, rfl, rfl, rfl, rfl⟩

end Sys2Proof
end

section
/-! The codes of an unpacked buffer (30_encoding.md section 2, 42_bit_packer.md section 2). -/

namespace Sys2Proof.Machine

/-- The step form of UNPACK makes code `i` of the bytes `2i` and `2i + 1` (R156). -/
theorem unpackPairs_getElem? {bs : List Byte} {i : Nat} {hi lo : Byte} (hhi : bs[2 * i]? = some hi)
    (hlo : bs[2 * i + 1]? = some lo) : (unpackPairs bs)[i]? = some (joinBytes hi lo) := by
  induction i generalizing bs with
  | zero =>
    match bs with
    | [] | [_] => cases hlo
    | _ :: _ :: _ => cases hhi; cases hlo; rfl
  | succ i ih =>
    match bs with
    | [] | [_] => cases hhi
    | _ :: _ :: rest => exact ih (bs := rest) hhi hlo

theorem bitVal_binStr_pair (hi lo : Byte) : bitVal (binStr hi ++ binStr lo) = hi.toNat * 256 + lo.toNat := by
  simp only [bitVal_append, binStr_length, bitVal_binStr_byte, Nat.reducePow]

/-- Settles O8: UNPACK's bit-string form is its step form, which takes the bytes in pairs. -/
theorem unpackAssembly : Obligations.UnpackAssembly := by
  intro bs _
  rw [unpackBits_eq]
  refine ⟨unpackPairs_length bs, fun i hi lo hhi hlo => ?_⟩
  exact ⟨_, unpackPairs_getElem? hhi hlo, joinBytes_toNat hi lo,
    (joinBytes_toNat hi lo).trans (bitVal_binStr_pair hi lo).symm⟩

end Sys2Proof.Machine
end

section
/-! The canonical form of the slot list (40_dictionary_builder.md section 2; log entry 18). -/

namespace Sys2Proof.Machine

/-- Of two canonical lists that read alike, the one's head lies no lower than the other's: it would read as Absent there. -/
theorem head_le_of_reads_alike {i j : Nat} {e x : Entry} {m n : Slots} (hm : slotsWf ((i, e) :: m) = true)
    (hn : slotsWf ((j, x) :: n) = true) (h : ∀ k, slotRead ((i, e) :: m) k = slotRead ((j, x) :: n) k) : j ≤ i := by
  obtain ⟨he, -, -⟩ := (slotsWf_cons i e m).1 hm
  obtain ⟨-, hn, -⟩ := (slotsWf_cons j x n).1 hn
  by_contra hij
  have hread := h i
  rw [slotRead_cons, if_pos rfl, slotRead_cons, if_neg (by omega), slotRead_of_above n j i hn (by omega)] at hread
  exact he hread

/-- Canonical lists that read alike at every index are equal, head by head. -/
theorem eq_of_reads_alike {m n : Slots} (hm : slotsWf m = true) (hn : slotsWf n = true)
    (h : ∀ k, slotRead m k = slotRead n k) : m = n := by
  induction m generalizing n with
  | nil =>
    cases n with
    | nil => rfl
    | cons q n =>
      have hread := h q.1
      rw [slotRead_nil, slotRead_cons, if_pos rfl] at hread
      exact absurd hread.symm ((slotsWf_cons _ _ _).1 hn).1
  | cons p m ih =>
    cases n with
    | nil =>
      have hread := h p.1
      rw [slotRead_nil, slotRead_cons, if_pos rfl] at hread
      exact absurd hread ((slotsWf_cons _ _ _).1 hm).1
    | cons q n =>
      obtain ⟨i, e⟩ := p
      obtain ⟨j, x⟩ := q
      obtain rfl : i = j := le_antisymm (head_le_of_reads_alike hn hm fun k => (h k).symm) (head_le_of_reads_alike hm hn h)
      obtain rfl : e = x := by simpa only [slotRead_cons, if_pos] using h i
      obtain ⟨-, ham, hwm⟩ := (slotsWf_cons i e m).1 hm
      obtain ⟨-, han, hwn⟩ := (slotsWf_cons i e n).1 hn
      refine congrArg _ (ih hwm hwn fun k => ?_)
      by_cases hk : i = k
      · rw [slotRead_of_above m i k ham hk.ge, slotRead_of_above n i k han hk.ge]
      · simpa only [slotRead_cons, if_neg hk] using h k

/-- Settles O12: the laws of one write, and extensionality by induction on the lists. -/
theorem canonicalSlots : Obligations.CanonicalSlots :=
  ⟨fun m i e hm => ⟨slotsWf_slotWrite m i e hm, fun j => slotRead_slotWrite m i j e hm⟩,
    fun _ _ => eq_of_reads_alike⟩

end Sys2Proof.Machine
end

section
/-! Greedy longest match (41_encoder.md section 4): no entry that starts the unconsumed input is longer than the match. -/

namespace Sys2Proof.Machine

theorem strBytes_injective {s t : Str} (h : strBytes s = strBytes t) : s = t := by
  obtain ⟨hhead, htail⟩ := List.cons.inj h
  cases s
  cases t
  exact congr (congrArg Str.mk hhead) htail

/-- A dictionary holds every string that starts one of its entries: only itself starts a literal, and an appended entry
extends an earlier one by a byte (10_state.md R43). -/
theorem prefix_stored {D : Slots} {L : Nat} (h : DictInv D L) (hp : PrefixClosed D L) {p : Str} (j : Nat) :
    ∀ s, slotRead D j = .data s → strBytes p <+: strBytes s → ∃ i, slotRead D i = .data p := by
  induction j using Nat.strong_induction_on with
  | _ j ih =>
    intro s hs hps
    obtain ⟨hjL, hj256⟩ := h.data_index hs
    rcases Nat.lt_or_ge j 256 with hj | hj
    · have hlen : (strBytes s).length ≤ (strBytes p).length := by
        rw [literal_length h hj hs]
        exact Nat.le_add_left 1 p.tail.length
      have hbytes := hps.eq_of_length_le hlen
      exact ⟨j, hs.trans (congrArg Entry.data (strBytes_injective hbytes).symm)⟩
    · obtain ⟨i, q, b, hij, -, hiq, hjb⟩ := hp j (by omega) hjL
      obtain rfl := Entry.data.inj (hs.symm.trans hjb)
      rw [strBytes_strSnoc] at hps
      rcases List.prefix_concat_iff.1 hps with hbytes | hpq
      · exact ⟨j, hs.trans (congrArg Entry.data (strBytes_injective hbytes).symm)⟩
      · exact ih i hij q hiq hpq

/-- Where `w` and the next byte are not found, no entry longer than `w` starts `w`, the byte and what follows: it would
itself start with `w` and the byte. -/
theorem EncInv.no_longer_entry {e : Enc} (h : EncInv e) {w : Str} {k : Byte} (hn : revLookup e.R (strSnoc w k) = none)
    {j : Nat} {s : Str} {rest : List Byte} (hs : slotRead e.D j = .data s)
    (hpre : strBytes s <+: strBytes w ++ k :: rest) : (strBytes s).length ≤ (strBytes w).length := by
  by_contra hlen
  have hcand : strBytes (strSnoc w k) <+: strBytes w ++ k :: rest := by
    rw [strBytes_strSnoc]
    exact ⟨rest, by simp⟩
  have hle : (strBytes (strSnoc w k)).length ≤ (strBytes s).length := by
    rw [strBytes_strSnoc, List.length_append, List.length_singleton]
    omega
  obtain ⟨i, hi⟩ := prefix_stored h.dict h.prefixes j s hs (List.prefix_of_prefix_length_le hcand hpre hle)
  obtain ⟨hiL, hi256⟩ := h.dict.data_index hi
  have hfound := (h.inverse (strSnoc w k) i).2 ⟨hiL, hi256, hi⟩
  rw [hn] at hfound
  cases hfound

/-- The first code of a scan step that does not extend the match is the match's own index (R123, R124). -/
theorem EncInv.first_code {e : Enc} (h : EncInv e) {w : Str} {k : Byte} (hw : e.W = .building w)
    (hn : revLookup e.R (strSnoc w k) = none) :
    ∃ i more e1, encUnit k e = some (BitVec.ofNat 16 i :: more, e1) ∧ i < e.L ∧ slotRead e.D i = .data w := by
  rcases encUnit_cases h k with ⟨⟨i, hi⟩, -⟩ | ⟨v, i, hv, -, hi, -, hd, -, ⟨-, hu⟩ | ⟨-, hu⟩⟩
  · rw [candidate_building hw, hn] at hi
    cases hi
  · cases hw.symm.trans hv
    exact ⟨i, _, _, hu, hi, hd⟩
  · cases hw.symm.trans hv
    exact ⟨i, _, _, hu, hi, hd⟩

/-- Settles O54: the code names the match, and by the closure of R43 a longer entry would make the candidate found. -/
theorem greedyLongestMatch : Obligations.GreedyLongestMatch := by
  refine ⟨fun e w k h hw hn => ?_, fun e w h hw => ?_⟩
  · have hcap : e.L < 65536 := h.belowCapacity
    obtain ⟨i, more, e1, hu, hi, hd⟩ := h.first_code hw hn
    exact ⟨i, more, e1, hu, by omega, hd, fun j s rest => h.no_longer_entry hn⟩
  · have hcap : e.L < 65536 := h.belowCapacity
    rcases flushCodes_cases h with ⟨hempty, -⟩ | ⟨v, i, hv, -, hi, -, hd, hf⟩
    · cases hw.symm.trans hempty
    · cases hw.symm.trans hv
      exact ⟨i, hf, by omega, hd, fun j s _ hpre => hpre.length_le⟩

end Sys2Proof.Machine
end

section
/-! COMPRESS and DECOMPRESS as the sequences of two commands (30_encoding.md section 5, R85). -/

namespace Sys2Proof.Machine

/-- A waiting block ends a command as its functional summary says (R219). -/
theorem Quiescent.endsAs {s : State} (hq : Quiescent s) {v : Byte} {x : Payload} {r : CmdResult}
    (hk : payloadKind x = inputKind v) (hr : runSpec s.config v x = some r) : EndsAs s v x r := by
  obtain ⟨q, k, t, hspec, hpos, -, hrun, hres, hop⟩ := commandOutcome s v x hq fun _ _ _ => hk
  cases hspec.symm.trans hr
  exact ⟨k - 1, t, by rwa [Nat.sub_add_cancel hpos], hres, hop⟩

section
variable {s : State}

theorem WaitsUnbounded.within (h : WaitsUnbounded s) (n : Nat) : exceeds n s.config.maxInUnits = false := by
  rw [h.maxIn, exceeds_none]

theorem WaitsUnbounded.pack (h : WaitsUnbounded s) (cs : List Code) :
    EndsAs s 5#8 (.codes cs) (.done (.bytes (packPairs cs))) := by
  refine h.quiescent.endsAs rfl ?_
  rw [runSpec_pack (h.within _), h.maxOut]
  rfl

theorem WaitsUnbounded.unpack (h : WaitsUnbounded s) {b : List Byte} (hb : b.length % 2 = 0) :
    EndsAs s 6#8 (.bytes b) (.done (.codes (unpackPairs b))) := by
  refine h.quiescent.endsAs rfl ?_
  rw [runSpec_unpack (h.within _) hb, h.maxOut]
  rfl

/-- A buffer of odd length is refused, straight and as the first half of DECOMPRESS (42_bit_packer.md R155). -/
theorem WaitsUnbounded.odd (h : WaitsUnbounded s) {v : Byte} (hv : v = 2#8 ∨ v = 6#8) {b : List Byte}
    (hb : b.length % 2 = 1) : EndsAs s v (.bytes b) (.faulted (misaligned b.length)) := by
  refine h.quiescent.endsAs ?_ (runSpec_odd hv (h.within _) hb)
  rcases hv with rfl | rfl <;> rfl

end

/-- Settles O60: both sides of each equivalence end as the same composition of the units' functions. -/
theorem compoundCommands : Obligations.CompoundCommands := by
  intro s b hq hin hout
  have h : WaitsUnbounded s := ⟨hq, hin, hout⟩
  refine ⟨?_, ?_⟩
  · obtain ⟨cs, hcs⟩ := encodeFrom_some b Enc.reset encInv_reset
    exact ⟨cs, _, h.encode hcs, h.pack cs, h.compress hcs⟩
  · rcases Nat.mod_two_eq_zero_or_one b.length with hb | hb
    · obtain ⟨r, hr⟩ := decodeFrom_some (unpackPairs b) Dec.reset 0 decInv_reset
      exact Or.inr ⟨_, _, h.unpack hb, h.decode hr, h.decompress hb hr⟩
    · exact Or.inl ⟨_, h.odd (Or.inr rfl) hb, h.odd (Or.inl rfl) hb⟩

end Sys2Proof.Machine
end

section
/-! What the acceptance of a command does (44_entry_points.md section 1): the fault of a reserved word, the two refusals of a
payload, and the start of the first phase. -/

namespace Sys2Proof.Machine

/-! ### The instructions and their acceptance -/

theorem acceptReserved_eq {s : State} (hq : s.ctl.state ≠ .busy) (op : BitVec 3) :
    acceptReserved op s = raise .badCommand 0#4 0 0#16 0 (s.setCtl (ctlAccept op .bytes s.offered s.ctl)) :=
  if_neg hq

section
variable {op : BitVec 3} {ik ok : Kind} {start : State → Eff} {s : State} {x : Payload}

/-- An acceptance of a payload within the bound is the start of the command's first phase. -/
theorem accept_starts (hq : s.ctl.state ≠ .busy) (ho : s.offered = x) (hk : payloadKind x = ik)
    (hx : exceeds (payloadLength x) s.config.maxInUnits = false) :
    (accept op ik ok start s).toOutcome = (start (s.setCtl (ctlAccept op ok x s.ctl))).toOutcome := by
  subst ho
  rw [accept_within hq hk hx]

/-- UNPACK does not start over a buffer of odd length (42_bit_packer.md R155). -/
theorem accept_unpack_odd (hq : s.ctl.state ≠ .busy) (ho : s.offered = x) (hk : payloadKind x = .bytes)
    (hx : exceeds (payloadLength x) s.config.maxInUnits = false) (snk : Sink) (hodd : payloadLength x % 2 = 1) :
    (accept op .bytes ok (startUnpack snk) s).toOutcome =
      (raise .misalignedStream 0#4 (payloadLength x) 0#16 0
        (rewind (enterPhase .unpack .input snk (s.setCtl (ctlAccept op ok x s.ctl))))).toOutcome := by
  rw [accept_starts hq ho hk hx]
  exact congrArg Eff.toOutcome (startUnpack_odd snk (s.setCtl (ctlAccept op ok x s.ctl)) hodd)

theorem accept_unpack_even (hq : s.ctl.state ≠ .busy) (ho : s.offered = x) (hk : payloadKind x = .bytes)
    (hx : exceeds (payloadLength x) s.config.maxInUnits = false) (snk : Sink) (heven : ¬ payloadLength x % 2 = 1) :
    (accept op .bytes ok (startUnpack snk) s).toOutcome =
      .next (rewind (enterPhase .unpack .input snk (s.setCtl (ctlAccept op ok x s.ctl)))) := by
  rw [accept_starts hq ho hk hx]
  exact congrArg Eff.toOutcome (startUnpack_even snk (s.setCtl (ctlAccept op ok x s.ctl)) heven)

end

/-! ### The two kinds of command instruction -/

/-- Settles O19: each reserved instruction is the one refusal with its OP. -/
theorem reservedCommandsFault : Obligations.ReservedCommandsFault := by
  intro i op s hi hq
  have hexec : exec i s = (acceptReserved op s).toOutcome := by
    rcases hi with ⟨rfl, rfl⟩ | ⟨rfl, rfl⟩ | ⟨u, rfl⟩ | ⟨u, rfl⟩ | ⟨u, rfl⟩ | ⟨u, rfl⟩ | rfl <;> rfl
  rw [hexec, acceptReserved_eq hq]
  exact ⟨_, rfl, rfl, rfl, rfl, rfl, rfl, rfl, rfl, rfl, rfl, rfl, rfl, rfl, rfl, rfl, rfl, rfl⟩

/-- Settles O22: the six commands share one acceptance, which tests the bound before it starts a phase. -/
theorem inputLimitFaults : Obligations.InputLimitFaults := by
  intro i op s m hi hq hk hm hlt
  have hexec : ∃ ok start,
      exec i s = (accept op (if i = .decode ∨ i = .pack then .codes else .bytes) ok start s).toOutcome := by
    rcases hi with ⟨rfl, rfl⟩ | ⟨rfl, rfl⟩ | ⟨rfl, rfl⟩ | ⟨rfl, rfl⟩ | ⟨rfl, rfl⟩ | ⟨rfl, rfl⟩ <;> exact ⟨_, _, rfl⟩
  obtain ⟨ok, start, hexec⟩ := hexec
  have hx : exceeds (payloadLength s.offered) s.config.maxInUnits = true := by rwa [hm, exceeds_some]
  rw [hexec, accept_over hq hk hx]
  exact ⟨_, rfl, rfl, rfl, rfl, rfl, rfl, rfl, rfl, payloadLength_emptyPayload _, rfl, rfl, rfl, rfl, rfl, rfl, rfl⟩

/-- Settles O21: both commands start UNPACK, which refuses the buffer before it writes a code. -/
theorem oddBufferFaults : Obligations.OddBufferFaults := by
  intro i op s b hi hq ho hx hodd
  have hexec : ∃ ok snk, exec i s = (accept op .bytes ok (startUnpack snk) s).toOutcome := by
    rcases hi with ⟨rfl, rfl⟩ | ⟨rfl, rfl⟩ <;> exact ⟨_, _, rfl⟩
  obtain ⟨ok, snk, hexec⟩ := hexec
  rw [hexec, accept_unpack_odd hq ho rfl hx snk hodd]
  exact ⟨_, rfl, rfl, rfl, rfl, rfl, rfl, rfl, rfl, rfl, rfl, payloadLength_emptyPayload _, rfl, rfl, rfl, rfl, rfl, rfl, rfl⟩

/-- Settles O16: within the bound both are the start of ENCODE, with their own sink and output kind. -/
theorem acceptsCompressAndEncode : Obligations.AcceptsCompressAndEncode :=
  fun _ _ hq ho hx => ⟨accept_starts hq ho rfl hx, accept_starts hq ho rfl hx⟩

/-- Settles O17: within the bound and over an even buffer both are the start of UNPACK. -/
theorem acceptsDecompressAndUnpack : Obligations.AcceptsDecompressAndUnpack := by
  intro s b hq ho hx heven
  have hb : ¬ payloadLength (.bytes b) % 2 = 1 := by rw [payloadLength_bytes]; omega
  exact ⟨accept_unpack_even hq ho rfl hx .mid hb, accept_unpack_even hq ho rfl hx .out hb⟩

/-- Settles O18: within the bound they are the starts of DECODE and of PACK. -/
theorem acceptsDecodeAndPack : Obligations.AcceptsDecodeAndPack :=
  fun _ _ hq ho hx => ⟨accept_starts hq ho rfl hx, accept_starts hq ho rfl hx⟩

/-! ### Every command word -/

/-- Every acceptance empties the sinks and captures the payload and OP, and leaves the host's turns and the parameters alone. -/
structure Captures (op : BitVec 3) (x : Payload) (s t : State) : Prop where
  host : t.host = s.host
  config : t.config = s.config
  op : t.ctl.op = op
  input : t.ctl.input = x
  mid : t.ctl.mid = []
  out : payloadLength t.ctl.out = 0
  outLen : t.ctl.outLen = 0

/-- The first phase of each command, with its source and sink (44_entry_points.md R208 to R213). -/
abbrev FirstPhase (op : BitVec 3) (ph : Phase) (src : Source) (snk : Sink) : Prop :=
  (op = 1#3 → ph = .encode ∧ src = .input ∧ snk = .mid) ∧
  (op = 2#3 → ph = .unpack ∧ src = .input ∧ snk = .mid) ∧
  (op = 3#3 → ph = .encode ∧ src = .input ∧ snk = .out) ∧
  (op = 4#3 → ph = .decode ∧ src = .input ∧ snk = .out) ∧
  (op = 5#3 → ph = .pack ∧ src = .input ∧ snk = .out) ∧
  (op = 6#3 → ph = .unpack ∧ src = .input ∧ snk = .out)

/-- An accepted command in the first phase of its own. -/
def Begins (op : BitVec 3) (t : State) : Prop :=
  t.ctl.state = .busy ∧ t.ctl.cause = .none ∧ t.ctl.subcause = 0#4 ∧ t.ctl.faultPos = 0 ∧
    t.ctl.faultCode = 0#16 ∧ t.ctl.faultLen = 0#17 ∧ t.ctl.pos = 0 ∧ FirstPhase op t.ctl.phase t.ctl.src t.ctl.snk

/-- The state at position 0 of a command's first phase, whatever the units hold. -/
def begun (op : BitVec 3) (ok : Kind) (x : Payload) (ph : Phase) (snk : Sink) (e : Enc) (d : Dec) (s : State) : State :=
  ((rewind (enterPhase ph .input snk (s.setCtl (ctlAccept op ok x s.ctl)))).setEnc e).setDec d

theorem begun_captures (op : BitVec 3) (ok : Kind) (x : Payload) (ph : Phase) (snk : Sink) (e : Enc) (d : Dec) (s : State) :
    Captures op x s (begun op ok x ph snk e d s) :=
  ⟨rfl, rfl, rfl, rfl, rfl, payloadLength_emptyPayload ok, rfl⟩

theorem begun_begins {op : BitVec 3} {ph : Phase} {snk : Sink} (h : FirstPhase op ph .input snk) (ok : Kind) (x : Payload)
    (e : Enc) (d : Dec) (s : State) : Begins op (begun op ok x ph snk e d s) :=
  ⟨rfl, rfl, rfl, rfl, rfl, rfl, rfl, h⟩

/-- `t` is in FAULT with this record, and no phase runs. -/
def RefusedWith (r : FaultRecord) (t : State) : Prop := resultOf t = some (.faulted r) ∧ t.ctl.phase = .none

section
variable {s : State} {x : Payload}

/-- A reserved word is refused whatever its payload is (30_encoding.md R82). -/
theorem exec_reserved_word {v : Byte} (hv : isReserved v) (hq : s.ctl.state ≠ .busy) (ho : s.offered = x) :
    ∃ t, exec (decodeCmd v) s = .next t ∧ Captures (opField v) x s t ∧
      RefusedWith ⟨.badCommand, 0#4, 0, 0#16, 0⟩ t ∧ t.ctl.pos = s.ctl.pos ∧ t.enc = s.enc ∧ t.dec = s.dec := by
  rw [exec_reserved hv, acceptReserved_eq hq]
  exact ⟨_, rfl, ⟨rfl, rfl, rfl, ho, rfl, rfl, rfl⟩, ⟨rfl, rfl⟩, rfl, rfl, rfl⟩

theorem exec_over {v : Byte} {start : State → Eff} (hc : Commands v start) (hq : s.ctl.state ≠ .busy) (ho : s.offered = x)
    (hk : payloadKind x = inputKind v) (hx : exceeds (payloadLength x) s.config.maxInUnits = true) :
    ∃ t, exec (decodeCmd v) s = .next t ∧ Captures (opField v) x s t ∧
      RefusedWith ⟨.limitExceeded, 1#4, payloadLength x, 0#16, 0⟩ t := by
  subst ho
  rw [hc, accept_over hq hk hx]
  exact ⟨_, rfl, ⟨rfl, rfl, rfl, rfl, rfl, payloadLength_emptyPayload _, rfl⟩, rfl, rfl⟩

theorem exec_odd {v : Byte} (hv : v = 2#8 ∨ v = 6#8) (hq : s.ctl.state ≠ .busy) (ho : s.offered = x)
    (hk : payloadKind x = inputKind v) (hx : exceeds (payloadLength x) s.config.maxInUnits = false)
    (hodd : payloadLength x % 2 = 1) :
    ∃ t, exec (decodeCmd v) s = .next t ∧ Captures (opField v) x s t ∧
      RefusedWith ⟨.misalignedStream, 0#4, payloadLength x, 0#16, 0⟩ t := by
  have hunpacks : ∃ snk, Commands v (startUnpack snk) ∧ inputKind v = .bytes := by
    rcases hv with rfl | rfl
    · exact ⟨_, commands_decompress, rfl⟩
    · exact ⟨_, commands_unpack, rfl⟩
  obtain ⟨snk, hc, hkind⟩ := hunpacks
  rw [hc, hkind, accept_unpack_odd hq ho (hk.trans hkind) hx snk hodd]
  exact ⟨_, rfl, ⟨rfl, rfl, rfl, rfl, rfl, payloadLength_emptyPayload _, rfl⟩, rfl, rfl⟩

/-- A command with a payload within the bound, of even length where it is to be unpacked, begins its first phase. -/
theorem exec_begins {v : Byte} (hv : ¬ isReserved v) (hq : s.ctl.state ≠ .busy) (ho : s.offered = x)
    (hk : payloadKind x = inputKind v) (hx : exceeds (payloadLength x) s.config.maxInUnits = false)
    (heven : v = 2#8 ∨ v = 6#8 → ¬ payloadLength x % 2 = 1) :
    ∃ t, exec (decodeCmd v) s = .next t ∧ Captures (opField v) x s t ∧ Begins (opField v) t := by
  have hbegun : ∃ ok ph snk e d, FirstPhase (opField v) ph .input snk ∧
      exec (decodeCmd v) s = .next (begun (opField v) ok x ph snk e d s) := by
    rcases defined_words v hv with rfl | rfl | rfl | rfl | rfl | rfl
    · exact ⟨_, .encode, .mid, Enc.reset, s.dec, by decide, accept_starts hq ho hk hx⟩
    · exact ⟨_, .unpack, .mid, _, _, by decide,
        accept_unpack_even hq ho hk hx .mid (heven (Or.inl rfl))⟩
    · exact ⟨_, .encode, .out, Enc.reset, s.dec, by decide, accept_starts hq ho hk hx⟩
    · exact ⟨_, .decode, .out, _, _, by decide, accept_starts hq ho hk hx⟩
    · exact ⟨_, .pack, .out, _, _, by decide, accept_starts hq ho hk hx⟩
    · exact ⟨_, .unpack, .out, _, _, by decide,
        accept_unpack_even hq ho hk hx .out (heven (Or.inr rfl))⟩
  obtain ⟨ok, ph, snk, e, d, hfirst, hexec⟩ := hbegun
  exact ⟨_, hexec, begun_captures .., begun_begins hfirst ..⟩

/-- The words whose OP is 2 or 6 are DECOMPRESS and UNPACK, but for the reserved ones. -/
theorem unpacks_iff : ∀ v : Byte, ¬ isReserved v → ((opField v = 2#3 ∨ opField v = 6#3) ↔ (v = 2#8 ∨ v = 6#8)) := by
  unfold isReserved
  decide

/-- The acceptance's checks in their order, and what each leaves (R201, 60_exceptions.md R240). -/
def Checked (v : Byte) (x : Payload) (s t : State) : Prop :=
  if reservedField v ≠ 0#5 ∨ opField v = 0#3 ∨ opField v = 7#3 then
    resultOf t = some (.faulted ⟨.badCommand, 0#4, 0, 0#16, 0⟩) ∧ t.ctl.phase = .none ∧ t.ctl.pos = s.ctl.pos ∧
      t.enc = s.enc ∧ t.dec = s.dec
  else if exceeds (payloadLength x) s.config.maxInUnits then
    RefusedWith ⟨.limitExceeded, 1#4, payloadLength x, 0#16, 0⟩ t
  else if (opField v = 2#3 ∨ opField v = 6#3) ∧ payloadLength x % 2 = 1 then
    RefusedWith ⟨.misalignedStream, 0#4, payloadLength x, 0#16, 0⟩ t
  else Begins (opField v) t

theorem exec_checked {v : Byte} (hq : s.ctl.state ≠ .busy) (ho : s.offered = x)
    (hk : ¬ isReserved v → payloadKind x = inputKind v) :
    ∃ t, exec (decodeCmd v) s = .next t ∧ Captures (opField v) x s t ∧ Checked v x s t := by
  by_cases hv : isReserved v
  · obtain ⟨t, ht, hc, ⟨hres, hphase⟩, hunits⟩ := exec_reserved_word hv hq ho
    exact ⟨t, ht, hc, (if_pos hv).mpr ⟨hres, hphase, hunits⟩⟩
  · by_cases hx : exceeds (payloadLength x) s.config.maxInUnits = true
    · obtain ⟨start, hcommands⟩ := commands_of_defined hv
      obtain ⟨t, ht, hc, hr⟩ := exec_over hcommands hq ho (hk hv) hx
      exact ⟨t, ht, hc, (if_neg hv).mpr ((if_pos hx).mpr hr)⟩
    · have hfits := Bool.eq_false_of_not_eq_true hx
      by_cases hodd : (opField v = 2#3 ∨ opField v = 6#3) ∧ payloadLength x % 2 = 1
      · obtain ⟨t, ht, hc, hr⟩ := exec_odd ((unpacks_iff v hv).1 hodd.1) hq ho (hk hv) hfits hodd.2
        exact ⟨t, ht, hc, (if_neg hv).mpr ((if_neg hx).mpr ((if_pos hodd).mpr hr))⟩
      · obtain ⟨t, ht, hc, hb⟩ := exec_begins hv hq ho (hk hv) hfits
          fun hu hlen => hodd ⟨(unpacks_iff v hv).2 hu, hlen⟩
        exact ⟨t, ht, hc, (if_neg hv).mpr ((if_neg hx).mpr ((if_neg hodd).mpr hb))⟩

end

/-- Settles O15: a write of register 0 runs the acceptance, whose checks decide among its branches in their order. -/
theorem acceptWord : Obligations.AcceptWord := by
  intro s v x rest hh hq hkind
  have hk : ¬ isReserved v → payloadKind x = inputKind v := by
    intro hv
    obtain ⟨hclear, hop0, hop7⟩ := not_isReserved_iff.1 hv
    exact hkind hclear hop0 hop7
  obtain ⟨t, ht, hc, hb⟩ := exec_checked (s := (s.setHost rest).setOffered x) hq rfl hk
  exact ⟨t, (step_write0 hh).trans ht, hc.host, hc.config, hc.op, hc.input, hc.mid, hc.out, hc.outLen, hb⟩

/-! ### The frame -/

/-- However the part of a step ends, its state is one of `P`. -/
def Eff.Leaves (P : State → Prop) (e : Eff) : Prop := ∀ t, e.toOutcome = .next t → P t

theorem leaves_go {P : State → Prop} {s : State} (h : P s) : (Eff.go s).Leaves P := by
  intro t ht
  cases ht
  exact h

theorem leaves_raised {P : State → Prop} {s : State} (h : P s) : (Eff.raised s).Leaves P := by
  intro t ht
  cases ht
  exact h

/-- An acceptance writes CTL, and then whatever the start of the phase writes. -/
theorem accept_leaves {P : State → Prop} {s : State} (hctl : ∀ c, P (s.setCtl c)) {start : State → Eff}
    (hstart : ∀ c, (start (s.setCtl c)).Leaves P) (op : BitVec 3) (ik ok : Kind) : (accept op ik ok start s).Leaves P := by
  intro t h
  rw [accept] at h
  split at h
  · cases h
  · split at h
    · cases h
    · dsimp only at h
      split at h
      · cases h
        exact hctl _
      · exact hstart _ t h

theorem acceptReserved_leaves {P : State → Prop} {s : State} (hctl : ∀ c, P (s.setCtl c)) (op : BitVec 3) :
    (acceptReserved op s).Leaves P := by
  intro t h
  rw [acceptReserved] at h
  split at h <;> cases h
  exact hctl _

theorem startUnpack_leaves {P : State → Prop} {s : State} (hctl : ∀ c, P (s.setCtl c)) (snk : Sink) (c : Ctl) :
    (startUnpack snk (s.setCtl c)).Leaves P := by
  by_cases hodd : payloadLength c.input % 2 = 1
  · rw [startUnpack_odd snk (s.setCtl c) hodd]
    exact leaves_raised (hctl _)
  · rw [startUnpack_even snk (s.setCtl c) hodd]
    exact leaves_go (hctl _)

/-- What a command instruction leaves alone: all but CTL and the unit whose phase it starts. -/
structure CommandKeeps (i : Instr) (s t : State) : Prop where
  config : t.config = s.config
  offered : t.offered = s.offered
  host : t.host = s.host
  enc : i ≠ .compress → i ≠ .encode → t.enc = s.enc
  dec : i ≠ .decode → t.dec = s.dec

theorem CommandKeeps.setCtl (i : Instr) (s : State) (c : Ctl) : CommandKeeps i s (s.setCtl c) :=
  ⟨rfl, rfl, rfl, fun _ _ => rfl, fun _ => rfl⟩

theorem exec_cmd_keeps {i : Instr} {s t : State} (hf : i.format = .cmd8) (h : exec i s = .next t) : CommandKeeps i s t := by
  have hctl := CommandKeeps.setCtl i s
  cases i with
  | compress =>
    exact accept_leaves (start := startEncode .mid) hctl
      (fun _ => leaves_go ⟨rfl, rfl, rfl, fun hne => absurd rfl hne, fun _ => rfl⟩) _ _ _ t h
  | encode =>
    exact accept_leaves (start := startEncode .out) hctl
      (fun _ => leaves_go ⟨rfl, rfl, rfl, fun _ hne => absurd rfl hne, fun _ => rfl⟩) _ _ _ t h
  | decode =>
    exact accept_leaves (start := startDecode .input) hctl
      (fun _ => leaves_go ⟨rfl, rfl, rfl, fun _ _ => rfl, fun hne => absurd rfl hne⟩) _ _ _ t h
  | pack => exact accept_leaves (start := startPack .input) hctl (fun _ => leaves_go (hctl _)) _ _ _ t h
  | decompress | unpack => exact accept_leaves hctl (startUnpack_leaves hctl _) _ _ _ t h
  | reservedOp0 | reservedOp7 | reservedBit3 | reservedBit4 | reservedBit5 | reservedBit6 | reservedBit7 =>
    exact acceptReserved_leaves hctl _ t h
  | lit | clear | ref => cases hf

/-- Settles O24: an acceptance writes CTL, and the start of a phase one unit at most. -/
theorem commandFrame : Obligations.CommandFrame := by
  intro i s t hf h
  have hkeeps := exec_cmd_keeps hf h
  exact ⟨hkeeps.config, hkeeps.offered, hkeeps.host, hkeeps.enc, hkeeps.dec⟩

end Sys2Proof.Machine
end

section
/-! What LIT, CLEAR and REF leave alone (10_state.md section 11, 43_decoder.md sections 1 and 2). -/

namespace Sys2Proof.Machine

/-- Everything OutWrite of bytes can do, whatever the sink is. -/
theorem outBytes_any (bs : List Byte) (s : State) :
    outBytes bs s = .go s ∨
    (∃ l, s.ctl.out = .bytes l ∧ outBytes bs s = .go (s.setCtl (ctlSetOut (.bytes (l ++ bs)) s.ctl))) ∨
    (∃ n, outBytes bs s = raise .limitExceeded 2#4 n 0#16 0 s) ∨
    (∃ r, outBytes bs s = .stuck r) := by
  cases bs with
  | nil => exact Or.inl rfl
  | cons b bs =>
    right
    cases hs : s.ctl.snk with
    | mid => exact Or.inr (Or.inr ⟨.sinkKind, by simp only [outBytes, outByte, hs, andThen_stuck]⟩)
    | out =>
      cases ho : s.ctl.out with
      | codes l => exact Or.inr (Or.inr ⟨.sinkKind, by simp only [outBytes, outByte, hs, ho, andThen_stuck]⟩)
      | bytes l =>
        rcases outBytes_cases (b :: bs) l s hs ho with hgo | ⟨n, hlimit⟩
        · exact Or.inl ⟨l, rfl, hgo⟩
        · exact Or.inr (Or.inl ⟨n, hlimit⟩)

/-- A code's step without a fault: CTL changes in OUT alone, which grows, and otherwise only DEC may change. -/
def CodeEmits (s t : State) : Prop :=
  ∃ o d, t = (s.setCtl (ctlSetOut o s.ctl)).setDec d ∧
    (o = s.ctl.out ∨ ∃ l x, s.ctl.out = .bytes l ∧ o = .bytes (l ++ x))

/-- A code's step with a fault: the record of one of the two causes a code can have, and nothing else (R238). -/
def CodeFaults (s t : State) : Prop :=
  ∃ cause sub pos code len, t = s.setCtl (ctlFault cause sub pos code len s.ctl) ∧
    (cause = .malformedCode ∨ cause = .limitExceeded)

/-- A code's effect, joined to the streams, whatever DEC makes of the code. -/
theorem decApply_cases {c : Code} {r : DecRes} {s t : State} (h : (decApply c r s).toOutcome = .next t) :
    CodeEmits s t ∨ CodeFaults s t := by
  cases r with
  | stuck r => cases h
  | malformed sub =>
    cases h
    exact Or.inr ⟨_, _, _, _, _, rfl, Or.inl rfl⟩
  | emits out d =>
    rw [decApply] at h
    rcases outBytes_any out s with hw | ⟨l, ho, hw⟩ | ⟨n, hw⟩ | ⟨r, hw⟩ <;> rw [hw] at h <;> cases h
    · exact Or.inl ⟨s.ctl.out, d, rfl, Or.inl rfl⟩
    · exact Or.inl ⟨_, d, rfl, Or.inr ⟨l, out, ho, rfl⟩⟩
    · exact Or.inr ⟨_, _, _, _, _, rfl, Or.inr rfl⟩

/-- LIT, CLEAR and REF are each one code's effect, joined to the streams. -/
theorem exec_code_eq {i : Instr} (hf : i.format = .code16) (s : State) :
    ∃ c r, exec i s = (decApply c r s).toOutcome := by
  cases i with
  | lit b => exact ⟨_, _, rfl⟩
  | clear => exact ⟨clearCode, decClear s.dec, rfl⟩
  | ref c => exact ⟨_, _, rfl⟩
  | _ => cases hf

/-- Settles O32: the effect of a code either emits or faults, and both say which fields they leave. -/
theorem codeFrame : Obligations.CodeFrame := by
  intro i s t hf h
  obtain ⟨c, r, hexec⟩ := exec_code_eq hf s
  rcases decApply_cases (hexec.symm.trans h) with ⟨o, d, rfl, hout⟩ | ⟨cause, sub, pos, code, len, rfl, hcause⟩
  · exact ⟨rfl, rfl, rfl, rfl, rfl, rfl, rfl, rfl, rfl, rfl, Or.inl ⟨rfl, hout⟩⟩
  · exact ⟨rfl, rfl, rfl, rfl, rfl, rfl, rfl, rfl, rfl, rfl,
      Or.inr ⟨rfl, hcause, payloadLength_emptyPayload _, rfl, rfl, rfl⟩⟩

end Sys2Proof.Machine
end

section
/-! The engine's turn, phase by phase: its step before the end of the source and its end action there (44_entry_points.md
sections 2 to 4). -/

namespace Sys2Proof.Machine

/-! ### The turn of each phase -/

section
variable {s0 s s1 : State} (ht : EngineTurn s0 s) (hb : s.ctl.state = .busy)
include ht hb

theorem step_encode (hp : s.ctl.phase = .encode) : step s0 = runEncode s := by
  rw [ht.step_eq, engine, hb, hp]

theorem step_pack (hp : s.ctl.phase = .pack) : step s0 = runPack s := by
  rw [ht.step_eq, engine, hb, hp]

theorem step_unpack (hp : s.ctl.phase = .unpack) : step s0 = runUnpack s := by
  rw [ht.step_eq, engine, hb, hp]

theorem step_decode (hp : s.ctl.phase = .decode) : step s0 = runDecode s := by
  rw [ht.step_eq, engine, hb, hp]

/-! ### The end of a phase -/

/-- At the end of its source a phase other than ENCODE has no end action of its own. -/
theorem step_at_end (hend : atEnd s.ctl = true) (hp : s.ctl.phase = .pack ∨ s.ctl.phase = .unpack ∨ s.ctl.phase = .decode) :
    step s0 = (phaseEnd s).toOutcome := by
  rcases hp with hp | hp | hp
  · rw [step_pack ht hb hp, runPack, if_pos hend]
  · rw [step_unpack ht hb hp, runUnpack, if_pos hend]
  · rw [step_decode ht hb hp, runDecode, if_pos hend]

/-- At the end of its source an ENCODE phase flushes first (41_encoder.md R126). -/
theorem step_flush (hend : atEnd s.ctl = true) (hp : s.ctl.phase = .encode) (hf : encFlush s = .go s1) :
    step s0 = (phaseEnd s1).toOutcome := by
  rw [step_encode ht hb hp, runEncode, if_pos hend, hf, andThen_go]

end

/-- A phase that is its command's last completes it (R208, R209, R215). -/
theorem phaseEnd_completes {s : State} (h1 : ¬ (s.ctl.op = opCompress ∧ s.ctl.phase = .encode))
    (h2 : ¬ (s.ctl.op = opDecompress ∧ s.ctl.phase = .unpack)) : phaseEnd s = .go (complete s) := by
  rw [phaseEnd, if_neg h1, if_neg h2]

theorem encFlush_grows {s s1 : State} (hf : encFlush s = .go s1) : Grow s s1 := by
  have hok := encFlush_ok s
  rwa [hf] at hok

/-- Settles O40: at the end of a command's last phase the step is Complete, after the flush where the phase is ENCODE. -/
theorem completionWrites : Obligations.CompletionWrites := by
  intro s0 s s1 ht hb hend h
  have hcomplete : step s0 = (phaseEnd s1).toOutcome ∧ phaseEnd s1 = .go (complete s1) := by
    rcases h with ⟨rfl, hp | hp | ⟨hp, hop⟩⟩ | ⟨hf, hp, hop⟩
    · exact ⟨step_at_end ht hb hend (by simp [hp]), phaseEnd_completes (by simp [hp]) (by simp [hp])⟩
    · exact ⟨step_at_end ht hb hend (by simp [hp]), phaseEnd_completes (by simp [hp]) (by simp [hp])⟩
    · exact ⟨step_at_end ht hb hend (by simp [hp]),
        phaseEnd_completes (by simp [hp]) (by simp [hop, opDecompress])⟩
    · have hop1 : s1.ctl.op = 3#3 := (encFlush_grows hf).op.trans hop
      exact ⟨step_flush ht hb hend hp hf,
        phaseEnd_completes (by simp [hop1, opCompress]) (by simp [hop1, opDecompress])⟩
  rw [hcomplete.1, hcomplete.2]
  rfl

/-! ### The flush -/

theorem encFlush_empty {s : State} (hw : s.enc.W = .empty) : encFlush s = .go s := by
  simp only [encFlush, flushCodes, hw, outCodes]

theorem encFlush_building {s : State} {w : Str} {i : Nat} (hw : s.enc.W = .building w) (hi : revLookup s.enc.R w = some i) :
    encFlush s = outCodes [BitVec.ofNat 16 i] s := by
  simp only [encFlush, flushCodes, hw, matchCode_eq_ofNat hw hi]

/-- Settles O37: what the flush leaves is what completes. -/
theorem encFlushCompletes : Obligations.EncFlushCompletes := by
  intro s0 s l ht hb hop hp hs ho hend
  refine ⟨fun hw => ?_, fun w i hw hi hx => ?_⟩
  · rw [completionWrites s0 s s ht hb hend (Or.inr ⟨encFlush_empty hw, hp, hop⟩), ho]
    rfl
  · have hf := (encFlush_building hw hi).trans (outCodes_fits [BitVec.ofNat 16 i] l s hs ho hx)
    rw [completionWrites s0 s _ ht hb hend (Or.inr ⟨hf, hp, hop⟩), State.setCtl_ctl, ctlSetOut_out, payloadLength_codes,
      List.length_append]
    rfl

/-- Settles O41: COMPRESS's ENCODE and DECOMPRESS's UNPACK are the two phases that another one follows. -/
theorem secondPhaseStarts : Obligations.SecondPhaseStarts := by
  refine ⟨fun s0 s ht hb hop hp hs hend => ?_, fun s0 s ht hb hop hp hend => ?_⟩
  · have hpack : ∀ s1, encFlush s = .go s1 → step s0 = (startPack .mid s1).toOutcome := fun s1 hf =>
      (step_flush ht hb hend hp hf).trans (congrArg Eff.toOutcome
        (if_pos ⟨(encFlush_grows hf).op.trans hop, (encFlush_grows hf).phase.trans hp⟩))
    exact ⟨fun hw => hpack s (encFlush_empty hw), fun w i hw hi =>
      hpack _ ((encFlush_building hw hi).trans (outCodes_mid [BitVec.ofNat 16 i] s hs))⟩
  · rw [step_at_end ht hb hend (Or.inr (Or.inl hp)), phaseEnd, if_neg (by simp [hop, opCompress]), if_pos ⟨hop, hp⟩]
    rfl

/-! ### One step of PACK, UNPACK and DECODE -/

theorem atEnd_of_codeAt {c : Ctl} {x : Code} (h : codeAt c.pos (sourcePayload c) = some x) : atEnd c = false := by
  rw [atEnd_false_iff]
  cases hs : sourcePayload c with
  | bytes l => rw [hs] at h; cases h
  | codes l =>
    rw [hs] at h
    obtain ⟨hlt, -⟩ := List.getElem?_eq_some_iff.1 h
    exact hlt.ne

/-- Settles O38: PackStep reads the code and writes its two bytes as one list. -/
theorem packStepWrites : Obligations.PackStepWrites := by
  intro s0 s cs c l ht hb hp hsrc hc hs ho hx
  have hcode : codeAt s.ctl.pos (sourcePayload s.ctl) = some c := hsrc ▸ hc
  have hin : inCode s = some (c, advance s) := (inCode_eq_some _ _ _).2 ⟨hcode, rfl⟩
  have hpair : packStep s = outBytes [hiByte c, loByte c] (advance s) := by
    rw [packStep, hin]
    exact outByte_pair _ _ _
  rw [step_pack ht hb hp, runPack, atEnd_of_codeAt hcode, if_neg Bool.false_ne_true, hpair,
    outBytes_fits [hiByte c, loByte c] l (advance s) hs ho hx]
  rfl

/-- Settles O39: UnpackStep reads the two bytes and writes the code they make as a list of one. -/
theorem unpackStepWrites : Obligations.UnpackStepWrites := by
  intro s0 s bs hi lo c ht hb hp hsrc hhi hlo hc
  have hbyte : byteAt s.ctl.pos (sourcePayload s.ctl) = some hi := hsrc ▸ hhi
  have hin1 : inByte s = some (hi, advance s) := (inByte_eq_some _ _ _).2 ⟨hbyte, rfl⟩
  have hin2 : inByte (advance s) = some (lo, advance (advance s)) :=
    (inByte_eq_some _ _ _).2 ⟨show byteAt (s.ctl.pos + 1) (sourcePayload s.ctl) = some lo from hsrc ▸ hlo, rfl⟩
  obtain rfl : c = joinBytes hi lo := BitVec.eq_of_toNat_eq (hc.trans (joinBytes_toNat hi lo).symm)
  have hstep : step s0 = (outCodes [joinBytes hi lo] (advance (advance s))).toOutcome := by
    rw [step_unpack ht hb hp, runUnpack, atEnd_of_byteAt hbyte, if_neg Bool.false_ne_true, unpackStep, hin1]
    simp only [hin2, outCode_eq]
  refine ⟨fun hs => ?_, fun l hs ho hx => ?_⟩
  · rw [hstep, outCodes_mid _ (advance (advance s)) hs]
    rfl
  · rw [hstep, outCodes_fits [joinBytes hi lo] l (advance (advance s)) hs ho hx]
    rfl

/-- DecStep reads the code and runs its instruction (43_decoder.md R171). -/
theorem step_decode_code {s0 s : State} {c : Code} (ht : EngineTurn s0 s) (hb : s.ctl.state = .busy)
    (hp : s.ctl.phase = .decode) (hc : codeAt s.ctl.pos (sourcePayload s.ctl) = some c) :
    step s0 = exec (decodeCode c) (advance s) := by
  have hin : inCode s = some (c, advance s) := (inCode_eq_some _ _ _).2 ⟨hc, rfl⟩
  rw [step_decode ht hb hp, runDecode, atEnd_of_codeAt hc, if_neg Bool.false_ne_true, hin]

theorem decodeCmd_of_decode {v : Byte} {i : Instr} (h : decode .cmd8 [v] = .ok (i, [])) : decodeCmd v = i := by
  cases h
  rfl

theorem decodeCode_of_decode {c : Code} {i : Instr} (h : decode .code16 [hiByte c, loByte c] = .ok (i, [])) :
    decodeCode c = i := by
  have hi : decodeCode (joinBytes (hiByte c) (loByte c)) = i := by
    cases h
    rfl
  rwa [joinBytes_hi_lo] at hi

/-- Settles O42: a command word's step is the acceptance's, and a code's is DecStep's, in either form of the engine's turn. -/
theorem stepRunsInstruction : Obligations.StepRunsInstruction := by
  refine ⟨fun s v x rest i hh hi => ?_, fun s cs c i hb hp hsrc hc hi => ?_⟩
  · rw [step_write0 hh, decodeCmd_of_decode hi]
    rfl
  · have hcode : codeAt s.ctl.pos (sourcePayload s.ctl) = some c := by rwa [hsrc]
    refine ⟨fun hh => ?_, fun rest hh => ?_⟩
    · rw [step_decode_code (Or.inl ⟨hh, rfl⟩) hb hp hcode, decodeCode_of_decode hi]
      rfl
    · rw [step_decode_code (engineTurn_of_run hh) hb hp hcode, decodeCode_of_decode hi]
      rfl

end Sys2Proof.Machine
end

section
/-! What the host reads, and what its other turns do (10_state.md section 8, 20_memory.md section 4). -/

namespace Sys2Proof.Machine

/-- The status word's fields, read off the word they are put together to (R33). -/
theorem statusWord_fields (c : Ctl) :
    (statusWord c).extractLsb' 0 2 = stateBits c.state ∧ (statusWord c).extractLsb' 2 2 = 0#2 ∧
    (statusWord c).extractLsb' 4 4 = causeBits c.cause ∧ (statusWord c).extractLsb' 8 4 = c.subcause ∧
    (statusWord c).extractLsb' 12 3 = c.op ∧ (statusWord c).extractLsb' 15 1 = 0#1 := by
  unfold statusWord
  refine ⟨BitVec.extractLsb'_append_eq_right, ?_, ?_, ?_, ?_, ?_⟩
  · rw [BitVec.extractLsb'_append_eq_of_le (by decide)]
    exact BitVec.extractLsb'_append_eq_right
  · iterate 2 rw [BitVec.extractLsb'_append_eq_of_le (by decide)]
    exact BitVec.extractLsb'_append_eq_right
  · iterate 3 rw [BitVec.extractLsb'_append_eq_of_le (by decide)]
    exact BitVec.extractLsb'_append_eq_right
  · iterate 4 rw [BitVec.extractLsb'_append_eq_of_le (by decide)]
    exact BitVec.extractLsb'_append_eq_right
  · iterate 4 rw [BitVec.extractLsb'_append_eq_of_le (by decide)]
    exact BitVec.extractLsb'_append_eq_left

/-- The register numbers from 6 up are reserved and read 0 (R33). -/
theorem readReg_of_six_le {n : Nat} (h : 6 ≤ n) (s : State) : readReg n s = 0 := by
  obtain ⟨m, rfl⟩ := Nat.exists_eq_add_of_le' h
  rfl

/-- A read sees CTL alone. -/
theorem readReg_of_ctl_eq {s t : State} (h : t.ctl = s.ctl) (n : Nat) : readReg n t = readReg n s := by
  simp only [readReg, h]

theorem readReg_fault_of_clear {s : State} (h1 : s.ctl.faultPos = 0) (h2 : s.ctl.faultCode = 0#16)
    (h3 : s.ctl.faultLen = 0#17) : readReg 3 s = 0 ∧ readReg 4 s = 0 ∧ readReg 5 s = 0 :=
  ⟨h1, congrArg BitVec.toNat h2, congrArg BitVec.toNat h3⟩

/-- Settles O43: the status word field by field, the other registers by their numbers, and their ranges by the invariant. -/
theorem registerValues : Obligations.RegisterValues := by
  refine ⟨statusWord_fields, fun s => ⟨rfl, rfl, rfl, rfl, rfl, fun n hn => readReg_of_six_le hn s⟩,
    fun s hInv => ⟨hInv.status.outLen, hInv.status.faultLenRange, fun hf => ?_⟩⟩
  obtain ⟨-, -, hpos, hcode, hlen⟩ := hInv.status.noFault hf
  exact readReg_fault_of_clear hpos hcode hlen

/-- Settles O1: R41's values are CTL's reset value, and with them every register reads 0. -/
theorem resetValues : Obligations.ResetValues :=
  ⟨rfl, rfl, rfl, rfl, rfl, rfl, rfl, rfl, rfl, rfl, rfl, rfl, rfl, readReg_of_ctl_reset rfl⟩

/-! ### Turns that change nothing, and turns that change STATE -/

/-- Settles O44: such a turn only goes off the host's list. -/
theorem otherHostTurnsChangeNothing : Obligations.OtherHostTurnsChangeNothing := by
  refine ⟨fun s n rest hh => step_read hh, fun s n v x rest hh hn => step_write_of_ne_zero hh hn,
    fun s hq => ⟨fun hh => ?_, fun rest hh => ?_⟩⟩
  · exact (step_of_host_nil hh).trans (engine_of_not_busy hq)
  · exact (step_run hh).trans (engine_of_not_busy (s := s.setHost rest) hq)

/-- The state an engine's turn starts from has the CTL of the state it comes next in. -/
theorem EngineTurn.ctl_eq {s0 s : State} (h : EngineTurn s0 s) : s.ctl = s0.ctl := by
  rcases h with ⟨-, rfl⟩ | rfl
  · rfl
  · rfl

theorem EngineTurn.host_eq {s0 s : State} (h : EngineTurn s0 s) : s0.host = [] ∨ ∃ rest, s0.host = .run :: rest := by
  rcases h with ⟨hnil, rfl⟩ | rfl
  · exact Or.inl hnil
  · exact Or.inr ⟨s.host, rfl⟩

/-- Settles O45: in FAULT the other turns keep CTL, and an acceptance that starts its phase has cleared the record. -/
theorem faultIsSticky : Obligations.FaultIsSticky := by
  refine ⟨fun s t hf h hwrite hreset => ?_, fun s t v x rest _ hh h hb => ?_⟩
  · have hctl : t.ctl = s.ctl := by
      rcases step_cases h with ⟨u, hturn, hu⟩ | ⟨v, x, rest, hh⟩ | ⟨rest, hh, -⟩ | ⟨rest, rfl⟩
      · rw [engine_of_not_busy (by rw [hturn.ctl_eq, hf]; decide)] at hu
        cases hu
        exact hturn.ctl_eq
      · exact absurd hh (hwrite v x rest)
      · exact absurd hh (hreset rest)
      · rfl
    exact ⟨hctl, readReg_of_ctl_eq hctl⟩
  · rcases (write0_cases hh h).2 with hfault | hfresh
    · rw [hfault] at hb
      cases hb
    · exact ⟨hfresh.cause, hfresh.subcause,
        readReg_fault_of_clear hfresh.faultPos hfresh.faultCode hfresh.faultLen⟩

/-- Settles O47: each kind of turn, with the STATE it leaves. -/
theorem whoWritesState : Obligations.WhoWritesState := by
  intro s t h hne
  rcases step_cases h with ⟨u, hturn, hu⟩ | ⟨v, x, rest, hh⟩ | ⟨rest, hh, rfl⟩ | ⟨rest, rfl⟩
  · have hstate : u.ctl.state = s.ctl.state := congrArg Ctl.state hturn.ctl_eq
    by_cases hb : u.ctl.state = .busy
    · refine Or.inr (Or.inl ⟨hstate ▸ hb, hturn.host_eq, ?_⟩)
      exact (engine_turn hb hu).state.resolve_left fun hbusy => hne (hbusy.trans (hb.symm.trans hstate))
    · rw [engine_of_not_busy hb] at hu
      cases hu
      exact absurd hstate hne
  · obtain ⟨hquiet, hafter⟩ := write0_cases hh h
    exact Or.inl ⟨hquiet, ⟨v, x, rest, hh⟩, hafter.symm.imp Fresh.state id⟩
  · exact Or.inr (Or.inr ⟨⟨rest, hh⟩, rfl⟩)
  · exact absurd rfl hne

/-! ### What the engine's turn keeps -/

/-- Settles O48: what a turn of the engine does to the sinks. -/
theorem outputAppendOnly : Obligations.OutputAppendOnly := by
  intro s0 s t hturn hb h
  rw [hturn.step_eq] at h
  exact ⟨(engine_turn hb h).mid, (engine_turn hb h).out⟩

/-- Settles O50: what a turn of the engine does to the units, phase by phase; outside BUSY it does nothing. -/
theorem unitsStayApart : Obligations.UnitsStayApart := by
  intro s0 s t hturn h
  rw [hturn.step_eq] at h
  by_cases hb : s.ctl.state = .busy
  · have hkeeps := engine_turn hb h
    exact ⟨hkeeps.encode, hkeeps.decode, hkeeps.pack, hkeeps.unpack⟩
  · rw [engine_of_not_busy hb] at h
    cases h
    exact ⟨fun _ => rfl, fun _ => rfl, fun _ => ⟨rfl, rfl⟩, fun _ => ⟨rfl, Or.inl rfl⟩⟩

end Sys2Proof.Machine
end
